-- ==== Sys2Proof/Word.lean ====
section
/-! DEFINITION. The word types of the core: XLEN = 32 (spec/00_scope.md R6, R7), byte-addressed memory
(spec/20_memory.md R40), 5-bit register indices (spec/30_encoding.md R64). -/

namespace Sys2Proof

/-- A register, a pc, an address, a bus value or an instruction word: 32 bits (R6, `XLEN`). -/
abbrev Word := BitVec 32

/-- One byte of memory (R40). -/
abbrev Byte := BitVec 8

/-- An architectural register index, the 5-bit field of an instruction (R64). -/
abbrev RegIdx := BitVec 5

end Sys2Proof
end

