-- ==== Sys2Proof/Config.lean ====
section
/-! DEFINITION. The parameters of the core (spec/00_scope.md R6, spec/92_eei_decisions.md section 3): the ones the
spec fixes are constants, the OPEN ones are the fields of `Config`. A `Config` enters a machine once, at reset
(`Machine.State.resetWith`); from then on the state carries it (notes/assumptions/3.md). -/

namespace Sys2Proof

/-- `FALL`, the fall-through delta, equal to `ILEN`, the instruction width in bytes (R6). -/
def fall : Word := 4

/-- `RESET_PC` (R6, R38; decision D21). -/
def resetPc : Word := 0

/-- `RESULT_REG`, the designated result register `x10` (R6; decision D4). -/
def resultReg : RegIdx := 10

/-- `HALT_WORD` (R6, R73; decision D3; notes/assumptions/4.md). -/
def haltWord : Word := 0x0FF00513

/-- The OPEN parameters of R6. -/
structure Config where
  /-- `N_ROB`, reorder-buffer slots. -/
  nRob : Nat
  /-- `N_RS`, reservation-station slots. -/
  nRs : Nat
  /-- `N_LSQ`, load-store-queue slots. -/
  nLsq : Nat
  /-- `N_FQ`, fetch-queue slots. -/
  nFq : Nat
  /-- `MEM_SIZE`, bytes of memory. -/
  memSize : Nat
  /-- `MAX_CYCLES`, the cycle bound, or none. -/
  maxCycles : Option Nat
  deriving DecidableEq, Repr

/-- The constraints R6 puts on the open parameters: every capacity at least 1, `4 <= MEM_SIZE <= 2^32`. -/
abbrev Config.Valid (c : Config) : Prop :=
  1 ≤ c.nRob ∧ 1 ≤ c.nRs ∧ 1 ≤ c.nLsq ∧ 1 ≤ c.nFq ∧ 4 ≤ c.memSize ∧ c.memSize ≤ 2 ^ 32

/-- DESIGN CHOICE (notes/assumptions/3.md): the setting spec/95_test_vectors.md uses "unless said otherwise". -/
def Config.standard : Config :=
  { nRob := 4, nRs := 4, nLsq := 4, nFq := 4, memSize := 0x1000, maxCycles := none }

end Sys2Proof
end

