-- ==== Sys2Proof/WellFormed.lean ====
section
/-! DEFINITION. Which instructions have an encoding of their own. Register indices and immediates are bounded by
their types; what is left is that branch and jump offsets are even (spec/30_encoding.md R65) and that the word of
`ADDI x10, x0, 255` is not an `ADDI` but `HALT` (R73). -/

namespace Sys2Proof

/-- The offset of a branch or a `JAL` has its low bit zero: "always even" (R65). -/
def evenOffset {n : Nat} (offset : BitVec n) : Bool := !offset.getLsbD 0

/-- Is `ADDI rd, rs1, imm` the instruction whose word is `HALT_WORD`, `ADDI x10, x0, 255` (R73)? -/
def isHaltPattern (rd rs1 : RegIdx) (imm : BitVec 12) : Bool := rd == 10 && rs1 == 0 && imm == 255

/-- The instruction has a word that decodes to it. -/
def Instr.wellFormed : Instr → Bool
  | .jal _ offset => evenOffset offset
  | .beq _ _ offset | .bne _ _ offset | .blt _ _ offset
  | .bge _ _ offset | .bltu _ _ offset | .bgeu _ _ offset => evenOffset offset
  | .addi rd rs1 imm => !isHaltPattern rd rs1 imm
  | .halt | .lui _ _ | .auipc _ _ | .jalr _ _ _
  | .lb _ _ _ | .lh _ _ _ | .lw _ _ _ | .lbu _ _ _ | .lhu _ _ _
  | .sb _ _ _ | .sh _ _ _ | .sw _ _ _
  | .slti _ _ _ | .sltiu _ _ _ | .xori _ _ _ | .ori _ _ _ | .andi _ _ _
  | .slli _ _ _ | .srli _ _ _ | .srai _ _ _
  | .add _ _ _ | .sub _ _ _ | .sll _ _ _ | .slt _ _ _ | .sltu _ _ _
  | .xor _ _ _ | .srl _ _ _ | .sra _ _ _ | .or _ _ _ | .and _ _ _ => true

end Sys2Proof
end

