-- ==== Sys2Proof/Decode.lean ====
section
/-! DEFINITION. The decoder (spec/30_encoding.md R60 to R75), total on any bytes and rejecting by name, and after it
the encoder, both written from the format, immediate and opcode tables of that file (R63 to R73). -/

namespace Sys2Proof

/-- Why a word does not decode: the cases of `DecodeFailure`, R74. The core treats them all alike (R102); `truncated`
is the decoder's own answer to fewer than four bytes, which a fetch never gives it (R62). -/
inductive DecodeError where
  /-- `w[6:0]` is none of the nine opcodes of R66. -/
  | unknownOpcode
  /-- A `JALR` word with `f3 != 000` (R72). -/
  | jalrFunct3
  /-- A branch word with `f3` 010 or 011 (R67). -/
  | branchFunct3
  /-- A load word with `f3` 011, 110 or 111 (R68). -/
  | loadFunct3
  /-- A store word with `f3` 011 to 111 (R69). -/
  | storeFunct3
  /-- Fewer than four bytes. -/
  | truncated
  deriving DecidableEq, Repr

/-! ### Fields of a word (R63, R64) -/

/-- `w[6:0]`. -/
def fieldOpcode (w : Word) : BitVec 7 := w.extractLsb' 0 7
/-- `w[11:7]`. -/
def fieldRd (w : Word) : RegIdx := w.extractLsb' 7 5
/-- `w[14:12]`, the "3-bit function field". -/
def fieldFunct3 (w : Word) : BitVec 3 := w.extractLsb' 12 3
/-- `w[19:15]`. -/
def fieldRs1 (w : Word) : RegIdx := w.extractLsb' 15 5
/-- `w[24:20]`, `rs2` or the shift amount. -/
def fieldRs2 (w : Word) : RegIdx := w.extractLsb' 20 5
/-- `w[30]`, the "one additional bit". -/
def fieldBit30 (w : Word) : Bool := w.getLsbD 30

/-- `w[31:20]`, the immediate of the I format. -/
def fieldImmI (w : Word) : BitVec 12 := w.extractLsb' 20 12
/-- `{ w[31:25], w[11:7] }`, the immediate of the S format. -/
def fieldImmS (w : Word) : BitVec 12 := w.extractLsb' 25 7 ++ w.extractLsb' 7 5
/-- `{ w[31], w[7], w[30:25], w[11:8], 0 }`, the offset of the B format. -/
def fieldImmB (w : Word) : BitVec 13 :=
  w.extractLsb' 31 1 ++ w.extractLsb' 7 1 ++ w.extractLsb' 25 6 ++ w.extractLsb' 8 4 ++ 0#1
/-- `w[31:12]`, the immediate of the U format. -/
def fieldImmU (w : Word) : BitVec 20 := w.extractLsb' 12 20
/-- `{ w[31], w[19:12], w[20], w[30:21], 0 }`, the offset of the J format. -/
def fieldImmJ (w : Word) : BitVec 21 :=
  w.extractLsb' 31 1 ++ w.extractLsb' 12 8 ++ w.extractLsb' 20 1 ++ w.extractLsb' 21 10 ++ 0#1

/-! ### The class tables (R67 to R71) -/

/-- `BRANCH_TABLE[f3]` (R67). -/
def branchTable (f3 : BitVec 3) (rs1 rs2 : RegIdx) (offset : BitVec 13) : Except DecodeError Instr :=
  match f3 with
  | 0b000#3 => .ok (.beq rs1 rs2 offset)
  | 0b001#3 => .ok (.bne rs1 rs2 offset)
  | 0b100#3 => .ok (.blt rs1 rs2 offset)
  | 0b101#3 => .ok (.bge rs1 rs2 offset)
  | 0b110#3 => .ok (.bltu rs1 rs2 offset)
  | 0b111#3 => .ok (.bgeu rs1 rs2 offset)
  | _ => .error .branchFunct3

/-- `LOAD_TABLE[f3]` (R68). -/
def loadTable (f3 : BitVec 3) (rd rs1 : RegIdx) (imm : BitVec 12) : Except DecodeError Instr :=
  match f3 with
  | 0b000#3 => .ok (.lb rd rs1 imm)
  | 0b001#3 => .ok (.lh rd rs1 imm)
  | 0b010#3 => .ok (.lw rd rs1 imm)
  | 0b100#3 => .ok (.lbu rd rs1 imm)
  | 0b101#3 => .ok (.lhu rd rs1 imm)
  | _ => .error .loadFunct3

/-- `STORE_TABLE[f3]` (R69). -/
def storeTable (f3 : BitVec 3) (rs2 rs1 : RegIdx) (imm : BitVec 12) : Except DecodeError Instr :=
  match f3 with
  | 0b000#3 => .ok (.sb rs2 rs1 imm)
  | 0b001#3 => .ok (.sh rs2 rs1 imm)
  | 0b010#3 => .ok (.sw rs2 rs1 imm)
  | _ => .error .storeFunct3

/-- `OPIMM_TABLE[f3, b30]` (R70): every `f3` has an entry, and only the two right shifts look at `b30`. -/
def opImmTable (f3 : BitVec 3) (b30 : Bool) (rd rs1 : RegIdx) (imm : BitVec 12) (shamt : BitVec 5) : Instr :=
  match f3 with
  | 0b000#3 => .addi rd rs1 imm
  | 0b001#3 => .slli rd rs1 shamt
  | 0b010#3 => .slti rd rs1 imm
  | 0b011#3 => .sltiu rd rs1 imm
  | 0b100#3 => .xori rd rs1 imm
  | 0b101#3 => if b30 then .srai rd rs1 shamt else .srli rd rs1 shamt
  | 0b110#3 => .ori rd rs1 imm
  | _ => .andi rd rs1 imm

/-- `OP_TABLE[f3, b30]` (R71): every `f3` has an entry, and only 000 and 101 look at `b30`. -/
def opTable (f3 : BitVec 3) (b30 : Bool) (rd rs1 rs2 : RegIdx) : Instr :=
  match f3 with
  | 0b000#3 => if b30 then .sub rd rs1 rs2 else .add rd rs1 rs2
  | 0b001#3 => .sll rd rs1 rs2
  | 0b010#3 => .slt rd rs1 rs2
  | 0b011#3 => .sltu rd rs1 rs2
  | 0b100#3 => .xor rd rs1 rs2
  | 0b101#3 => if b30 then .sra rd rs1 rs2 else .srl rd rs1 rs2
  | 0b110#3 => .or rd rs1 rs2
  | _ => .and rd rs1 rs2

/-- `decode` (R60): the halt word first (R73), then the nine major opcodes (R66), the class tables under them. -/
def decode (w : Word) : Except DecodeError Instr :=
  if w = haltWord then .ok .halt
  else
    match fieldOpcode w with
    | 0b0110111#7 => .ok (.lui (fieldRd w) (fieldImmU w))
    | 0b0010111#7 => .ok (.auipc (fieldRd w) (fieldImmU w))
    | 0b1101111#7 => .ok (.jal (fieldRd w) (fieldImmJ w))
    | 0b1100111#7 =>
      if fieldFunct3 w = 0b000#3 then .ok (.jalr (fieldRd w) (fieldRs1 w) (fieldImmI w)) else .error .jalrFunct3
    | 0b1100011#7 => branchTable (fieldFunct3 w) (fieldRs1 w) (fieldRs2 w) (fieldImmB w)
    | 0b0000011#7 => loadTable (fieldFunct3 w) (fieldRd w) (fieldRs1 w) (fieldImmI w)
    | 0b0100011#7 => storeTable (fieldFunct3 w) (fieldRs2 w) (fieldRs1 w) (fieldImmS w)
    | 0b0010011#7 =>
      .ok (opImmTable (fieldFunct3 w) (fieldBit30 w) (fieldRd w) (fieldRs1 w) (fieldImmI w) (fieldRs2 w))
    | 0b0110011#7 => .ok (opTable (fieldFunct3 w) (fieldBit30 w) (fieldRd w) (fieldRs1 w) (fieldRs2 w))
    | _ => .error .unknownOpcode

/-! ### Bytes (R62, spec/20_memory.md R41, R47) -/

/-- The four bytes of a word as the memory stores them, the least significant at the lowest address (R41). -/
def bytesOfWord (w : Word) : List Byte :=
  [w.extractLsb' 0 8, w.extractLsb' 8 8, w.extractLsb' 16 8, w.extractLsb' 24 8]

/-- The word whose bytes stand in memory in this order: the byte at `pc` is bits 7:0 (R47). -/
def wordOfBytes (b0 b1 b2 b3 : Byte) : Word := b3 ++ b2 ++ b1 ++ b0

/-- Decode the instruction at the front of a list of bytes and return the bytes after it (R62). -/
def decodeBytes : List Byte → Except DecodeError (Instr × List Byte)
  | b0 :: b1 :: b2 :: b3 :: rest =>
    match decode (wordOfBytes b0 b1 b2 b3) with
    | .ok i => .ok (i, rest)
    | .error e => .error e
  | _ => .error .truncated

/-- The instruction the decoder reads from a row's bits, laid out as the memory stores them. -/
def decodeTableWord (nbits w : Nat) : Option Instr :=
  match decodeBytes (bytesOfWord (BitVec.ofNat 32 (w % 2 ^ nbits))) with
  | .ok (i, _) => some i
  | .error _ => none

/-! ### The encoder (R63, R66 to R73) -/

/-- The R format. -/
def encodeR (funct7 : BitVec 7) (rs2 rs1 : RegIdx) (f3 : BitVec 3) (rd : RegIdx) (opcode : BitVec 7) : Word :=
  funct7 ++ rs2 ++ rs1 ++ f3 ++ rd ++ opcode
/-- The I format. -/
def encodeI (imm : BitVec 12) (rs1 : RegIdx) (f3 : BitVec 3) (rd : RegIdx) (opcode : BitVec 7) : Word :=
  imm ++ rs1 ++ f3 ++ rd ++ opcode
/-- The S format. -/
def encodeS (imm : BitVec 12) (rs2 rs1 : RegIdx) (f3 : BitVec 3) (opcode : BitVec 7) : Word :=
  imm.extractLsb' 5 7 ++ rs2 ++ rs1 ++ f3 ++ imm.extractLsb' 0 5 ++ opcode
/-- The B format: bits 12, 10:5 of the offset on the left, 4:1, 11 on the right. -/
def encodeB (offset : BitVec 13) (rs2 rs1 : RegIdx) (f3 : BitVec 3) (opcode : BitVec 7) : Word :=
  offset.extractLsb' 12 1 ++ offset.extractLsb' 5 6 ++ rs2 ++ rs1 ++ f3 ++ offset.extractLsb' 1 4
    ++ offset.extractLsb' 11 1 ++ opcode
/-- The U format. -/
def encodeU (imm : BitVec 20) (rd : RegIdx) (opcode : BitVec 7) : Word := imm ++ rd ++ opcode
/-- The J format: bits 20, 10:1, 11, 19:12 of the offset. -/
def encodeJ (offset : BitVec 21) (rd : RegIdx) (opcode : BitVec 7) : Word :=
  offset.extractLsb' 20 1 ++ offset.extractLsb' 1 10 ++ offset.extractLsb' 11 1 ++ offset.extractLsb' 12 8
    ++ rd ++ opcode

/-- The word of an instruction, its ignored bits zero. -/
def encode : Instr → Word
  | .halt => haltWord
  | .lui rd imm => encodeU imm rd 0b0110111#7
  | .auipc rd imm => encodeU imm rd 0b0010111#7
  | .jal rd offset => encodeJ offset rd 0b1101111#7
  | .jalr rd rs1 imm => encodeI imm rs1 0b000#3 rd 0b1100111#7
  | .beq rs1 rs2 offset => encodeB offset rs2 rs1 0b000#3 0b1100011#7
  | .bne rs1 rs2 offset => encodeB offset rs2 rs1 0b001#3 0b1100011#7
  | .blt rs1 rs2 offset => encodeB offset rs2 rs1 0b100#3 0b1100011#7
  | .bge rs1 rs2 offset => encodeB offset rs2 rs1 0b101#3 0b1100011#7
  | .bltu rs1 rs2 offset => encodeB offset rs2 rs1 0b110#3 0b1100011#7
  | .bgeu rs1 rs2 offset => encodeB offset rs2 rs1 0b111#3 0b1100011#7
  | .lb rd rs1 imm => encodeI imm rs1 0b000#3 rd 0b0000011#7
  | .lh rd rs1 imm => encodeI imm rs1 0b001#3 rd 0b0000011#7
  | .lw rd rs1 imm => encodeI imm rs1 0b010#3 rd 0b0000011#7
  | .lbu rd rs1 imm => encodeI imm rs1 0b100#3 rd 0b0000011#7
  | .lhu rd rs1 imm => encodeI imm rs1 0b101#3 rd 0b0000011#7
  | .sb rs2 rs1 imm => encodeS imm rs2 rs1 0b000#3 0b0100011#7
  | .sh rs2 rs1 imm => encodeS imm rs2 rs1 0b001#3 0b0100011#7
  | .sw rs2 rs1 imm => encodeS imm rs2 rs1 0b010#3 0b0100011#7
  | .addi rd rs1 imm => encodeI imm rs1 0b000#3 rd 0b0010011#7
  | .slti rd rs1 imm => encodeI imm rs1 0b010#3 rd 0b0010011#7
  | .sltiu rd rs1 imm => encodeI imm rs1 0b011#3 rd 0b0010011#7
  | .xori rd rs1 imm => encodeI imm rs1 0b100#3 rd 0b0010011#7
  | .ori rd rs1 imm => encodeI imm rs1 0b110#3 rd 0b0010011#7
  | .andi rd rs1 imm => encodeI imm rs1 0b111#3 rd 0b0010011#7
  | .slli rd rs1 shamt => encodeR 0b0000000#7 shamt rs1 0b001#3 rd 0b0010011#7
  | .srli rd rs1 shamt => encodeR 0b0000000#7 shamt rs1 0b101#3 rd 0b0010011#7
  | .srai rd rs1 shamt => encodeR 0b0100000#7 shamt rs1 0b101#3 rd 0b0010011#7
  | .add rd rs1 rs2 => encodeR 0b0000000#7 rs2 rs1 0b000#3 rd 0b0110011#7
  | .sub rd rs1 rs2 => encodeR 0b0100000#7 rs2 rs1 0b000#3 rd 0b0110011#7
  | .sll rd rs1 rs2 => encodeR 0b0000000#7 rs2 rs1 0b001#3 rd 0b0110011#7
  | .slt rd rs1 rs2 => encodeR 0b0000000#7 rs2 rs1 0b010#3 rd 0b0110011#7
  | .sltu rd rs1 rs2 => encodeR 0b0000000#7 rs2 rs1 0b011#3 rd 0b0110011#7
  | .xor rd rs1 rs2 => encodeR 0b0000000#7 rs2 rs1 0b100#3 rd 0b0110011#7
  | .srl rd rs1 rs2 => encodeR 0b0000000#7 rs2 rs1 0b101#3 rd 0b0110011#7
  | .sra rd rs1 rs2 => encodeR 0b0100000#7 rs2 rs1 0b101#3 rd 0b0110011#7
  | .or rd rs1 rs2 => encodeR 0b0000000#7 rs2 rs1 0b110#3 rd 0b0110011#7
  | .and rd rs1 rs2 => encodeR 0b0000000#7 rs2 rs1 0b111#3 rd 0b0110011#7

end Sys2Proof
end

