-- ==== Sys2Proof/Machine/State.lean ====
section
/-! DEFINITION. Every piece of state the spec gives the core (spec/10_state.md R10 to R30) as plain data, and its reset
values (R38, spec/70_reset_and_hazards.md R240). The state is the registered one of R9, between two cycles, together
with the three latches that live inside a cycle, so that every phase is a function from states to states. -/

namespace Sys2Proof.Machine

/-! ### Operation kinds (R61) -/

/-- The 21 computational kinds (R160). -/
inductive ComputeOp where
  | lui | auipc
  | addi | slti | sltiu | xori | ori | andi | slli | srli | srai
  | add | sub | sll | slt | sltu | xor | srl | sra | or | and
  deriving DecidableEq, Repr

/-- The two unconditional jumps (R191, R192). -/
inductive JumpOp where
  | jal | jalr
  deriving DecidableEq, Repr

/-- The six conditional branches (R189). -/
inductive BranchOp where
  | beq | bne | blt | bge | bltu | bgeu
  deriving DecidableEq, Repr

/-- The five loads (R201 to R205). -/
inductive LoadOp where
  | lb | lh | lw | lbu | lhu
  deriving DecidableEq, Repr

/-- The three stores (R206 to R208). -/
inductive StoreOp where
  | sb | sh | sw
  deriving DecidableEq, Repr

/-- The kinds that go to a reservation station (R23, R61). -/
inductive RsOp where
  | compute (op : ComputeOp)
  | jump (op : JumpOp)
  | branch (op : BranchOp)
  deriving DecidableEq, Repr

/-- The kinds that go to the load-store queue (R24, R61). -/
inductive MemOp where
  | load (op : LoadOp)
  | store (op : StoreOp)
  deriving DecidableEq, Repr

/-- The 38 operation kinds, sorted by the structure they go to, the "goes to" column of R61: a reservation station,
the load-store queue, or the reorder buffer only. So an entry of the wrong kind cannot be written down
(notes/assumptions/15.md). -/
inductive OpKind where
  | rs (op : RsOp)
  | mem (op : MemOp)
  | halt
  deriving DecidableEq, Repr

/-! ### Parts of the state -/

/-- A tag: the index of a reorder-buffer slot (R20). -/
abbrev Tag := Nat

/-- A source operand: a resolved value or a pending tag (R8, R22). -/
inductive Operand where
  | val (v : Word)
  | tag (t : Tag)
  deriving DecidableEq, Repr

/-- An entry of the register status table (R17). -/
structure RstEntry where
  busy : Bool
  tag : Tag
  deriving DecidableEq, Repr

/-- A reorder-buffer entry (R18). -/
structure RobEntry where
  op : OpKind
  rd : RegIdx
  pc : Word
  value : Word
  redirect : Word
  ready : Bool
  deriving DecidableEq, Repr

/-- A reservation-station entry (R22). -/
structure RsEntry where
  busy : Bool
  op : RsOp
  o1 : Operand
  o2 : Operand
  imm : Word
  dest : Tag
  pc : Word
  deriving DecidableEq, Repr

/-- A load-store-queue entry (R24). -/
structure LsqEntry where
  op : MemOp
  o1 : Operand
  o2 : Operand
  imm : Word
  dest : Tag
  ready : Bool
  reported : Bool
  deriving DecidableEq, Repr

/-- A fixed-capacity circular FIFO, `{slot[0 .. N-1], head, count}`: the shape of the reorder buffer (R19) and of the
load-store queue (R25). `N` is the length of `slots`. -/
structure Fifo (α : Type) where
  slots : List α
  head : Nat
  count : Nat
  deriving DecidableEq, Repr

/-- An instruction record (R27). -/
structure Record where
  op : OpKind
  rd : RegIdx
  rs1 : RegIdx
  rs2 : RegIdx
  imm : Word
  pc : Word
  deriving DecidableEq, Repr

/-- What phase (b) hands to phase (g) (R28, `lsq_out`). -/
inductive LsqOut where
  | loadResult (t : Tag) (v : Word)
  | storeReport (t : Tag)
  deriving DecidableEq, Repr

/-- A launched reservation-station entry, both operands resolved (R28, `exec_latch`). -/
structure Launched where
  op : RsOp
  a : Word
  b : Word
  imm : Word
  dest : Tag
  pc : Word
  deriving DecidableEq, Repr

/-- The `fault` status (R29, spec/60_exceptions.md R221). -/
inductive FaultStatus where
  | none
  | memoryAccessError
  | simulationTimeout
  deriving DecidableEq, Repr

/-- What `raise` is given (R8): the two fatal conditions. `DecodeFailure` is not raised. -/
inductive Condition where
  | memoryAccessError (addr : Word)
  | simulationTimeout
  deriving DecidableEq, Repr

/-! ### Memory (R16, spec/20_memory.md R40) -/

/-- The bytes of memory that are not zero, by rising address; a byte not listed is 0, its value where the program
image wrote nothing (R38, R243). -/
abbrev Memory := List Host.Cell

/-- The canonical form: addresses strictly rising, no entry equal to what an unlisted address reads as. -/
abbrev Memory.wf (m : Memory) : Prop :=
  m.Pairwise (fun c d => c.1 < d.1) ∧ ∀ c ∈ m, c.2 ≠ 0

/-! ### The state -/

/-- The whole state of the core and its memory. -/
structure State where
  /-- The architectural registers `x[0..31]` (R10). -/
  x : Vector Word 32
  /-- The fetch program counter (R12). -/
  pc : Word
  /-- The memory (R16). -/
  mem : Memory
  /-- The register status table (R17). -/
  rst : Vector RstEntry 32
  /-- The reorder buffer (R19). -/
  rob : Fifo RobEntry
  /-- The reservation stations (R23). -/
  rs : List RsEntry
  /-- The load-store queue (R25). -/
  lsq : Fifo LsqEntry
  /-- The fetch queue, oldest record first (R26). -/
  fq : List Record
  /-- The common data bus: register-value results (R28). -/
  cdb : List (Tag × Word)
  /-- The ready signals to the reorder buffer: tag and redirect (R28, `rob_sig`). -/
  robSig : List (Tag × Word)
  /-- The staged lock (R28, `lock_req`). -/
  lockReq : Option (RegIdx × Tag)
  /-- The staged unlock (R28, `unlock_req`). -/
  unlockReq : Option (RegIdx × Tag)
  /-- The entry popped in phase (a) of this cycle (R28, `commit_latch`). -/
  commitLatch : Option (Tag × RobEntry)
  /-- The load-store queue's result of this cycle (R28, `lsq_out`). -/
  lsqOut : Option LsqOut
  /-- The entry launched in this cycle (R28, `exec_latch`). -/
  execLatch : Option Launched
  /-- A `HALT` has committed (R29). -/
  halted : Bool
  /-- The fatal condition, if any (R29). -/
  fault : FaultStatus
  /-- The offending address of a `MemoryAccessError` (R29). -/
  faultAddr : Word
  /-- Cycles started since reset (R30). -/
  cycles : Nat
  /-- Rollbacks since reset (R30). -/
  rollbacks : Nat
  /-- The parameter `N_FQ` (R6); no rule writes it. -/
  fqCap : Nat
  /-- The parameter `MEM_SIZE` (R6); no rule writes it. -/
  memSize : Nat
  /-- The parameter `MAX_CYCLES` (R6); no rule writes it. -/
  maxCycles : Option Nat
  deriving DecidableEq, Repr

/-! ### Why a step can stop -/

/-- Raised by the model, never by the core: the spec's own fatal conditions are states (R223 to R225). -/
inductive Fault where
  /-- Raised by Commit when it retires the store with tag `t` and no live load-store-queue entry matches it. R129:
  "The matching entry always exists", so no run reaches it. Safe: the model stops where the rule says nothing
  (notes/assumptions/9.md). -/
  | storeEntryMissing (t : Tag)
  deriving DecidableEq, Repr

/-- Reasons for which the model has no meaning. -/
inductive Refusal where
  /-- Raised by an arm of `exec` whose instruction has no meaning yet. Safe. No arm raises it now. -/
  | notModelled (mnemonic : String)
  deriving DecidableEq, Repr

/-! ### Reset (R38, R240) -/

/-- A reorder-buffer slot at reset (R19). -/
def RobEntry.reset : RobEntry := { op := .halt, rd := 0, pc := 0, value := 0, redirect := 0, ready := false }

/-- A reservation-station slot at reset: `busy = 0`, "other fields 0" (R23); the kind is a DESIGN CHOICE
(notes/assumptions/7.md). -/
def RsEntry.reset : RsEntry :=
  { busy := false, op := .compute .lui, o1 := .val 0, o2 := .val 0, imm := 0, dest := 0, pc := 0 }

/-- A load-store-queue slot at reset: DESIGN CHOICE (notes/assumptions/7.md). -/
def LsqEntry.reset : LsqEntry :=
  { op := .load .lb, o1 := .val 0, o2 := .val 0, imm := 0, dest := 0, ready := false, reported := false }

/-- The state after `rst` of a core with parameters `c` whose host has loaded `image` (R38, R240, R241). -/
def State.resetWith (c : Config) (image : Memory) : State where
  x := Vector.replicate 32 0
  pc := resetPc
  mem := image
  rst := Vector.replicate 32 { busy := false, tag := 0 }
  rob := { slots := List.replicate c.nRob RobEntry.reset, head := 0, count := 0 }
  rs := List.replicate c.nRs RsEntry.reset
  lsq := { slots := List.replicate c.nLsq LsqEntry.reset, head := 0, count := 0 }
  fq := []
  cdb := []
  robSig := []
  lockReq := none
  unlockReq := none
  commitLatch := none
  lsqOut := none
  execLatch := none
  halted := false
  fault := .none
  faultAddr := 0
  cycles := 0
  rollbacks := 0
  fqCap := c.nFq
  memSize := c.memSize
  maxCycles := c.maxCycles

/-- The machine right after reset, at the parameters `Config.standard` and with an empty program image
(notes/assumptions/3.md, notes/assumptions/12.md). -/
def State.reset : State := State.resetWith Config.standard []

end Sys2Proof.Machine
end

