-- ==== Sys2Proof/Machine/Ops.lean ====
section
/-! DEFINITION. The named operations over memory (spec/20_memory.md), registers (spec/10_state.md R10, R11), the
circular queues (R19, R21, R25), and `raise` (spec/60_exceptions.md R223 to R225), the core's one way to stop on a
condition. The core has no exception entry that vectors to a handler and no return (R227, R229). -/

namespace Sys2Proof.Machine

/-! ### Memory -/

/-- The byte at `a`: the listed one, else 0 (R40, R243). -/
def Memory.read : Memory → Nat → Byte
  | [], _ => 0
  | c :: m, a => if c.1 = a then c.2 else Memory.read m a

/-- Put byte `b` at `a`, keeping the canonical form: addresses rising, zero bytes not listed. -/
def Memory.write : Memory → Nat → Byte → Memory
  | [], a, b => if b = 0 then [] else [(a, b)]
  | c :: m, a, b =>
    if c.1 < a then c :: Memory.write m a b
    else if c.1 = a then (if b = 0 then m else (a, b) :: m)
    else if b = 0 then c :: m else (a, b) :: c :: m

/-- The `n` bytes at `a .. a+n-1` as a number, the byte at the lowest address least significant (R41). -/
def Memory.readLE (m : Memory) (a : Nat) : Nat → Nat
  | 0 => 0
  | n + 1 => (m.read a).toNat + 256 * Memory.readLE m (a + 1) n

/-- Store the low `n` bytes of `v` at `a .. a+n-1`, the least significant at the lowest address (R41). -/
def Memory.writeLE (m : Memory) (a : Nat) : Nat → Word → Memory
  | 0, _ => m
  | n + 1, v => Memory.writeLE (m.write a (v.extractLsb' 0 8)) (a + 1) n (v >>> 8)

/-- Does the access of `n` bytes at `addr` run past the memory? An integer sum, not reduced modulo 2^32 (R42). -/
abbrev outOfRange (memSize : Nat) (addr : Word) (n : Nat) : Prop := memSize < addr.toNat + n

/-- `MemRead(addr, n)` (R42), the `8n`-bit value zero-extended to a word; none when it raises
`MemoryAccessError(addr)`. -/
def memRead (m : Memory) (memSize : Nat) (addr : Word) (n : Nat) : Option Word :=
  if outOfRange memSize addr n then none else some (BitVec.ofNat 32 (m.readLE addr.toNat n))

/-- `MemWrite(addr, n, v)` (R43); none when it raises `MemoryAccessError(addr)`, and then no byte is written. -/
def memWrite (m : Memory) (memSize : Nat) (addr : Word) (n : Nat) (v : Word) : Option Memory :=
  if outOfRange memSize addr n then none else some (m.writeLE addr.toNat n v)

/-! ### Registers -/

/-- `x[r]` (R8). -/
def State.readReg (s : State) (r : RegIdx) : Word := s.x[r.toNat]'r.isLt

/-- `x[r] <- v` (R8). Commit calls it for `r != 0` only (R127, R128). -/
def State.writeReg (s : State) (r : RegIdx) (v : Word) : State := { s with x := s.x.set r.toNat v r.isLt }

/-- `RST[r]` (R17). -/
def State.readRst (s : State) (r : RegIdx) : RstEntry := s.rst[r.toNat]'r.isLt

/-- `RST[r] <- e` (R17). -/
def State.writeRst (s : State) (r : RegIdx) (e : RstEntry) : State := { s with rst := s.rst.set r.toNat e r.isLt }

/-! ### Circular queues (R19, R25) -/

/-- `N`, the number of slots. -/
def Fifo.capacity {α : Type} (f : Fifo α) : Nat := f.slots.length

/-- The slot the next push goes to, `(head + count) mod N`. -/
def Fifo.tail {α : Type} (f : Fifo α) : Nat := (f.head + f.count) % f.capacity

/-- Not `full()`. -/
def Fifo.hasRoom {α : Type} (f : Fifo α) : Bool := f.count < f.capacity

/-- The entry at the head, if the queue is not empty. -/
def Fifo.front? {α : Type} (f : Fifo α) : Option α := if f.count = 0 then none else f.slots[f.head]?

/-- Push: write `slot[tail]`, `count <- count + 1`. -/
def Fifo.push {α : Type} (f : Fifo α) (e : α) : Fifo α :=
  { f with slots := f.slots.set f.tail e, count := f.count + 1 }

/-- Pop: `head <- (head + 1) mod N`, `count <- count - 1`; the slot keeps its fields (decision D11). -/
def Fifo.pop {α : Type} (f : Fifo α) : Fifo α :=
  { f with head := (f.head + 1) % f.capacity, count := f.count - 1 }

/-- `((i - head) mod N) < count`: slot `i` is live (R21), the difference taken in natural numbers
(notes/assumptions/8.md). -/
def Fifo.live {α : Type} (f : Fifo α) (i : Nat) : Bool := (i + f.capacity - f.head) % f.capacity < f.count

/-- Change slot `i` by `g`. -/
def Fifo.modify {α : Type} (f : Fifo α) (i : Nat) (g : α → α) : Fifo α := { f with slots := f.slots.modify i g }

/-- Change every live slot by `g`. -/
def Fifo.mapLive {α : Type} (f : Fifo α) (g : α → α) : Fifo α :=
  { f with slots := f.slots.mapIdx fun i e => if f.live i then g e else e }

/-- The live slots' indices, oldest first: `(head + k) mod N` for `k < count`. -/
def Fifo.liveSlots {α : Type} (f : Fifo α) : List Nat :=
  (List.range f.count).map fun k => (f.head + k) % f.capacity

/-- The oldest live slot whose entry satisfies `p`, scanning from the head. -/
def Fifo.findLive? {α : Type} (f : Fifo α) (p : α → Bool) : Option Nat :=
  f.liveSlots.find? fun i => (f.slots[i]?).any p

/-- Head and count to 0, the slots as they are changed by `g` (R131). -/
def Fifo.cleared {α : Type} (f : Fifo α) (g : α → α) : Fifo α := { slots := f.slots.map g, head := 0, count := 0 }

/-! ### Status, `raise` and the stopped state -/

/-- The core is stopped: `halted = 1` or `fault != none` (R29, R225). -/
def State.stopped (s : State) : Bool := s.halted || s.fault != .none

/-- `raise` (R8, R223, R224): the condition is recorded, nothing else changes, and the core is stopped from then on.
`Flow.ended` says that the phases after it in the cycle do not run. -/
def State.raise (s : State) : Condition → State
  | .memoryAccessError addr => { s with fault := .memoryAccessError, faultAddr := addr }
  | .simulationTimeout => { s with fault := .simulationTimeout }

/-- The 2-bit `fault` output (R221). -/
def FaultStatus.code : FaultStatus → BitVec 2
  | .none => 0
  | .memoryAccessError => 1
  | .simulationTimeout => 2

/-- A cycle in progress, or one that ended before its last phase because it raised or because the core is stopped
(R80). -/
inductive Flow where
  | running (s : State)
  | ended (s : State)
  deriving DecidableEq, Repr

/-- Go on with `f` unless the cycle has ended. -/
def Flow.andThen : Flow → (State → Flow) → Flow
  | .running s, f => f s
  | .ended s, _ => .ended s

end Sys2Proof.Machine
end

