-- ==== Sys2Proof/Machine/Operands.lean ====
section
/-! DEFINITION. Operands: the immediates a record carries (spec/30_encoding.md R65), the metadata of the kinds (R61),
the operand resolver (spec/41_fetch_dispatch_rename.md R106), broadcast capture (spec/43_rs_lsq_cdb_execute.md R140,
R143) and the effective address (spec/46_load_store.md R200). -/

namespace Sys2Proof.Machine

/-! ### Immediates (R65) -/

/-- `immI`: the 12-bit field sign-extended. -/
def immI (imm : BitVec 12) : Word := imm.signExtend 32
/-- `immS`: the 12-bit field sign-extended. -/
def immS (imm : BitVec 12) : Word := imm.signExtend 32
/-- `immB`: the 13-bit offset sign-extended. -/
def immB (offset : BitVec 13) : Word := offset.signExtend 32
/-- `immU`: the 20-bit field in bits 31:12, the low 12 bits zero. -/
def immU (imm : BitVec 20) : Word := imm ++ 0#12
/-- `immJ`: the 21-bit offset sign-extended. -/
def immJ (offset : BitVec 21) : Word := offset.signExtend 32
/-- `shamt`: the 5-bit field zero-extended. -/
def immShamt (shamt : BitVec 5) : Word := shamt.setWidth 32

/-! ### Metadata of the kinds (the table of R61, keyed by kind) -/

/-- Uses rs1. -/
def OpKind.usesRs1 : OpKind → Bool
  | .rs (.compute .lui) | .rs (.compute .auipc) | .rs (.jump .jal) => false
  | .rs (.jump .jalr) | .rs (.branch _) | .rs (.compute _) => true
  | .mem _ => true
  | .halt => false

/-- Uses rs2. -/
def OpKind.usesRs2 : OpKind → Bool
  | .rs (.compute .add) | .rs (.compute .sub) | .rs (.compute .sll) | .rs (.compute .slt) | .rs (.compute .sltu)
  | .rs (.compute .xor) | .rs (.compute .srl) | .rs (.compute .sra) | .rs (.compute .or) | .rs (.compute .and) => true
  | .rs (.branch _) => true
  | .rs (.compute _) | .rs (.jump _) => false
  | .mem (.load _) => false
  | .mem (.store _) => true
  | .halt => false

/-- Writes a register: false for "stores, branches, and halt". -/
def OpKind.writesRegister : OpKind → Bool
  | .rs (.compute _) | .rs (.jump _) => true
  | .rs (.branch _) => false
  | .mem (.load _) => true
  | .mem (.store _) => false
  | .halt => false

/-- Memory operation. -/
def OpKind.isMemOp : OpKind → Bool
  | .mem _ => true
  | .rs _ | .halt => false

/-- Control flow. -/
def OpKind.isControlFlow : OpKind → Bool
  | .rs (.jump _) | .rs (.branch _) => true
  | .rs (.compute _) | .mem _ | .halt => false

/-! ### The operand resolver -/

/-- `resolve(r)` (R106): 0 for register 0; the committed value of a register not busy; else the value in the
reorder-buffer slot its tag names, by index and without a liveness test, if that slot is ready; else the tag. -/
def State.resolve (s : State) (r : RegIdx) : Operand :=
  if r = 0 then .val 0
  else if (s.readRst r).busy then
    match s.rob.slots[(s.readRst r).tag]? with
    | some e => if e.ready then .val e.value else .tag (s.readRst r).tag
    | none => .tag (s.readRst r).tag
  else .val (s.readReg r)

/-- The operand of a source field: `resolve` if the kind uses it, else `Val 0` (R104; decision D19). -/
def State.sourceOperand (s : State) (used : Bool) (r : RegIdx) : Operand := if used then s.resolve r else .val 0

/-! ### Broadcast capture -/

/-- An operand equal to `Tag t` becomes `Val v` (R140, R143). -/
def Operand.capture (o : Operand) (b : Tag × Word) : Operand := if o = .tag b.1 then .val b.2 else o

/-- Capture from every broadcast, in list order. -/
def Operand.captureAll (cdb : List (Tag × Word)) (o : Operand) : Operand := cdb.foldl Operand.capture o

/-! ### Effective address -/

/-- `EA <- a + imm`, modulo 2^32 (R200). -/
def effectiveAddress (base imm : Word) : Word := base + imm

end Sys2Proof.Machine
end

