-- ==== Sys2Proof/Machine/FetchDispatch.lean ====
section
/-! DEFINITION. Phase (d), the register status table; phase (e), the fetch unit; phase (h), dispatch and renaming
(spec/41_fetch_dispatch_rename.md). -/

namespace Sys2Proof.Machine

/-! ### Phase (d): unlock, then lock (R108, R109) -/

/-- `unlock(r, t)`: clear busy only if the stored tag still matches (R109). -/
def State.unlock (s : State) (r : RegIdx) (t : Tag) : State :=
  if (s.readRst r).busy ∧ (s.readRst r).tag = t then s.writeRst r { s.readRst r with busy := false } else s

/-- `lock(r, t)`: busy with a new producer tag (R109). -/
def State.lock (s : State) (r : RegIdx) (t : Tag) : State := s.writeRst r { busy := true, tag := t }

/-- Apply the staged unlock, if any. -/
def State.applyUnlock (s : State) : State :=
  match s.unlockReq with
  | some (r, t) => s.unlock r t
  | none => s

/-- Apply the staged lock, if any. -/
def State.applyLock (s : State) : State :=
  match s.lockReq with
  | some (r, t) => s.lock r t
  | none => s

/-- Phase (d) (R108). -/
def State.phaseD (s : State) : State := s.applyUnlock.applyLock

/-! ### Phase (e): fetch (R100 to R102) -/

/-- What the fetch unit meets in phase (e). -/
inductive Fetched where
  /-- The fetch queue is full: no memory read, no decode (R100). -/
  | queueFull
  /-- `MemRead(pc, 4)` raises (R47). -/
  | outOfRange
  /-- The word does not decode: fetch stalls (R102). -/
  | undecodable (e : DecodeError)
  /-- The word decodes to this instruction. -/
  | instr (i : Instr)
  deriving DecidableEq, Repr

/-- Read the word at `pc` and decode it, unless the fetch queue is full (R100, R101). -/
def State.fetch (s : State) : Fetched :=
  if s.fq.length < s.fqCap then
    match memRead s.mem s.memSize s.pc 4 with
    | none => .outOfRange
    | some w =>
      match decode w with
      | .ok i => .instr i
      | .error e => .undecodable e
  else .queueFull

/-- Enqueue the record of a fetched instruction with its pc attached, and advance the pc (R101). With a full fetch
queue nothing is taken in (R100). -/
def State.enqueue (s : State) (r : Record) : State :=
  if s.fq.length < s.fqCap then { s with fq := s.fq ++ [{ r with pc := s.pc }], pc := s.pc + fall } else s

/-! ### Phase (h): dispatch (R103 to R107, R110) -/

/-- The structure a record's kind goes to has a free slot (R103); `HALT` needs none. -/
def State.hasSlotFor (s : State) (op : OpKind) : Bool :=
  match op with
  | .rs _ => s.rs.any fun e => !e.busy
  | .mem _ => s.lsq.hasRoom
  | .halt => true

/-- `can_dispatch` for a record at the head of the fetch queue (R103). -/
def State.canDispatch (s : State) (r : Record) : Bool := s.rob.hasRoom && s.hasSlotFor r.op

/-- Put an entry into the free reservation-station slot of lowest index (R104, R142; decision D17). -/
def fillFirst (entry : RsEntry) : List RsEntry → List RsEntry
  | [] => []
  | e :: rest => if e.busy then e :: fillFirst entry rest else entry :: rest

/-- The reorder-buffer entry of a record (R104): ready at once only for `HALT`. -/
def Record.robEntry (r : Record) : RobEntry :=
  { op := r.op, rd := r.rd, pc := r.pc, value := 0, redirect := 0, ready := r.op == .halt }

/-- The lock a record stages under tag `t`, if its kind writes a register other than 0 (R110). -/
def Record.lock (r : Record) (t : Tag) : Option (RegIdx × Tag) :=
  if r.op.writesRegister ∧ r.rd ≠ 0 then some (r.rd, t) else none

/-- Dispatch the record `r`, leaving `rest` in the fetch queue (R104). Both operands are resolved in the state before
the push (R107). -/
def State.dispatch (s : State) (r : Record) (rest : List Record) : State :=
  let t := s.rob.tail
  let o1 := s.sourceOperand r.op.usesRs1 r.rs1
  let o2 := s.sourceOperand r.op.usesRs2 r.rs2
  let s1 : State :=
    { s with fq := rest, rob := s.rob.push r.robEntry, lockReq := (r.lock t).or s.lockReq }
  match r.op with
  | .rs op =>
    { s1 with rs := fillFirst { busy := true, op := op, o1 := o1, o2 := o2, imm := r.imm, dest := t, pc := r.pc } s.rs }
  | .mem op =>
    { s1 with
      lsq := s.lsq.push { op := op, o1 := o1, o2 := o2, imm := r.imm, dest := t, ready := false, reported := false } }
  | .halt => s1

/-- Phase (h) (R103, R104): the head of the fetch queue is dispatched if it can be, else it stays. -/
def State.phaseH (s : State) : State :=
  match s.fq with
  | [] => s
  | r :: rest => if s.canDispatch r then s.dispatch r rest else s

end Sys2Proof.Machine
end

