-- ==== Sys2Proof/Machine/Flags.lean ====
section
/-! DEFINITION. The core has no flags and no condition codes: "No instruction writes a status flag as a side effect and
no instruction reads one" (spec/10_state.md R13). What stands in their place are the comparisons that the set-less-than
instructions and the branches compute themselves (spec/44_int_compute.md, spec/45_control_transfer.md). -/

namespace Sys2Proof.Machine

/-- `s(a) < s(b)` (R7). -/
def lessSigned (a b : Word) : Bool := a.toInt < b.toInt

/-- `u(a) < u(b)` (R7). -/
def lessUnsigned (a b : Word) : Bool := a.toNat < b.toNat

/-- `1 if c else 0`, the 32-bit result of a comparison. -/
def boolWord (c : Bool) : Word := if c then 1 else 0

/-- The condition of `BEQ` (R193). -/
def condBeq (a b : Word) : Bool := a == b
/-- The condition of `BNE` (R194). -/
def condBne (a b : Word) : Bool := a != b
/-- The condition of `BLT` (R195). -/
def condBlt (a b : Word) : Bool := lessSigned a b
/-- The condition of `BGE` (R196), `s(a) >= s(b)`. -/
def condBge (a b : Word) : Bool := !lessSigned a b
/-- The condition of `BLTU` (R197). -/
def condBltu (a b : Word) : Bool := lessUnsigned a b
/-- The condition of `BGEU` (R198), `u(a) >= u(b)`. -/
def condBgeu (a b : Word) : Bool := !lessUnsigned a b

end Sys2Proof.Machine
end

