-- ==== Sys2Proof/Machine/Execute.lean ====
section
/-! DEFINITION. What each kind computes: the function `exec(op, a, b, imm, pc)` of spec/43_rs_lsq_cdb_execute.md R154,
one definition per kind (spec/44_int_compute.md, spec/45_control_transfer.md), and the widths and extensions of the
loads and stores (spec/46_load_store.md). Sums and differences are modulo 2^32. -/

namespace Sys2Proof.Machine

/-- A shift amount: the low five bits of a word (decision D25). -/
def shiftAmount (v : Word) : Nat := (v.extractLsb' 0 5).toNat

/-! ### Computational kinds -/

/-- `LUI` (R161). -/
def valueLui (imm : Word) : Word := imm
/-- `AUIPC` (R162). -/
def valueAuipc (pc imm : Word) : Word := pc + imm
/-- `ADDI` (R163). -/
def valueAddi (a imm : Word) : Word := a + imm
/-- `SLTI` (R164). -/
def valueSlti (a imm : Word) : Word := boolWord (lessSigned a imm)
/-- `SLTIU` (R165). -/
def valueSltiu (a imm : Word) : Word := boolWord (lessUnsigned a imm)
/-- `XORI` (R166). -/
def valueXori (a imm : Word) : Word := a ^^^ imm
/-- `ORI` (R167). -/
def valueOri (a imm : Word) : Word := a ||| imm
/-- `ANDI` (R168). -/
def valueAndi (a imm : Word) : Word := a &&& imm
/-- `SLLI` (R169). -/
def valueSlli (a imm : Word) : Word := a <<< shiftAmount imm
/-- `SRLI` (R170). -/
def valueSrli (a imm : Word) : Word := a >>> shiftAmount imm
/-- `SRAI` (R171). -/
def valueSrai (a imm : Word) : Word := a.sshiftRight (shiftAmount imm)
/-- `ADD` (R172). -/
def valueAdd (a b : Word) : Word := a + b
/-- `SUB` (R173). -/
def valueSub (a b : Word) : Word := a - b
/-- `SLL` (R174). -/
def valueSll (a b : Word) : Word := a <<< shiftAmount b
/-- `SLT` (R175). -/
def valueSlt (a b : Word) : Word := boolWord (lessSigned a b)
/-- `SLTU` (R176). -/
def valueSltu (a b : Word) : Word := boolWord (lessUnsigned a b)
/-- `XOR` (R177). -/
def valueXor (a b : Word) : Word := a ^^^ b
/-- `SRL` (R178). -/
def valueSrl (a b : Word) : Word := a >>> shiftAmount b
/-- `SRA` (R179). -/
def valueSra (a b : Word) : Word := a.sshiftRight (shiftAmount b)
/-- `OR` (R180). -/
def valueOr (a b : Word) : Word := a ||| b
/-- `AND` (R181). -/
def valueAnd (a b : Word) : Word := a &&& b

/-- The value of a computational kind. -/
def ComputeOp.value (op : ComputeOp) (a b imm pc : Word) : Word :=
  match op with
  | .lui => valueLui imm
  | .auipc => valueAuipc pc imm
  | .addi => valueAddi a imm
  | .slti => valueSlti a imm
  | .sltiu => valueSltiu a imm
  | .xori => valueXori a imm
  | .ori => valueOri a imm
  | .andi => valueAndi a imm
  | .slli => valueSlli a imm
  | .srli => valueSrli a imm
  | .srai => valueSrai a imm
  | .add => valueAdd a b
  | .sub => valueSub a b
  | .sll => valueSll a b
  | .slt => valueSlt a b
  | .sltu => valueSltu a b
  | .xor => valueXor a b
  | .srl => valueSrl a b
  | .sra => valueSra a b
  | .or => valueOr a b
  | .and => valueAnd a b

/-! ### Jumps and branches: the redirect signal, a delta from the instruction's own pc (R190) -/

/-- The link value of both jumps, "the instruction's own address plus instruction width" (R191, R192). -/
def linkValue (pc : Word) : Word := pc + fall

/-- `JAL` (R191). -/
def redirectJal (imm : Word) : Word := imm
/-- `JALR` (R192): target `(a + imm) & 0xFFFFFFFE`, as a delta. -/
def redirectJalr (a imm pc : Word) : Word := ((a + imm) &&& 0xFFFFFFFE) - pc

/-- The redirect of a jump. -/
def JumpOp.redirect (op : JumpOp) (a imm pc : Word) : Word :=
  match op with
  | .jal => redirectJal imm
  | .jalr => redirectJalr a imm pc

/-- The condition of a branch (R193 to R198). -/
def BranchOp.cond (op : BranchOp) (a b : Word) : Bool :=
  match op with
  | .beq => condBeq a b
  | .bne => condBne a b
  | .blt => condBlt a b
  | .bge => condBge a b
  | .bltu => condBltu a b
  | .bgeu => condBgeu a b

/-- The redirect of a branch: `imm` if taken, else `FALL` (R189). -/
def BranchOp.redirect (op : BranchOp) (a b imm : Word) : Word := if op.cond a b then imm else fall

/-! ### R154 -/

/-- The register value a launched entry produces, if its kind produces one. -/
def Launched.value (l : Launched) : Option Word :=
  match l.op with
  | .compute op => some (op.value l.a l.b l.imm l.pc)
  | .jump _ => some (linkValue l.pc)
  | .branch _ => none

/-- The redirect signal a launched entry produces, if its kind produces one. -/
def Launched.redirect (l : Launched) : Option Word :=
  match l.op with
  | .compute _ => none
  | .jump op => some (op.redirect l.a l.imm l.pc)
  | .branch op => some (op.redirect l.a l.b l.imm)

/-! ### Loads and stores (R46, R201 to R208) -/

/-- `LB` (R201): sign-extend 8 bits. -/
def extendLb (raw : Word) : Word := (raw.setWidth 8).signExtend 32
/-- `LH` (R202): sign-extend 16 bits. -/
def extendLh (raw : Word) : Word := (raw.setWidth 16).signExtend 32
/-- `LW` (R203): all 32 bits. -/
def extendLw (raw : Word) : Word := raw
/-- `LBU` (R204): zero-extend 8 bits. -/
def extendLbu (raw : Word) : Word := (raw.setWidth 8).setWidth 32
/-- `LHU` (R205): zero-extend 16 bits. -/
def extendLhu (raw : Word) : Word := (raw.setWidth 16).setWidth 32

/-- Bytes a load reads (R46). -/
def LoadOp.width : LoadOp → Nat
  | .lb => 1
  | .lh => 2
  | .lw => 4
  | .lbu => 1
  | .lhu => 2

/-- `extend(op, raw)` (R145). -/
def LoadOp.extend (op : LoadOp) (raw : Word) : Word :=
  match op with
  | .lb => extendLb raw
  | .lh => extendLh raw
  | .lw => extendLw raw
  | .lbu => extendLbu raw
  | .lhu => extendLhu raw

/-- Bytes a store writes (R46). -/
def StoreOp.width : StoreOp → Nat
  | .sb => 1
  | .sh => 2
  | .sw => 4

end Sys2Proof.Machine
end

