-- ==== Sys2Proof/Machine/RobCommit.lean ====
section
/-! DEFINITION. Phase (a), phase (i) and Rollback (spec/42_rob_commit_rollback.md). -/

namespace Sys2Proof.Machine

/-! ### Phase (a): the reorder buffer advances (R120, R121) -/

/-- `applyResult(tag, value)`: a live slot takes the value and becomes ready (R120). -/
def applyResult (rob : Fifo RobEntry) (b : Tag × Word) : Fifo RobEntry :=
  if rob.live b.1 then rob.modify b.1 fun e => { e with value := b.2, ready := true } else rob

/-- The dedicated signal: a live slot takes the redirect and becomes ready (R120). -/
def applySignal (rob : Fifo RobEntry) (b : Tag × Word) : Fifo RobEntry :=
  if rob.live b.1 then rob.modify b.1 fun e => { e with redirect := b.2, ready := true } else rob

/-- Part 1 of phase (a) (R120). -/
def State.robCapture (s : State) : State :=
  { s with rob := s.robSig.foldl applySignal (s.cdb.foldl applyResult s.rob) }

/-- Part 2 of phase (a), `tryCommit` (R121): a ready head is popped into the commit latch. -/
def State.robPop (s : State) : State :=
  match s.rob.front? with
  | some e =>
    if e.ready then { s with commitLatch := some (s.rob.head, e), rob := s.rob.pop } else { s with commitLatch := none }
  | none => { s with commitLatch := none }

/-- Phase (a). -/
def State.phaseA (s : State) : State := s.robCapture.robPop

/-! ### Rollback (R131) -/

/-- `Rollback(target)`: every speculative structure and every latch emptied, `pc <- target`; `x`, memory, `halted`,
`fault` and `cycles` untouched (R131; decision D28). -/
def State.rollback (s : State) (target : Word) : State :=
  { s with
    rst := Vector.replicate 32 { busy := false, tag := 0 }
    fq := []
    rob := s.rob.cleared fun e => { e with ready := false }
    rs := s.rs.map fun e => { e with busy := false }
    lsq := s.lsq.cleared id
    cdb := []
    robSig := []
    lockReq := none
    unlockReq := none
    commitLatch := none
    lsqOut := none
    execLatch := none
    pc := target
    rollbacks := s.rollbacks + 1 }

/-! ### Phase (i): Commit (R123 to R130) -/

/-- Write the destination register and stage its unlock, unless it is register 0 (R127, R128). -/
def State.retireRegister (s : State) (t : Tag) (rd : RegIdx) (v : Word) : State :=
  if rd = 0 then s else { s.writeReg rd v with unlockReq := some (rd, t) }

/-- Roll back to `e.pc + e.redirect` unless the redirect is the fall-through delta (R125, R126, R127). -/
def State.commitRedirect (s : State) (e : RobEntry) : State :=
  if e.redirect = fall then s else s.rollback (e.pc + e.redirect)

/-- Is this load-store-queue entry the store that Commit retires under tag `t` (R129)? -/
def LsqEntry.awaitsMark (t : Tag) (q : LsqEntry) : Bool :=
  match q.op with
  | .store _ => !q.ready && q.dest == t
  | .load _ => false

/-- "Marks the matching load-store-queue entry as safe to perform its memory write" (R129): the oldest live store not
yet marked whose tag is `t`. R129 says it always exists; where it does not, the model faults
(notes/assumptions/9.md). -/
def State.markStore (s : State) (t : Tag) : Host.Outcome State Fault Refusal :=
  match s.lsq.findLive? (LsqEntry.awaitsMark t) with
  | some i => .next { s with lsq := s.lsq.modify i fun q => { q with ready := true } }
  | none => .fault (.storeEntryMissing t)

/-- `x[0] <- 0`, the end of every pass that processed an entry (R130). -/
def State.forceZero (s : State) : State := s.writeReg 0 0

/-- Commit of the entry `e` popped from slot `t`, by its kind (R123 to R129). -/
def State.commitEntry (s : State) (t : Tag) (e : RobEntry) : Host.Outcome State Fault Refusal :=
  match e.op with
  | .halt => .next { s with halted := true }
  | .rs (.branch _) => .next (s.commitRedirect e)
  | .rs (.jump _) => .next ((s.retireRegister t e.rd (linkValue e.pc)).commitRedirect e)
  | .mem (.store _) => s.markStore t
  | .rs (.compute _) => .next (s.retireRegister t e.rd e.value)
  | .mem (.load _) => .next (s.retireRegister t e.rd e.value)

/-- Phase (i) (R123): take the commit latch, commit its entry, force `x[0]` to 0. -/
def State.phaseI (s : State) : Host.Outcome State Fault Refusal :=
  match s.commitLatch with
  | none => .next s
  | some (t, e) =>
    match State.commitEntry { s with commitLatch := none } t e with
    | .next s' => .next s'.forceZero
    | .fault r => .fault r
    | .refused r => .refused r

end Sys2Proof.Machine
end

