-- ==== Sys2Proof/Machine/RsLsqCdb.lean ====
section
/-! DEFINITION. Phase (b), the load-store queue; phase (c), the reservation stations; phase (g), Execute and the bus
arbiter (spec/43_rs_lsq_cdb_execute.md). -/

namespace Sys2Proof.Machine

/-! ### Phase (b): the load-store queue (R143 to R148) -/

/-- Both operands capture from the bus (R143). -/
def LsqEntry.capture (cdb : List (Tag × Word)) (q : LsqEntry) : LsqEntry :=
  { q with o1 := q.o1.captureAll cdb, o2 := q.o2.captureAll cdb }

/-- Part 1 of phase (b): every live entry captures (R143). -/
def State.lsqCapture (s : State) : State := { s with lsq := s.lsq.mapLive (LsqEntry.capture s.cdb) }

/-- A load at the head (R145): read, extend, pop, hand the value to phase (g); or raise, and then nothing is popped. -/
def State.lsqLoad (s : State) (op : LoadOp) (dest : Tag) (ea : Word) : Flow :=
  match memRead s.mem s.memSize ea op.width with
  | none => .ended (s.raise (.memoryAccessError ea))
  | some raw => .running { s with lsq := s.lsq.pop, lsqOut := some (.loadResult dest (op.extend raw)) }

/-- A committed store at the head (R146): write and pop; or raise, and then no byte is written and nothing popped. -/
def State.lsqStore (s : State) (op : StoreOp) (ea data : Word) : Flow :=
  match memWrite s.mem s.memSize ea op.width data with
  | none => .ended (s.raise (.memoryAccessError ea))
  | some m => .running { s with mem := m, lsq := s.lsq.pop }

/-- A store at the head, not yet committed and not yet reported (R147, R148): report once. -/
def State.lsqReport (s : State) (dest : Tag) : State :=
  { s with
    lsq := s.lsq.modify s.lsq.head fun q => { q with reported := true }
    lsqOut := some (.storeReport dest) }

/-- What the head `q` does once both operands are resolved (R144). -/
def State.lsqAct (s : State) (q : LsqEntry) (base data : Word) : Flow :=
  match q.op with
  | .load op => s.lsqLoad op q.dest (effectiveAddress base q.imm)
  | .store op =>
    if q.ready then s.lsqStore op (effectiveAddress base q.imm) data
    else if q.reported then .running s
    else .running (s.lsqReport q.dest)

/-- Part 2 of phase (b), the head's attempt (R144). -/
def State.lsqAttempt (s : State) : Flow :=
  match s.lsq.front? with
  | none => .running s
  | some q =>
    match q.o1, q.o2 with
    | .val base, .val data => s.lsqAct q base data
    | _, _ => .running s

/-- Phase (b). -/
def State.phaseB (s : State) : Flow := State.lsqAttempt { s.lsqCapture with lsqOut := none }

/-! ### Phase (c): the reservation stations (R140, R141) -/

/-- Both operands of a busy entry capture from the bus (R140). -/
def RsEntry.capture (cdb : List (Tag × Word)) (e : RsEntry) : RsEntry :=
  if e.busy then { e with o1 := e.o1.captureAll cdb, o2 := e.o2.captureAll cdb } else e

/-- The launched copy of a busy entry whose operands are both resolved (R141). -/
def RsEntry.launch? (e : RsEntry) : Option Launched :=
  match e.busy, e.o1, e.o2 with
  | true, .val a, .val b => some { op := e.op, a := a, b := b, imm := e.imm, dest := e.dest, pc := e.pc }
  | _, _, _ => none

/-- Take the ready entry of lowest index and free its slot (R141). -/
def launchFirst : List RsEntry → Option Launched × List RsEntry
  | [] => (none, [])
  | e :: rest =>
    match e.launch? with
    | some l => (some l, { e with busy := false } :: rest)
    | none => ((launchFirst rest).1, e :: (launchFirst rest).2)

/-- Part 1 of phase (c) (R140). -/
def State.rsCapture (s : State) : State := { s with rs := s.rs.map (RsEntry.capture s.cdb) }

/-- Part 2 of phase (c) (R141). -/
def State.rsLaunch (s : State) : State :=
  { s with execLatch := (launchFirst s.rs).1, rs := (launchFirst s.rs).2 }

/-- Phase (c). -/
def State.phaseC (s : State) : State := s.rsCapture.rsLaunch

/-! ### Phase (g): Execute and the bus arbiter (R150, R151) -/

/-- What the launched entry puts on `cdb`: its value, if its kind produces one (R151). -/
def Launched.broadcasts (l : Launched) : List (Tag × Word) := l.value.toList.map fun v => (l.dest, v)

/-- What the launched entry puts on `rob_sig`: its redirect, if its kind produces one (R151). -/
def Launched.signals (l : Launched) : List (Tag × Word) := l.redirect.toList.map fun r => (l.dest, r)

/-- What the load-store queue puts on `cdb`: a loaded value (R151). -/
def LsqOut.broadcasts : LsqOut → List (Tag × Word)
  | .loadResult t v => [(t, v)]
  | .storeReport _ => []

/-- What the load-store queue puts on `rob_sig`: a store report, with redirect 0 (R151). -/
def LsqOut.signals : LsqOut → List (Tag × Word)
  | .loadResult _ _ => []
  | .storeReport t => [(t, 0)]

/-- Phase (g) (R150): Execute first, then the load-store queue; both latches cleared. -/
def State.phaseG (s : State) : State :=
  { s with
    cdb := s.cdb ++ s.execLatch.toList.flatMap Launched.broadcasts ++ s.lsqOut.toList.flatMap LsqOut.broadcasts
    robSig := s.robSig ++ s.execLatch.toList.flatMap Launched.signals ++ s.lsqOut.toList.flatMap LsqOut.signals
    execLatch := none
    lsqOut := none }

end Sys2Proof.Machine
end

