-- ==== Sys2Proof/Machine/Sequencer.lean ====
section
/-! DEFINITION. The per-cycle phase sequencer (spec/40_cycle_sequencer.md R80 to R88), cut at the fetch of phase (e):
what a cycle does before it, and what it does after it. A cycle that takes an instruction in is the meaning of that
instruction (notes/assumptions/2.md). -/

namespace Sys2Proof.Machine

/-- `cycles >= MAX_CYCLES`, with a bound set (R224). -/
def State.timeLimitReached (s : State) : Bool :=
  match s.maxCycles with
  | some n => decide (n ≤ s.cycles)
  | none => false

/-- The start of a cycle (R80): a stopped core does nothing, a core at its cycle bound raises, any other counts the
cycle. -/
def State.startCycle (s : State) : Flow :=
  if s.stopped then .ended s
  else if s.timeLimitReached then .ended (s.raise .simulationTimeout)
  else .running { s with cycles := s.cycles + 1 }

/-- A cycle up to its fetch: the start, then phases (a), (b), (c), (d) (R80). -/
def State.beforeFetch (s : State) : Flow :=
  s.startCycle.andThen fun s1 => s1.phaseA.phaseB.andThen fun s2 => .running s2.phaseC.phaseD

/-- Phase (f), the swap point (R83): the four latches consumed in this cycle are cleared. -/
def State.phaseF (s : State) : State := { s with cdb := [], robSig := [], lockReq := none, unlockReq := none }

/-- A cycle after its fetch: phases (f), (g), (h), (i) (R80). -/
def State.afterFetch (s : State) : Host.Outcome State Fault Refusal := s.phaseF.phaseG.phaseH.phaseI

/-- The clock cycle in which the fetch unit takes in the record `r` (R80, R101): the phases before the fetch, the
record into the fetch queue, the phases after it. A cycle that ends before its fetch takes nothing in. -/
def State.takeIn (s : State) (r : Record) : Host.Outcome State Fault Refusal :=
  match s.beforeFetch with
  | .ended s' => .next s'
  | .running s' => (s'.enqueue r).afterFetch

/-- The record the decoder hands to Fetch (R27, R60); Fetch attaches the pc (`State.enqueue`). -/
def decodedRecord (op : OpKind) (rd rs1 rs2 : RegIdx) (imm : Word) : Record :=
  { op := op, rd := rd, rs1 := rs1, rs2 := rs2, imm := imm, pc := 0 }

/-- A clock cycle as far as it goes without an instruction. -/
inductive CycleStart where
  /-- The cycle is over, and no instruction was taken in. -/
  | done (o : Host.Outcome State Fault Refusal)
  /-- The fetch unit read this instruction. -/
  | took (i : Instr)
  deriving Repr

/-- Run a cycle up to its fetch and, where no instruction comes of it, to its end: a cycle that ended early (R223 to
R225), a full fetch queue (R100), a fetch that raises (R47), an undecodable word (R102). -/
def State.cycleStart (s : State) : CycleStart :=
  match s.beforeFetch with
  | .ended s' => .done (.next s')
  | .running s' =>
    match s'.fetch with
    | .queueFull => .done s'.afterFetch
    | .undecodable _ => .done s'.afterFetch
    | .outOfRange => .done (.next (s'.raise (.memoryAccessError s'.pc)))
    | .instr i => .took i

/-! ### Outputs at the core's boundary (R33) -/

/-- `exit_code`, the low byte of the result register (R33). -/
def State.exitCode (s : State) : Byte := (s.readReg resultReg).extractLsb' 0 8

/-- The `decode_error` output during the cycle that starts in `s`: a fetch was attempted and did not decode (R222). -/
def State.decodeError (s : State) : Bool :=
  match s.beforeFetch with
  | .ended _ => false
  | .running s' =>
    match s'.fetch with
    | .undecodable _ => true
    | .queueFull | .outOfRange | .instr _ => false

/-- The host asserts `rst` and loads `image` (R240, R241). Of the old state only the parameters, which are fixed for
the machine, remain (R236). -/
def State.assertRst (s : State) (image : Memory) : State :=
  State.resetWith
    { nRob := s.rob.capacity, nRs := s.rs.length, nLsq := s.lsq.capacity, nFq := s.fqCap, memSize := s.memSize,
      maxCycles := s.maxCycles }
    image

/-- Store a word at the fetch pc, where the next cycle's fetch reads it; where the four bytes are not all in memory,
nothing is stored. -/
def State.placeWord (s : State) (w : Word) : State :=
  match memWrite s.mem s.memSize s.pc 4 w with
  | some m => { s with mem := m }
  | none => s

end Sys2Proof.Machine
end

