-- ==== Sys2Proof/Machine/ControlTransfer.lean ====
section
/-! DEFINITION. The meanings of the jumps and branches (spec/45_control_transfer.md): for each, the clock cycle in which
the fetch unit takes it in. Its redirect signal is `Machine/Execute.lean`'s (R190), and Commit acts on it
(`Machine/RobCommit.lean`, R125 to R127). -/

namespace Sys2Proof.Machine

/-! ### Jumps -/

/-- `JAL` (R191): `x[rd] <- pc + 4; next instruction at pc + imm`. -/
def execJal (rd : RegIdx) (offset : BitVec 21) (s : State) : Host.Outcome State Fault Refusal :=
  s.takeIn (
    decodedRecord (.rs (.jump .jal)) rd (offset.extractLsb' 15 5) (offset.extractLsb' 1 4 ++ offset.extractLsb' 11 1)
      (immJ offset))

/-- `JALR` (R192): `t <- (x[rs1] + imm) & ~1; x[rd] <- pc + 4; next instruction at t`. -/
def execJalr (rd rs1 : RegIdx) (imm : BitVec 12) (s : State) : Host.Outcome State Fault Refusal :=
  s.takeIn (decodedRecord (.rs (.jump .jalr)) rd rs1 (imm.extractLsb' 0 5) (immI imm))

/-! ### Branches (B format, R189): `w[11:7]`, the record's `rd`, is part of the offset -/

/-- `BEQ` (R193): `next instruction at pc + imm if a = b else at pc + 4`. -/
def execBeq (rs1 rs2 : RegIdx) (offset : BitVec 13) (s : State) : Host.Outcome State Fault Refusal :=
  s.takeIn (
    decodedRecord (.rs (.branch .beq)) (offset.extractLsb' 1 4 ++ offset.extractLsb' 11 1) rs1 rs2 (immB offset))

/-- `BNE` (R194): `next instruction at pc + imm if a != b else at pc + 4`. -/
def execBne (rs1 rs2 : RegIdx) (offset : BitVec 13) (s : State) : Host.Outcome State Fault Refusal :=
  s.takeIn (
    decodedRecord (.rs (.branch .bne)) (offset.extractLsb' 1 4 ++ offset.extractLsb' 11 1) rs1 rs2 (immB offset))

/-- `BLT` (R195): `next instruction at pc + imm if s(a) < s(b) else at pc + 4`. -/
def execBlt (rs1 rs2 : RegIdx) (offset : BitVec 13) (s : State) : Host.Outcome State Fault Refusal :=
  s.takeIn (
    decodedRecord (.rs (.branch .blt)) (offset.extractLsb' 1 4 ++ offset.extractLsb' 11 1) rs1 rs2 (immB offset))

/-- `BGE` (R196): `next instruction at pc + imm if s(a) >= s(b) else at pc + 4`. -/
def execBge (rs1 rs2 : RegIdx) (offset : BitVec 13) (s : State) : Host.Outcome State Fault Refusal :=
  s.takeIn (
    decodedRecord (.rs (.branch .bge)) (offset.extractLsb' 1 4 ++ offset.extractLsb' 11 1) rs1 rs2 (immB offset))

/-- `BLTU` (R197): `next instruction at pc + imm if u(a) < u(b) else at pc + 4`. -/
def execBltu (rs1 rs2 : RegIdx) (offset : BitVec 13) (s : State) : Host.Outcome State Fault Refusal :=
  s.takeIn (
    decodedRecord (.rs (.branch .bltu)) (offset.extractLsb' 1 4 ++ offset.extractLsb' 11 1) rs1 rs2 (immB offset))

/-- `BGEU` (R198): `next instruction at pc + imm if u(a) >= u(b) else at pc + 4`. -/
def execBgeu (rs1 rs2 : RegIdx) (offset : BitVec 13) (s : State) : Host.Outcome State Fault Refusal :=
  s.takeIn (
    decodedRecord (.rs (.branch .bgeu)) (offset.extractLsb' 1 4 ++ offset.extractLsb' 11 1) rs1 rs2 (immB offset))

end Sys2Proof.Machine
end

