-- ==== Sys2Proof/Machine/Halt.lean ====
section
/-! DEFINITION. The meaning of `HALT` (spec/47_halt.md R210): the clock cycle in which the fetch unit takes it in. It
goes to the reorder buffer only, ready from the start, and Commit sets `halted`
(`Machine/FetchDispatch.lean`, `Machine/RobCommit.lean`). -/

namespace Sys2Proof.Machine

/-- `HALT` (R210): the record has `rd = rs1 = rs2 = 0`, `imm = 0`. -/
def execHalt (s : State) : Host.Outcome State Fault Refusal := s.takeIn (decodedRecord .halt 0 0 0 0)

end Sys2Proof.Machine
end

