-- ==== Sys2Proof/Machine/IntCompute.lean ====
section
/-! DEFINITION. The meanings of the 21 computational instructions (spec/44_int_compute.md): for each, the clock cycle in
which the fetch unit takes it in, with the record its word decodes to (spec/30_encoding.md R60: all three register
fields as extracted, used or not). The value it computes when it is launched is `Machine/Execute.lean`'s `value…` of the
same name; its path from there is the phases' (R160). -/

namespace Sys2Proof.Machine

/-! ### Upper-immediate (U format) -/

/-- `LUI` (R161): `x[rd] <- imm`. -/
def execLui (rd : RegIdx) (imm : BitVec 20) (s : State) : Host.Outcome State Fault Refusal :=
  s.takeIn (decodedRecord (.rs (.compute .lui)) rd (imm.extractLsb' 3 5) (imm.extractLsb' 8 5) (immU imm))

/-- `AUIPC` (R162): `x[rd] <- pc + imm`. -/
def execAuipc (rd : RegIdx) (imm : BitVec 20) (s : State) : Host.Outcome State Fault Refusal :=
  s.takeIn (decodedRecord (.rs (.compute .auipc)) rd (imm.extractLsb' 3 5) (imm.extractLsb' 8 5) (immU imm))

/-! ### Immediate-arithmetic (I format, R183) -/

/-- `ADDI` (R163): `x[rd] <- a + imm`. -/
def execAddi (rd rs1 : RegIdx) (imm : BitVec 12) (s : State) : Host.Outcome State Fault Refusal :=
  s.takeIn (decodedRecord (.rs (.compute .addi)) rd rs1 (imm.extractLsb' 0 5) (immI imm))

/-- `SLTI` (R164): `x[rd] <- 1 if s(a) < s(imm) else 0`. -/
def execSlti (rd rs1 : RegIdx) (imm : BitVec 12) (s : State) : Host.Outcome State Fault Refusal :=
  s.takeIn (decodedRecord (.rs (.compute .slti)) rd rs1 (imm.extractLsb' 0 5) (immI imm))

/-- `SLTIU` (R165): `x[rd] <- 1 if u(a) < u(imm) else 0`. -/
def execSltiu (rd rs1 : RegIdx) (imm : BitVec 12) (s : State) : Host.Outcome State Fault Refusal :=
  s.takeIn (decodedRecord (.rs (.compute .sltiu)) rd rs1 (imm.extractLsb' 0 5) (immI imm))

/-- `XORI` (R166): `x[rd] <- a ^ imm`. -/
def execXori (rd rs1 : RegIdx) (imm : BitVec 12) (s : State) : Host.Outcome State Fault Refusal :=
  s.takeIn (decodedRecord (.rs (.compute .xori)) rd rs1 (imm.extractLsb' 0 5) (immI imm))

/-- `ORI` (R167): `x[rd] <- a | imm`. -/
def execOri (rd rs1 : RegIdx) (imm : BitVec 12) (s : State) : Host.Outcome State Fault Refusal :=
  s.takeIn (decodedRecord (.rs (.compute .ori)) rd rs1 (imm.extractLsb' 0 5) (immI imm))

/-- `ANDI` (R168): `x[rd] <- a & imm`. -/
def execAndi (rd rs1 : RegIdx) (imm : BitVec 12) (s : State) : Host.Outcome State Fault Refusal :=
  s.takeIn (decodedRecord (.rs (.compute .andi)) rd rs1 (imm.extractLsb' 0 5) (immI imm))

/-- `SLLI` (R169): `x[rd] <- a << imm[4:0]`. -/
def execSlli (rd rs1 : RegIdx) (shamt : BitVec 5) (s : State) : Host.Outcome State Fault Refusal :=
  s.takeIn (decodedRecord (.rs (.compute .slli)) rd rs1 shamt (immShamt shamt))

/-- `SRLI` (R170): `x[rd] <- a >>u imm[4:0]`. -/
def execSrli (rd rs1 : RegIdx) (shamt : BitVec 5) (s : State) : Host.Outcome State Fault Refusal :=
  s.takeIn (decodedRecord (.rs (.compute .srli)) rd rs1 shamt (immShamt shamt))

/-- `SRAI` (R171): `x[rd] <- a >>s imm[4:0]`. -/
def execSrai (rd rs1 : RegIdx) (shamt : BitVec 5) (s : State) : Host.Outcome State Fault Refusal :=
  s.takeIn (decodedRecord (.rs (.compute .srai)) rd rs1 shamt (immShamt shamt))

/-! ### Register-arithmetic (R format, R184) -/

/-- `ADD` (R172): `x[rd] <- a + b`. -/
def execAdd (rd rs1 rs2 : RegIdx) (s : State) : Host.Outcome State Fault Refusal :=
  s.takeIn (decodedRecord (.rs (.compute .add)) rd rs1 rs2 0)

/-- `SUB` (R173): `x[rd] <- a - b`. -/
def execSub (rd rs1 rs2 : RegIdx) (s : State) : Host.Outcome State Fault Refusal :=
  s.takeIn (decodedRecord (.rs (.compute .sub)) rd rs1 rs2 0)

/-- `SLL` (R174): `x[rd] <- a << b[4:0]`. -/
def execSll (rd rs1 rs2 : RegIdx) (s : State) : Host.Outcome State Fault Refusal :=
  s.takeIn (decodedRecord (.rs (.compute .sll)) rd rs1 rs2 0)

/-- `SLT` (R175): `x[rd] <- 1 if s(a) < s(b) else 0`. -/
def execSlt (rd rs1 rs2 : RegIdx) (s : State) : Host.Outcome State Fault Refusal :=
  s.takeIn (decodedRecord (.rs (.compute .slt)) rd rs1 rs2 0)

/-- `SLTU` (R176): `x[rd] <- 1 if u(a) < u(b) else 0`. -/
def execSltu (rd rs1 rs2 : RegIdx) (s : State) : Host.Outcome State Fault Refusal :=
  s.takeIn (decodedRecord (.rs (.compute .sltu)) rd rs1 rs2 0)

/-- `XOR` (R177): `x[rd] <- a ^ b`. -/
def execXor (rd rs1 rs2 : RegIdx) (s : State) : Host.Outcome State Fault Refusal :=
  s.takeIn (decodedRecord (.rs (.compute .xor)) rd rs1 rs2 0)

/-- `SRL` (R178): `x[rd] <- a >>u b[4:0]`. -/
def execSrl (rd rs1 rs2 : RegIdx) (s : State) : Host.Outcome State Fault Refusal :=
  s.takeIn (decodedRecord (.rs (.compute .srl)) rd rs1 rs2 0)

/-- `SRA` (R179): `x[rd] <- a >>s b[4:0]`. -/
def execSra (rd rs1 rs2 : RegIdx) (s : State) : Host.Outcome State Fault Refusal :=
  s.takeIn (decodedRecord (.rs (.compute .sra)) rd rs1 rs2 0)

/-- `OR` (R180): `x[rd] <- a | b`. -/
def execOr (rd rs1 rs2 : RegIdx) (s : State) : Host.Outcome State Fault Refusal :=
  s.takeIn (decodedRecord (.rs (.compute .or)) rd rs1 rs2 0)

/-- `AND` (R181): `x[rd] <- a & b`. -/
def execAnd (rd rs1 rs2 : RegIdx) (s : State) : Host.Outcome State Fault Refusal :=
  s.takeIn (decodedRecord (.rs (.compute .and)) rd rs1 rs2 0)

end Sys2Proof.Machine
end

