-- ==== Sys2Proof/Machine/LoadStore.lean ====
section
/-! DEFINITION. The meanings of the loads and stores (spec/46_load_store.md): for each, the clock cycle in which the
fetch unit takes it in. Its memory access is the load-store queue's (`Machine/RsLsqCdb.lean`, R144 to R148), with the
width and extension of `Machine/Execute.lean`. -/

namespace Sys2Proof.Machine

/-! ### Loads (I format) -/

/-- `LB` (R201): `x[rd] <- sext_8(MemRead(EA, 1))`. -/
def execLb (rd rs1 : RegIdx) (imm : BitVec 12) (s : State) : Host.Outcome State Fault Refusal :=
  s.takeIn (decodedRecord (.mem (.load .lb)) rd rs1 (imm.extractLsb' 0 5) (immI imm))

/-- `LH` (R202): `x[rd] <- sext_16(MemRead(EA, 2))`. -/
def execLh (rd rs1 : RegIdx) (imm : BitVec 12) (s : State) : Host.Outcome State Fault Refusal :=
  s.takeIn (decodedRecord (.mem (.load .lh)) rd rs1 (imm.extractLsb' 0 5) (immI imm))

/-- `LW` (R203): `x[rd] <- MemRead(EA, 4)`. -/
def execLw (rd rs1 : RegIdx) (imm : BitVec 12) (s : State) : Host.Outcome State Fault Refusal :=
  s.takeIn (decodedRecord (.mem (.load .lw)) rd rs1 (imm.extractLsb' 0 5) (immI imm))

/-- `LBU` (R204): `x[rd] <- zext_8(MemRead(EA, 1))`. -/
def execLbu (rd rs1 : RegIdx) (imm : BitVec 12) (s : State) : Host.Outcome State Fault Refusal :=
  s.takeIn (decodedRecord (.mem (.load .lbu)) rd rs1 (imm.extractLsb' 0 5) (immI imm))

/-- `LHU` (R205): `x[rd] <- zext_16(MemRead(EA, 2))`. -/
def execLhu (rd rs1 : RegIdx) (imm : BitVec 12) (s : State) : Host.Outcome State Fault Refusal :=
  s.takeIn (decodedRecord (.mem (.load .lhu)) rd rs1 (imm.extractLsb' 0 5) (immI imm))

/-! ### Stores (S format): `w[11:7]`, the record's `rd`, is part of the immediate -/

/-- `SB` (R206): `MemWrite(EA, 1, b[7:0])`. -/
def execSb (rs2 rs1 : RegIdx) (imm : BitVec 12) (s : State) : Host.Outcome State Fault Refusal :=
  s.takeIn (decodedRecord (.mem (.store .sb)) (imm.extractLsb' 0 5) rs1 rs2 (immS imm))

/-- `SH` (R207): `MemWrite(EA, 2, b[15:0])`. -/
def execSh (rs2 rs1 : RegIdx) (imm : BitVec 12) (s : State) : Host.Outcome State Fault Refusal :=
  s.takeIn (decodedRecord (.mem (.store .sh)) (imm.extractLsb' 0 5) rs1 rs2 (immS imm))

/-- `SW` (R208): `MemWrite(EA, 4, b)`. -/
def execSw (rs2 rs1 : RegIdx) (imm : BitVec 12) (s : State) : Host.Outcome State Fault Refusal :=
  s.takeIn (decodedRecord (.mem (.store .sw)) (imm.extractLsb' 0 5) rs1 rs2 (immS imm))

end Sys2Proof.Machine
end

