-- ==== Sys2Proof/Machine/Step.lean ====
section
/-! DEFINITION. The step: one clock cycle (spec/40_cycle_sequencer.md R80). -/

namespace Sys2Proof.Machine

/-- One clock cycle: where the cycle's fetch reads an instruction, the cycle is that instruction's meaning. -/
def step (s : State) : Host.Outcome State Fault Refusal :=
  match s.cycleStart with
  | .done o => o
  | .took i => exec i s

/-- `s` with an instruction stored where the next cycle fetches: the word at `pc`, its bits above `nbits` zero
(notes/assumptions/12.md). -/
def State.withFetchWord (s : State) (nbits w : Nat) : State := s.placeWord (BitVec.ofNat 32 (w % 2 ^ nbits))

end Sys2Proof.Machine
end

