-- ==== Sys2Proof/Machine/Loader.lean ====
section
/-! DEFINITION. The program loader (spec/70_reset_and_hazards.md R243): how image text becomes the memory the core finds
at reset. It is an external collaborator (R4): no step calls it. -/

namespace Sys2Proof.Machine

/-- A token of an image: a load address, or one byte. -/
inductive ImageToken where
  | address (a : Nat)
  | byte (b : Byte)
  deriving DecidableEq, Repr

/-- The value of a hexadecimal digit, in either case (notes/assumptions/18.md). -/
def hexDigit (c : Char) : Option Nat :=
  if '0' ≤ c ∧ c ≤ '9' then some (c.toNat - '0'.toNat)
  else if 'a' ≤ c ∧ c ≤ 'f' then some (c.toNat - 'a'.toNat + 10)
  else if 'A' ≤ c ∧ c ≤ 'F' then some (c.toNat - 'A'.toNat + 10)
  else none

/-- Append hexadecimal digits to a number. -/
def hexDigits (acc : Nat) : List Char → Option Nat
  | [] => some acc
  | c :: cs => (hexDigit c).bind fun d => hexDigits (16 * acc + d) cs

/-- A hexadecimal number without prefix, at least one digit (decision D32). -/
def hexNumber : List Char → Option Nat
  | [] => none
  | c :: cs => hexDigits 0 (c :: cs)

/-- One token (R243): `@` and an address, or a byte `00..FF`; none for malformed text (notes/assumptions/18.md). -/
def parseToken : List Char → Option ImageToken
  | '@' :: cs => (hexNumber cs).map .address
  | cs => (hexNumber cs).bind fun n => if n < 256 then some (.byte (BitVec.ofNat 8 n)) else none

/-- Split at white space, the word so far in `word`. -/
def splitWords (word : List Char) : List Char → List (List Char)
  | [] => if word = [] then [] else [word]
  | c :: cs =>
    if c.isWhitespace then (if word = [] then splitWords [] cs else word :: splitWords [] cs)
    else splitWords (word ++ [c]) cs

/-- Parse every word, or none. -/
def parseWords : List (List Char) → Option (List ImageToken)
  | [] => some []
  | w :: ws => (parseToken w).bind fun t => (parseWords ws).map (t :: ·)

/-- The tokens of an image text (R243). -/
def parseImage (text : String) : Option (List ImageToken) := parseWords (splitWords [] text.toList)

/-- Load tokens from the address cursor (R243): a byte outside the memory is the loader's error, none (decision D32). -/
def loadTokens (memSize : Nat) : List ImageToken → (cursor : Nat) → Memory → Option Memory
  | [], _, m => some m
  | .address a :: ts, _, m => loadTokens memSize ts a m
  | .byte b :: ts, cursor, m => if cursor < memSize then loadTokens memSize ts (cursor + 1) (m.write cursor b) else none

/-- The memory at reset: the image over zero bytes, the cursor starting at 0 (R243). -/
def loadImage (memSize : Nat) (text : String) : Option Memory :=
  (parseImage text).bind fun ts => loadTokens memSize ts 0 []

/-- The machine right after reset with the image of `text` loaded (R241); none if the loader rejects the text. -/
def bootImage (c : Config) (text : String) : Option State := (loadImage c.memSize text).map (State.resetWith c)

end Sys2Proof.Machine
end

