-- ==== Sys2Proof/Safety.lean ====
section
/-! DEFINITION. The words the claims use: a core with nothing in flight, room to run, what it is for an instruction to
complete, and the invariants of the registered state (spec/10_state.md R28, R32). -/

namespace Sys2Proof.Machine

/-! ### Nothing in flight -/

/-- The core runs and nothing is in flight: every queue, station and latch empty, no register renamed, `x[0]` zero. This
is what reset (R240) and Rollback (R131) leave, with room for one instruction in every structure. -/
structure Quiet (s : State) : Prop where
  running : s.stopped = false
  zero : s.readReg 0 = 0
  robEmpty : s.rob.count = 0
  robHead : s.rob.head < s.rob.capacity
  rsFree : ∀ e ∈ s.rs, e.busy = false
  rsSome : s.rs ≠ []
  lsqEmpty : s.lsq.count = 0
  lsqHead : s.lsq.head < s.lsq.capacity
  fqEmpty : s.fq = []
  fqCap : 0 < s.fqCap
  cdb : s.cdb = []
  robSig : s.robSig = []
  lockReq : s.lockReq = none
  unlockReq : s.unlockReq = none
  commitLatch : s.commitLatch = none
  lsqOut : s.lsqOut = none
  execLatch : s.execLatch = none
  rstFree : ∀ r : RegIdx, (s.readRst r).busy = false

/-- The cycle bound leaves time for `k` more cycles (R224). -/
def TimeFor (k : Nat) (s : State) : Prop := ∀ n, s.maxCycles = some n → s.cycles + k ≤ n

/-- The `k` words from the fetch pc on lie in memory, so that the run-ahead of fetch does not fault (R254). -/
def FetchRoom (k : Nat) (s : State) : Prop := s.pc.toNat + 4 * k ≤ s.memSize

/-- The instruction is a load. -/
def isLoad : Instr → Bool
  | .lb _ _ _ | .lh _ _ _ | .lw _ _ _ | .lbu _ _ _ | .lhu _ _ _ => true
  | _ => false

/-- The word after the one at the fetch pc does not decode to a load, which could fault on the wrong path (R251). -/
def NoLoadNext (s : State) : Prop :=
  ∀ w i, memRead s.mem s.memSize (s.pc + fall) 4 = some w → decode w = .ok i → isLoad i = false

/-- Nothing in flight, and time and memory for `k` cycles. -/
def RunsAhead (k : Nat) (s : State) : Prop := Quiet s ∧ TimeFor k s ∧ FetchRoom k s

/-- Instruction `i`, taken in by a cycle that starts in `s` (which answers a next state), has run its course after `k`
more cycles (which answer next states), in state `u`. -/
def CompletesIn (k : Nat) (i : Instr) (s u : State) : Prop :=
  ∃ t, exec i s = .next t ∧ core.run k t = .next u

/-- The architectural state of `u` is that of `s` but for register `rd`, which holds `v`, unless `rd` is register 0, which
discards it (R11, R128). -/
structure Wrote (s u : State) (rd : RegIdx) (v : Word) : Prop where
  regs : ∀ r, u.readReg r = if r = rd ∧ rd ≠ 0 then v else s.readReg r
  mem : u.mem = s.mem
  halted : u.halted = s.halted
  fault : u.fault = s.fault
  faultAddr : u.faultAddr = s.faultAddr

/-- Control has gone to `target`: the pc is `target`; where that is not the address after `s.pc`, it went there by one
Rollback, which leaves nothing in flight (R126, R131); where it is, there was no Rollback and fetch has run ahead. -/
def WentTo (s u : State) (target : Word) : Prop :=
  if target = s.pc + fall then u.rollbacks = s.rollbacks
  else u.pc = target ∧ u.rollbacks = s.rollbacks + 1 ∧ Quiet u

/-! ### What a cycle commits and stores -/

/-- The state in which phase (b) of a cycle makes its attempt: the cycle counted, phase (a) done, the queue's captures
done (R82). -/
def State.atAttempt (s : State) : State :=
  { (State.phaseA { s with cycles := s.cycles + 1 }).lsqCapture with lsqOut := none }

/-- The entry phase (a) of a cycle pops, which phase (i) commits (R121, R123). -/
def State.commits (s : State) : Option (Tag × RobEntry) := s.atAttempt.commitLatch

/-- The bytes phase (b) of a cycle may store to, address and width: those of a committed store at the head of the
load-store queue (R146). A cycle stores to no others. -/
def State.storesTo (s : State) : Option (Word × Nat) :=
  match s.atAttempt.lsq.front? with
  | none => none
  | some q =>
    match q.op, q.o1, q.o2 with
    | .store op, .val base, .val _ => if q.ready then some (effectiveAddress base q.imm, op.width) else none
    | _, _, _ => none

/-! ### Invariants -/

/-- What holds of a core whether it runs or is stopped: register 0 reads 0 (R11); the memory is in its canonical form and
lists no address outside `0 .. MEM_SIZE-1` (R16, R40); a core that has halted has not faulted. -/
structure Always (s : State) : Prop where
  zero : s.readReg 0 = 0
  memWf : s.mem.wf
  memRange : ∀ c ∈ s.mem, c.1 < s.memSize
  haltedClean : s.halted = true → s.fault = .none

/-- The shape of the structures between two cycles: heads and counts in range (R19, R25), the fetch queue within its
capacity (R26), at most two results on each bus and nothing in the latches that live inside a cycle (R28), no lock, no
unlock and no busy entry for register 0 (R17, R110, R128). -/
structure Shape (s : State) : Prop where
  robHead : s.rob.head < s.rob.capacity
  robCount : s.rob.count ≤ s.rob.capacity
  lsqHead : s.lsq.head < s.lsq.capacity
  lsqCount : s.lsq.count ≤ s.lsq.capacity
  fq : s.fq.length ≤ s.fqCap
  cdb : s.cdb.length ≤ 2
  robSig : s.robSig.length ≤ 2
  commitLatch : s.commitLatch = none
  lsqOut : s.lsqOut = none
  execLatch : s.execLatch = none
  lock : ∀ r t, s.lockReq = some (r, t) → r ≠ 0
  unlock : ∀ r t, s.unlockReq = some (r, t) → r ≠ 0
  rstZero : (s.readRst 0).busy = false

/-- The invariant of the state between two cycles. A cycle that raises ends inside (R223), so the shape is claimed of a
core that has not faulted. -/
def Inv (s : State) : Prop := Always s ∧ (s.fault = .none → Shape s)

/-- Every live reorder-buffer slot that holds a store has its live load-store-queue entry, not yet marked (R32 item 1,
for stores): what makes R129's "The matching entry always exists" true. -/
def StoreLinked (s : State) : Prop :=
  ∀ t e op, s.rob.live t = true → s.rob.slots[t]? = some e → e.op = .mem (.store op) →
    ∃ i q, s.lsq.live i = true ∧ s.lsq.slots[i]? = some q ∧ q.awaitsMark t = true

/-! ### What links the structures (R32 items 1 and 3 to 6) -/

/-- Reorder-buffer slot `t` is live and its entry satisfies `p` (R21). -/
def State.HasSlot (s : State) (t : Tag) (p : RobEntry → Prop) : Prop :=
  s.rob.live t = true ∧ ∃ e, s.rob.slots[t]? = some e ∧ p e

/-- One of the two buses carries a result for tag `t`. -/
def State.OnBus (s : State) (t : Tag) : Prop := t ∈ s.cdb.map Prod.fst ∨ t ∈ s.robSig.map Prod.fst

/-- Load-store-queue slot `i` is live and holds the entry `q`. -/
def State.HasQueued (s : State) (i : Nat) (q : LsqEntry) : Prop := s.lsq.live i = true ∧ s.lsq.slots[i]? = some q

/-- Every entry in flight has a reorder-buffer slot of its own, every slot still to be produced has its entry or its
result on a bus, and what is on a bus names live slots, each once (R32 items 1, 5 and 6; R153). A committed store has no
slot any more, so item 1 is claimed of the entries not marked (notes/assumptions/14.md). -/
structure TagsLinked (s : State) : Prop where
  /-- A busy station's slot is live, of the same kind, not ready, its result on no bus (item 1). -/
  station : ∀ e ∈ s.rs, e.busy = true →
    s.HasSlot e.dest (fun r => r.op = .rs e.op ∧ r.ready = false) ∧ ¬ s.OnBus e.dest
  /-- The slot of a queue entry not marked is live and of the same kind (item 1). -/
  queued : ∀ i q, s.HasQueued i q → q.ready = false → s.HasSlot q.dest fun r => r.op = .mem q.op
  /-- Until the entry reports or broadcasts, its slot is not ready and its result is on no bus. -/
  pending : ∀ i q, s.HasQueued i q → q.ready = false → q.reported = false →
    s.HasSlot q.dest (fun r => r.ready = false) ∧ ¬ s.OnBus q.dest
  /-- Different stations name different slots (item 1; by kind, no station shares one with a queue entry). -/
  stationsApart : ∀ (i j : Nat) (d e : RsEntry), s.rs[i]? = some d → s.rs[j]? = some e →
    d.busy = true → e.busy = true → d.dest = e.dest → i = j
  /-- Different queue entries not marked name different slots (item 1). -/
  queuedApart : ∀ (i j : Nat) (p q : LsqEntry), s.HasQueued i p → s.HasQueued j q →
    p.ready = false → q.ready = false → p.dest = q.dest → i = j
  /-- A slot not ready, `HALT` apart, has its station or queue entry yet to produce, or its result is on a bus (item 1). -/
  produced : ∀ t, s.HasSlot t (fun r => r.op ≠ .halt ∧ r.ready = false) →
    s.OnBus t ∨ (∃ e ∈ s.rs, e.busy = true ∧ e.dest = t) ∨
      ∃ i q, s.HasQueued i q ∧ q.ready = false ∧ q.reported = false ∧ q.dest = t
  /-- An entry that has reported or is marked is a store, at the head, its operands resolved (item 5). -/
  headOnly : ∀ i q, s.HasQueued i q → q.reported = true ∨ q.ready = true →
    i = s.lsq.head ∧ (∃ op, q.op = .store op) ∧ ∃ base data, q.o1 = .val base ∧ q.o2 = .val data
  /-- Until it is marked, a store that has reported has its slot ready, or its report is on `rob_sig`. -/
  reported : ∀ i q, s.HasQueued i q → q.reported = true → q.ready = false →
    s.HasSlot q.dest (fun r => r.ready = true) ∨ q.dest ∈ s.robSig.map Prod.fst
  /-- A store's slot that is ready, or whose report is on `rob_sig`, has its reported entry (R129). -/
  signalled : ∀ t op, s.HasSlot t (fun r => r.op = .mem (.store op) ∧ (r.ready = true ∨ s.OnBus t)) →
    ∃ i q, s.HasQueued i q ∧ q.reported = true ∧ q.ready = false ∧ q.dest = t
  /-- `cdb` names live slots, not ready, of kinds that write a register (item 6, R151). -/
  cdbLive : ∀ t ∈ s.cdb.map Prod.fst, s.HasSlot t fun r => r.ready = false ∧ r.op.writesRegister = true
  /-- `rob_sig` names live slots, not ready, of control-flow kinds and stores; a jump's link is on `cdb` then (R151). -/
  sigLive : ∀ t ∈ s.robSig.map Prod.fst, s.HasSlot t fun r => r.ready = false ∧
    (r.op.isControlFlow = true ∨ ∃ op, r.op = .mem (.store op)) ∧ (r.op.writesRegister = true → t ∈ s.cdb.map Prod.fst)
  /-- The tags in `cdb` are distinct (item 6, R153). -/
  cdbDistinct : (s.cdb.map Prod.fst).Nodup
  /-- The tags in `rob_sig` are distinct (R153). -/
  sigDistinct : (s.robSig.map Prod.fst).Nodup

/-- No operand waits for a broadcast that has passed, and the renaming table names producers still in flight (R32 items 3
and 4, R152). -/
structure OperandsLinked (s : State) : Prop where
  /-- A busy register's tag names a live slot of an instruction that writes it, or that instruction has just committed and
  its unlock is staged (item 3). -/
  renamed : ∀ r, (s.readRst r).busy = true →
    s.HasSlot (s.readRst r).tag (fun e => e.rd = r ∧ e.op.writesRegister = true) ∨
      s.unlockReq = some (r, (s.readRst r).tag)
  /-- A staged lock names a live slot, not ready, of an instruction that writes the register. -/
  locked : ∀ r t, s.lockReq = some (r, t) →
    s.HasSlot t (fun e => e.ready = false ∧ e.rd = r ∧ e.op.writesRegister = true) ∧ ¬ s.OnBus t
  /-- A busy station's operand waits for a live slot that writes a register and is not ready (item 4). -/
  stations : ∀ e ∈ s.rs, e.busy = true → ∀ t, e.o1 = .tag t ∨ e.o2 = .tag t →
    s.HasSlot t fun r => r.ready = false ∧ r.op.writesRegister = true
  /-- So does a queue entry's (item 4). -/
  queued : ∀ i q, s.HasQueued i q → ∀ t, q.o1 = .tag t ∨ q.o2 = .tag t →
    s.HasSlot t fun r => r.ready = false ∧ r.op.writesRegister = true

end Sys2Proof.Machine
end

