-- ==== Sys2Proof/Certificates/Slice0/Obligations.lean ====
section
/-! DEFINITION. The statements for the provers, rule by rule. "Next state" is `Host.Outcome.next`; a statement that rests
on a choice of the model names the log entry. -/

open Sys2Proof Sys2Proof.Machine

/-! ### Encoding (spec/30_encoding.md): the spec's tables, which it takes from RV32I (notes/assumptions/5.md) -/

/-- The decoder undoes the encoder on every well-formed instruction, on the word (R60, R63 to R73) and on its bytes in
memory order (R41, R62). -/
def Obligations.DecodeEncodeRoundTrip : Prop :=
  ∀ i : Instr, i.wellFormed = true →
    decode (encode i) = .ok i ∧ ∀ rest, decodeBytes (bytesOfWord (encode i) ++ rest) = .ok (i, rest)

/-- What the decoder answers is a well-formed instruction: an even offset (R65), never the halt pattern as an `ADDI`
(R73). -/
def Obligations.DecodedIsWellFormed : Prop :=
  ∀ (w : Word) (i : Instr), decode w = .ok i → i.wellFormed = true

/-- R73: one word is `HALT`, it is tested before the immediate-arithmetic table, and `0x0FF00593` is an `ADDI`. The word is
the spec's decision D3, a constant of the model (notes/assumptions/4.md). -/
def Obligations.HaltWordOnly : Prop :=
  (∀ w : Word, decode w = .ok .halt ↔ w = 0x0FF00513) ∧ decode 0x0FF00593 = .ok (.addi 11 0 255)

/-- R74: which words do not decode. -/
def Obligations.DecodeFailsExactly : Prop :=
  ∀ w : Word, (∃ e, decode w = .error e) ↔
    (w.extractLsb' 0 7 ∉ [0b0110111#7, 0b0010111#7, 0b1101111#7, 0b1100111#7, 0b1100011#7, 0b0000011#7, 0b0100011#7,
      0b0010011#7, 0b0110011#7]) ∨
    (w.extractLsb' 0 7 = 0b1100011#7 ∧ w.extractLsb' 12 3 ∈ [0b010#3, 0b011#3]) ∨
    (w.extractLsb' 0 7 = 0b0000011#7 ∧ w.extractLsb' 12 3 ∈ [0b011#3, 0b110#3, 0b111#3]) ∨
    (w.extractLsb' 0 7 = 0b0100011#7 ∧ w.extractLsb' 12 3 ∈ [0b011#3, 0b100#3, 0b101#3, 0b110#3, 0b111#3]) ∨
    (w.extractLsb' 0 7 = 0b1100111#7 ∧ w.extractLsb' 12 3 ≠ 0b000#3)

/-- R75: bits 31 and 29:25 of a register-arithmetic or shift word are not examined, and neither is bit 30 where the kind
has no pair (decision D24, notes/assumptions/13.md). -/
def Obligations.LenientBitsIgnored : Prop :=
  ∀ w v : Word,
    (w.extractLsb' 0 7 = 0b0110011#7 ∨
      (w.extractLsb' 0 7 = 0b0010011#7 ∧ (w.extractLsb' 12 3 = 0b001#3 ∨ w.extractLsb' 12 3 = 0b101#3))) →
    w.extractLsb' 0 25 = v.extractLsb' 0 25 →
    (w.getLsbD 30 = v.getLsbD 30 ∨ w.extractLsb' 12 3 = 0b001#3 ∨
      (w.extractLsb' 0 7 = 0b0110011#7 ∧ w.extractLsb' 12 3 ≠ 0b000#3 ∧ w.extractLsb' 12 3 ≠ 0b101#3)) →
    decode w = decode v

/-- One word of every format, written out from the spec's encoding, and words that do not decode. -/
def Obligations.SampleWordsDecode : Prop :=
  decode 0x123452B7 = .ok (.lui 5 0x12345) ∧ decode 0xFFFFF297 = .ok (.auipc 5 0xFFFFF) ∧
  decode 0xFF5FF06F = .ok (.jal 0 (-12)) ∧ decode 0xFFC280E7 = .ok (.jalr 1 5 (-4)) ∧
  decode 0x00628863 = .ok (.beq 5 6 16) ∧ decode 0xFE732E23 = .ok (.sw 7 6 (-4)) ∧
  decode 0x02B50533 = .ok (.add 10 10 11) ∧ decode 0x7EB50533 = .ok (.sub 10 10 11) ∧
  decode 0x00000000 = .error .unknownOpcode ∧ decode 0xFFFFFFFF = .error .unknownOpcode ∧
  decode 0x00000073 = .error .unknownOpcode ∧ decode 0x0000000F = .error .unknownOpcode

/-! ### Memory (spec/20_memory.md) -/

/-- R42: a read in range gives the bytes, the lowest address least significant, and nothing above them; a read whose
integer sum runs past the memory raises. -/
def Obligations.MemReadReadsBytes : Prop :=
  ∀ (m : Memory) (memSize : Nat) (addr : Word) (n : Nat), n = 1 ∨ n = 2 ∨ n = 4 →
    (memSize < addr.toNat + n → memRead m memSize addr n = none) ∧
    (addr.toNat + n ≤ memSize → ∃ v, memRead m memSize addr n = some v ∧ v.toNat < 256 ^ n ∧
      ∀ k < n, v.extractLsb' (8 * k) 8 = m.read (addr.toNat + k))

/-- R43: a write in range stores the low bytes and no other; a write whose integer sum runs past the memory raises and
gives no memory. -/
def Obligations.MemWriteStoresBytes : Prop :=
  ∀ (m : Memory) (memSize : Nat) (addr v : Word) (n : Nat), m.wf → n = 1 ∨ n = 2 ∨ n = 4 →
    (memSize < addr.toNat + n → memWrite m memSize addr n v = none) ∧
    (addr.toNat + n ≤ memSize → ∃ m', memWrite m memSize addr n v = some m' ∧ m'.wf ∧
      ∀ a, m'.read a = if addr.toNat ≤ a ∧ a < addr.toNat + n then v.extractLsb' (8 * (a - addr.toNat)) 8 else m.read a)

/-- R41: a mixed-width access sees bytes, at any address, aligned or not (R44). -/
def Obligations.MixedWidthSeesBytes : Prop :=
  ∀ (m : Memory) (memSize : Nat) (a : Word), m.wf → memSize ≤ 2 ^ 32 → a.toNat + 4 ≤ memSize →
    ∃ m', memWrite m memSize a 4 0xAABBCCDD = some m' ∧ memRead m' memSize a 1 = some 0xDD ∧
      memRead m' memSize (a + 1) 1 = some 0xCC ∧ memRead m' memSize (a + 2) 2 = some 0xAABB ∧
      memRead m' memSize (a + 1) 2 = some 0xBBCC

/-! ### Phase (a): the reorder buffer (spec/42_rob_commit_rollback.md) -/

/-- R120, slot by slot: a slot that is not live keeps everything; a live slot keeps its kind, register and pc, takes the
value or redirect broadcast for its tag, and is ready if it was or if either bus names it. Nothing else changes. The tags
of one bus are distinct (R153, the statement `TagsStayLinked`). -/
def Obligations.RobCapturesBroadcasts : Prop :=
  ∀ (s : State) (t : Tag) (e : RobEntry), (s.cdb.map Prod.fst).Nodup → (s.robSig.map Prod.fst).Nodup →
    s.rob.slots[t]? = some e → ∃ slots e',
      s.robCapture = { s with rob := { s.rob with slots := slots } } ∧ slots.length = s.rob.slots.length ∧
      slots[t]? = some e' ∧
      (s.rob.live t = false → e' = e) ∧
      (s.rob.live t = true → e'.op = e.op ∧ e'.rd = e.rd ∧ e'.pc = e.pc ∧
        (∀ v, (t, v) ∈ s.cdb → e'.value = v) ∧ (t ∉ s.cdb.map Prod.fst → e'.value = e.value) ∧
        (∀ r, (t, r) ∈ s.robSig → e'.redirect = r) ∧ (t ∉ s.robSig.map Prod.fst → e'.redirect = e.redirect) ∧
        (e'.ready = true ↔ e.ready = true ∨ t ∈ s.cdb.map Prod.fst ∨ t ∈ s.robSig.map Prod.fst))

/-- R121, R82: a head that is ready after the captures of this cycle is popped into the commit latch, its slot unchanged;
otherwise nothing leaves. Phase (a) changes nothing else. -/
def Obligations.RobPopsReadyHead : Prop :=
  ∀ s : State,
    (∀ e, s.rob.count ≠ 0 → s.robCapture.rob.slots[s.rob.head]? = some e → e.ready = true →
      s.phaseA = { s.robCapture with
        commitLatch := some (s.rob.head, e)
        rob := { slots := s.robCapture.rob.slots, head := (s.rob.head + 1) % s.rob.capacity, count := s.rob.count - 1 } }) ∧
    ((s.rob.count = 0 ∨ ∃ e, s.robCapture.rob.slots[s.rob.head]? = some e ∧ e.ready = false) →
      s.phaseA = { s.robCapture with commitLatch := none })

/-! ### Phases (b) and (c): load-store queue and reservation stations (spec/43_rs_lsq_cdb_execute.md) -/

/-- R140, R143: an operand waiting for a tag on the bus takes its value; a tag not on the bus and a resolved operand
stay. The tags of the bus are distinct (R153, the statement `TagsStayLinked`). -/
def Obligations.BroadcastResolvesOperands : Prop :=
  ∀ (cdb : List (Tag × Word)) (t : Tag) (v : Word), (cdb.map Prod.fst).Nodup →
    ((t, v) ∈ cdb → (Operand.tag t).captureAll cdb = .val v) ∧
    (t ∉ cdb.map Prod.fst → (Operand.tag t).captureAll cdb = .tag t) ∧
    (Operand.val v).captureAll cdb = .val v

/-- R143, R82: phase (b) captures into both operands of every live load-store-queue entry, the head or not, and into no
slot that is not live; then, in the queue so changed, the head makes its attempt; with an empty queue there is none
(R144). What an operand captures: `BroadcastResolvesOperands`. -/
def Obligations.QueueCapturesBroadcasts : Prop :=
  ∀ s : State, ∃ slots : List LsqEntry,
    slots.length = s.lsq.slots.length ∧
    (∀ i q, s.lsq.slots[i]? = some q → s.lsq.live i = true →
      slots[i]? = some { q with o1 := q.o1.captureAll s.cdb, o2 := q.o2.captureAll s.cdb }) ∧
    (∀ i q, s.lsq.slots[i]? = some q → s.lsq.live i = false → slots[i]? = some q) ∧
    s.phaseB = State.lsqAttempt { s with lsq := { s.lsq with slots := slots }, lsqOut := none } ∧
    (s.lsq.count = 0 → s.phaseB = .running { s with lsqOut := none })

/-- R140, R141: phase (c) captures into both operands of every busy station, then launches the ready station of lowest
index and frees it; with none ready nothing is launched. Nothing else changes. -/
def Obligations.LowestReadyStationLaunches : Prop :=
  ∀ s : State, ∃ rs : List RsEntry,
    rs = s.rs.map (fun e => if e.busy then { e with o1 := e.o1.captureAll s.cdb, o2 := e.o2.captureAll s.cdb } else e) ∧
    (((∀ e ∈ rs, e.busy = false ∨ (∃ t, e.o1 = .tag t) ∨ ∃ t, e.o2 = .tag t) →
        s.phaseC = { s with execLatch := none, rs := rs }) ∧
     (∀ i e a b, rs[i]? = some e → e.busy = true → e.o1 = .val a → e.o2 = .val b →
        (∀ j < i, ∀ d, rs[j]? = some d → d.busy = false ∨ (∃ t, d.o1 = .tag t) ∨ ∃ t, d.o2 = .tag t) →
        s.phaseC = { s with
          execLatch := some { op := e.op, a := a, b := b, imm := e.imm, dest := e.dest, pc := e.pc }
          rs := rs.set i { e with busy := false } }))

/-- R144, R145: a load at the head with its base resolved reads its width, extends it, is popped and hands its value on;
out of range, it raises, nothing popped and nothing else changed. -/
def Obligations.LoadAtHeadIsPerformed : Prop :=
  ∀ (s : State) (q : LsqEntry) (op : LoadOp) (base data : Word),
    s.lsq.front? = some q → q.op = .load op → q.o1 = .val base → q.o2 = .val data →
    (∀ raw, memRead s.mem s.memSize (base + q.imm) op.width = some raw →
      s.lsqAttempt = .running { s with lsq := s.lsq.pop, lsqOut := some (.loadResult q.dest (op.extend raw)) }) ∧
    (memRead s.mem s.memSize (base + q.imm) op.width = none →
      s.lsqAttempt = .ended { s with fault := .memoryAccessError, faultAddr := base + q.imm })

/-- R144, R146: a committed store at the head writes its width and is popped, and reports nothing; out of range, it
raises, no byte written and nothing popped. -/
def Obligations.CommittedStoreAtHeadIsWritten : Prop :=
  ∀ (s : State) (q : LsqEntry) (op : StoreOp) (base data : Word),
    s.lsq.front? = some q → q.op = .store op → q.o1 = .val base → q.o2 = .val data → q.ready = true →
    (∀ m, memWrite s.mem s.memSize (base + q.imm) op.width data = some m →
      s.lsqAttempt = .running { s with mem := m, lsq := s.lsq.pop }) ∧
    (memWrite s.mem s.memSize (base + q.imm) op.width data = none →
      s.lsqAttempt = .ended { s with fault := .memoryAccessError, faultAddr := base + q.imm })

/-- R144, R147, R148: a store at the head that has not committed reports once, with no address check; having reported,
it waits; and a head with a pending operand waits. -/
def Obligations.StoreReportsOnce : Prop :=
  ∀ (s : State) (q : LsqEntry), s.lsq.front? = some q →
    (∀ op base data, q.op = .store op → q.o1 = .val base → q.o2 = .val data → q.ready = false → q.reported = false →
      ∃ s', s' = { s with
          lsqOut := some (.storeReport q.dest)
          lsq := { s.lsq with slots := s.lsq.slots.set s.lsq.head { q with reported := true } } } ∧
        s.lsqAttempt = .running s' ∧ s'.lsqAttempt = .running s') ∧
    (∀ op, q.op = .store op → q.ready = false → q.reported = true → s.lsqAttempt = .running s) ∧
    (∀ t, q.o1 = .tag t ∨ q.o2 = .tag t → s.lsqAttempt = .running s)

/-! ### Phase (d): the register status table (spec/41_fetch_dispatch_rename.md) -/

/-- R108, R109, register by register: a staged lock wins; else a staged unlock clears busy if the tag still matches; else
nothing changes. Phase (d) changes nothing but the table. -/
def Obligations.UnlockThenLock : Prop :=
  ∀ (s : State) (r : RegIdx), s.phaseD = { s with rst := s.phaseD.rst } ∧
    (∀ t, s.lockReq = some (r, t) → s.phaseD.readRst r = { busy := true, tag := t }) ∧
    ((∀ t, s.lockReq ≠ some (r, t)) →
      (∀ t, s.unlockReq = some (r, t) → (s.readRst r).busy = true → (s.readRst r).tag = t →
        s.phaseD.readRst r = { busy := false, tag := t }) ∧
      ((∀ t, s.unlockReq = some (r, t) → (s.readRst r).busy = false ∨ (s.readRst r).tag ≠ t) →
        s.phaseD.readRst r = s.readRst r))

/-- R111: of two producers of one register in flight, a reader gets the tag of the second, also after the first has
retired and its unlock is applied, and also when both have the same reused slot as their tag (R108). -/
def Obligations.NewestProducerWins : Prop :=
  ∀ (s : State) (r : RegIdx) (t1 t2 : Tag) (e : RobEntry),
    r ≠ 0 → s.rob.slots[t2]? = some e → e.ready = false →
    (t1 ≠ t2 → (((s.lock r t1).lock r t2).unlock r t1).resolve r = .tag t2) ∧
    (s.lockReq = some (r, t2) → s.unlockReq = some (r, t1) → s.phaseD.resolve r = .tag t2)

/-! ### Phases (e) and (h): fetch and dispatch (spec/41_fetch_dispatch_rename.md) -/

/-- R106: the operand resolver. -/
def Obligations.OperandResolution : Prop :=
  ∀ (s : State) (r : RegIdx),
    s.resolve 0 = .val 0 ∧
    (r ≠ 0 → (s.readRst r).busy = false → s.resolve r = .val (s.readReg r)) ∧
    (∀ e, r ≠ 0 → (s.readRst r).busy = true → s.rob.slots[(s.readRst r).tag]? = some e →
      s.resolve r = if e.ready then .val e.value else .tag (s.readRst r).tag)

/-- R103: with the fetch queue empty, or no free slot where its head goes, dispatch changes nothing; `HALT` needs only a
reorder-buffer slot (decision D16). -/
def Obligations.DispatchStalls : Prop :=
  ∀ s : State,
    (s.fq = [] → s.phaseH = s) ∧
    (∀ r rest, s.fq = r :: rest →
      (s.rob.capacity ≤ s.rob.count ∨ (∃ op, r.op = .rs op ∧ ∀ e ∈ s.rs, e.busy = true) ∨
        (∃ op, r.op = .mem op ∧ s.lsq.capacity ≤ s.lsq.count)) → s.phaseH = s) ∧
    (∀ r rest, s.fq = r :: rest → r.op = .halt → s.rob.count < s.rob.capacity → s.phaseH.fq = rest)

/-- R104, R105, R107, R110: dispatch pushes the reorder-buffer entry at the tail, which is the tag; puts an entry with the
operands resolved before the push into the free station of lowest index or at the tail of the load-store queue; and
stages the lock. It changes nothing else. -/
def Obligations.DispatchBuildsEntries : Prop :=
  ∀ (s : State) (r : Record) (rest : List Record),
    s.fq = r :: rest → s.rob.count < s.rob.capacity →
    ∃ o1 o2, o1 = (if r.op.usesRs1 then s.resolve r.rs1 else .val 0) ∧
      o2 = (if r.op.usesRs2 then s.resolve r.rs2 else .val 0) ∧
    (((∃ op, r.op = .rs op ∧ ∃ e ∈ s.rs, e.busy = false) ∨ (∃ op, r.op = .mem op ∧ s.lsq.count < s.lsq.capacity) ∨
        r.op = .halt) →
      s.phaseH = { s with
        fq := rest, rob := s.phaseH.rob, rs := s.phaseH.rs, lsq := s.phaseH.lsq, lockReq := s.phaseH.lockReq } ∧
      s.phaseH.rob.head = s.rob.head ∧ s.phaseH.rob.count = s.rob.count + 1 ∧
      (∀ j, s.phaseH.rob.slots[j]? = if j = s.rob.tail then
          some { op := r.op, rd := r.rd, pc := r.pc, value := 0, redirect := 0, ready := r.op == .halt }
        else s.rob.slots[j]?) ∧
      s.phaseH.lockReq = (if r.op.writesRegister ∧ r.rd ≠ 0 then some (r.rd, s.rob.tail) else s.lockReq) ∧
      (∀ op, r.op = .rs op → s.phaseH.lsq = s.lsq ∧ ∃ i e, s.rs[i]? = some e ∧ e.busy = false ∧
        (∀ j < i, ∀ d, s.rs[j]? = some d → d.busy = true) ∧
        s.phaseH.rs = s.rs.set i { busy := true, op := op, o1 := o1, o2 := o2, imm := r.imm, dest := s.rob.tail, pc := r.pc }) ∧
      (∀ op, r.op = .mem op → s.phaseH.rs = s.rs ∧ s.phaseH.lsq.head = s.lsq.head ∧
        s.phaseH.lsq.count = s.lsq.count + 1 ∧
        ∀ j, s.phaseH.lsq.slots[j]? = if j = s.lsq.tail then
            some { op := op, o1 := o1, o2 := o2, imm := r.imm, dest := s.rob.tail, ready := false, reported := false }
          else s.lsq.slots[j]?) ∧
      (r.op = .halt → s.phaseH.rs = s.rs ∧ s.phaseH.lsq = s.lsq))

/-- R80, R82: the phases of a cycle of a core that is not stopped and has time, in their order: (a), (b), (c), (d) before
the fetch, (f), (g), (h), (i) after it, each on what the one before left; where phase (b) raises, the cycle ends there and
no later phase runs. -/
def Obligations.PhasesInOrder : Prop :=
  ∀ s : State, s.halted = false → s.fault = .none → (∀ n, s.maxCycles = some n → s.cycles < n) →
    (∀ b, (State.phaseA { s with cycles := s.cycles + 1 }).phaseB = .running b → s.beforeFetch = .running b.phaseC.phaseD) ∧
    (∀ u, (State.phaseA { s with cycles := s.cycles + 1 }).phaseB = .ended u →
      s.beforeFetch = .ended u ∧ step s = .next u ∧ ∀ i, exec i s = .next u) ∧
    ∀ m : State, m.afterFetch = m.phaseF.phaseG.phaseH.phaseI

/-- R100, R102, R47: where a cycle reaches its fetch and takes nothing in: with a full fetch queue or an undecodable word
the later phases follow on the state as it is; with a word not wholly in memory the cycle ends in a
`MemoryAccessError`. -/
def Obligations.FetchTakesNothingIn : Prop :=
  ∀ s b : State, s.beforeFetch = .running b →
    (b.fqCap ≤ b.fq.length → step s = b.afterFetch) ∧
    (b.fq.length < b.fqCap → b.memSize < b.pc.toNat + 4 →
      step s = .next { b with fault := .memoryAccessError, faultAddr := b.pc }) ∧
    (∀ w e, b.fq.length < b.fqCap → memRead b.mem b.memSize b.pc 4 = some w → decode w = .error e →
      step s = b.afterFetch ∧ s.decodeError = true)

/-- R80, R101: a step runs the decoded instruction. Where a cycle reaches its fetch with room in the fetch queue and the
four bytes at the pc, which no phase before the fetch has moved, decode to `i`, the step is `exec i` at the state the
cycle started in. What `exec` does: the phases before the fetch, the record in the fetch queue with its pc, the pc moved
on by four, the phases after the fetch (notes/assumptions/2.md). -/
def Obligations.StepRunsDecoded : Prop :=
  ∀ (s b : State) (i : Instr), s.beforeFetch = .running b → b.fq.length < b.fqCap → b.pc.toNat + 4 ≤ b.memSize →
    decodeBytes [b.mem.read b.pc.toNat, b.mem.read (b.pc.toNat + 1), b.mem.read (b.pc.toNat + 2),
      b.mem.read (b.pc.toNat + 3)] = .ok (i, []) →
    b.pc = s.pc ∧ step s = exec i s ∧
      ∃ r : Record, r.pc = s.pc ∧ exec i s = State.afterFetch { b with fq := b.fq ++ [r], pc := s.pc + 4 }

/-- R101, R90: with nothing in flight, every instruction is taken in and dispatched by one cycle, which answers a next
state: the pc moves on by four, the cycle is counted, the instruction stands in the reorder buffer under the head's tag,
and registers and memory are unchanged. -/
def Obligations.QuietTakesIn : Prop :=
  ∀ (i : Instr) (s : State), Quiet s → TimeFor 1 s →
    ∃ t, exec i s = .next t ∧ t.pc = s.pc + 4 ∧ t.cycles = s.cycles + 1 ∧ t.x = s.x ∧ t.mem = s.mem ∧
      t.halted = s.halted ∧ t.fault = s.fault ∧ t.rollbacks = s.rollbacks ∧ t.fq = [] ∧ t.rob.head = s.rob.head ∧
      t.rob.count = 1 ∧ (∃ e, t.rob.slots[s.rob.head]? = some e ∧ e.pc = s.pc ∧ e.ready = (i == .halt)) ∧
      t.lsq.count ≤ 1

/-! ### Phase (g): execute and the bus arbiter (spec/43_rs_lsq_cdb_execute.md) -/

/-- R150, R151: what phases (f) and (g) make of every pair of latches. `ev` and `er` are what the launched entry produces
(nothing; a value for a computation; a redirect for a branch; both for a jump), `lv` and `lr` what the load-store queue
does (nothing; the loaded value; redirect 0 for a store report); each bus carries Execute's first, and no other result is
lost or added. Both latches are empty, phase (f)'s four are cleared before, and nothing else changes. -/
def Obligations.ArbiterDrivesBuses : Prop :=
  ∀ s : State, ∃ ev er lv lr : List (Tag × Word),
    (ev, er) = (match s.execLatch with
      | none => ([], [])
      | some l =>
        match l.op with
        | .compute op => ([(l.dest, op.value l.a l.b l.imm l.pc)], [])
        | .branch op => ([], [(l.dest, if op.cond l.a l.b then l.imm else 4)])
        | .jump .jal => ([(l.dest, l.pc + 4)], [(l.dest, l.imm)])
        | .jump .jalr => ([(l.dest, l.pc + 4)], [(l.dest, ((l.a + l.imm) &&& 0xFFFFFFFE) - l.pc)])) ∧
    (lv, lr) = (match s.lsqOut with
      | none => ([], [])
      | some (.loadResult t v) => ([(t, v)], [])
      | some (.storeReport t) => ([], [(t, 0)])) ∧
    s.phaseF.phaseG = { s with
      cdb := ev ++ lv, robSig := er ++ lr, execLatch := none, lsqOut := none, lockReq := none, unlockReq := none }

/-! ### Phase (i): Commit and Rollback (spec/42_rob_commit_rollback.md) -/

/-- R123, R124: with nothing popped phase (i) does nothing; committing `HALT` sets `halted` and writes nothing else. -/
def Obligations.CommitHalt : Prop :=
  ∀ s : State, (s.commitLatch = none → s.phaseI = .next s) ∧
    ∀ (t : Tag) (e : RobEntry), s.commitLatch = some (t, e) → e.op = .halt → s.readReg 0 = 0 →
      s.phaseI = .next { s with commitLatch := none, halted := true }

/-- R128, R130: committing a computation or a load writes `x[rd]` and stages its unlock, and nothing else changes; for
register 0 nothing changes but the emptied latch. -/
def Obligations.CommitRegister : Prop :=
  ∀ (s : State) (t : Tag) (e : RobEntry), s.commitLatch = some (t, e) → s.readReg 0 = 0 →
    ((∃ op, e.op = .rs (.compute op)) ∨ ∃ op, e.op = .mem (.load op)) →
    (e.rd ≠ 0 → s.phaseI = .next { s with
      commitLatch := none, x := s.x.set e.rd.toNat e.value e.rd.isLt, unlockReq := some (e.rd, t) }) ∧
    (e.rd = 0 → s.phaseI = .next { s with commitLatch := none })

/-- R125, R126: committing a branch compares its redirect with the fall-through delta: equal, it has no effect at all;
else it rolls back to its pc plus the redirect. It writes no register and stages no unlock. -/
def Obligations.CommitBranch : Prop :=
  ∀ (s : State) (t : Tag) (e : RobEntry) (op : BranchOp), s.commitLatch = some (t, e) → e.op = .rs (.branch op) →
    s.readReg 0 = 0 →
    (e.redirect = 4 → s.phaseI = .next { s with commitLatch := none }) ∧
    (e.redirect ≠ 4 → ∃ u, s.phaseI = .next u ∧ u = s.rollback (e.pc + e.redirect) ∧ u.pc = e.pc + e.redirect ∧
      u.rollbacks = s.rollbacks + 1 ∧ u.unlockReq = none ∧ u.x = s.x ∧ u.mem = s.mem)

/-- R127: committing a jump writes the link and stages its unlock, unless the destination is register 0; then compares
its redirect: equal to the fall-through delta, nothing else changes; else it rolls back, which leaves the link in place
and drops the unlock (R131). -/
def Obligations.CommitJump : Prop :=
  ∀ (s : State) (t : Tag) (e : RobEntry) (op : JumpOp), s.commitLatch = some (t, e) → e.op = .rs (.jump op) →
    s.readReg 0 = 0 →
    ∃ w : State, w = (if e.rd = 0 then { s with commitLatch := none } else { s with
        commitLatch := none, x := s.x.set e.rd.toNat (e.pc + 4) e.rd.isLt, unlockReq := some (e.rd, t) }) ∧
      (e.redirect = 4 → s.phaseI = .next w) ∧
      (e.redirect ≠ 4 → ∃ u, s.phaseI = .next u ∧ u = w.rollback (e.pc + e.redirect) ∧ Wrote s u e.rd (e.pc + 4) ∧
        u.pc = e.pc + e.redirect ∧ u.rollbacks = s.rollbacks + 1 ∧ u.unlockReq = none)

/-- R129: committing a store marks the oldest live unmarked store with its tag, and only that entry; no register and no
byte of memory is touched. -/
def Obligations.CommitStoreMarks : Prop :=
  ∀ (s : State) (t : Tag) (e : RobEntry) (op : StoreOp) (k : Nat) (q : LsqEntry) (so : StoreOp),
    s.commitLatch = some (t, e) → e.op = .mem (.store op) → s.readReg 0 = 0 →
    k < s.lsq.count → s.lsq.slots[(s.lsq.head + k) % s.lsq.capacity]? = some q →
    q.op = .store so → q.ready = false → q.dest = t →
    (∀ j < k, ∀ d, s.lsq.slots[(s.lsq.head + j) % s.lsq.capacity]? = some d →
      (∃ lo, d.op = .load lo) ∨ d.ready = true ∨ d.dest ≠ t) →
    s.phaseI = .next { s with
      commitLatch := none
      lsq := { s.lsq with slots := s.lsq.slots.set ((s.lsq.head + k) % s.lsq.capacity) { q with ready := true } } }

/-- R131, R134: what a Rollback leaves: nothing busy, nothing live, nothing on a bus or in a latch, the pc at the target,
one more rollback; registers, memory, status and cycle count untouched. Heads at 0 and cleared `ready` bits are the spec's
decision D28. -/
def Obligations.RollbackClears : Prop :=
  ∀ (s : State) (target : Word), ∃ u, u = s.rollback target ∧
    (∀ r, u.readRst r = { busy := false, tag := 0 }) ∧ u.fq = [] ∧
    u.rob.head = 0 ∧ u.rob.count = 0 ∧ (∀ e ∈ u.rob.slots, e.ready = false) ∧ (∀ e ∈ u.rs, e.busy = false) ∧
    u.lsq.head = 0 ∧ u.lsq.count = 0 ∧ u.cdb = [] ∧ u.robSig = [] ∧ u.lockReq = none ∧ u.unlockReq = none ∧
    u.commitLatch = none ∧ u.lsqOut = none ∧ u.execLatch = none ∧ u.pc = target ∧ u.rollbacks = s.rollbacks + 1 ∧
    u.x = s.x ∧ u.mem = s.mem ∧ u.halted = s.halted ∧ u.fault = s.fault ∧ u.faultAddr = s.faultAddr ∧
    u.cycles = s.cycles

/-- R132: a committed store is written by the next cycle of a core that runs, whatever else that cycle commits, a Rollback
included, or fetches. The premises are the invariants of the statements `InvariantKept` and `NoStepFaults`. -/
def Obligations.CommittedStoreNotLost : Prop :=
  ∀ (s : State) (q : LsqEntry) (op : StoreOp) (base data : Word),
    Inv s → StoreLinked s → s.stopped = false → TimeFor 1 s →
    s.lsq.front? = some q → q.op = .store op → q.ready = true → q.o1 = .val base → q.o2 = .val data →
    (base + q.imm).toNat + op.width ≤ s.memSize →
    ∃ u, step s = .next u ∧ ∀ a, u.mem.read a =
      if (base + q.imm).toNat ≤ a ∧ a < (base + q.imm).toNat + op.width then
        data.extractLsb' (8 * (a - (base + q.imm).toNat)) 8
      else s.mem.read a

/-! ### What each instruction does, from fetch to commit

`CompletesIn k i s u`: `exec i s` answers a next state, and so do the `k` steps after it, the last one `u`. The premises:
nothing is in flight in `s`; the cycle bound and the memory leave room for the cycles counted (R224, R254); and the word
after the instruction is no load, which could fault on its own account meanwhile (R251). -/

/-- `LUI`, `AUIPC` (R160 to R162). -/
def Obligations.UpperImmediateResults : Prop :=
  ∀ (rd : RegIdx) (imm : BitVec 20) (s : State), RunsAhead 3 s → NoLoadNext s →
    (∃ u, CompletesIn 2 (.lui rd imm) s u ∧ Wrote s u rd (imm ++ 0#12) ∧ u.rollbacks = s.rollbacks ∧
      u.cycles = s.cycles + 3) ∧
    (∃ u, CompletesIn 2 (.auipc rd imm) s u ∧ Wrote s u rd (s.pc + (imm ++ 0#12)) ∧ u.rollbacks = s.rollbacks ∧
      u.cycles = s.cycles + 3)

/-- The nine immediate-arithmetic instructions (R160, R163 to R171, R183): each with the value its rule gives. -/
def Obligations.ImmediateArithmeticResults : Prop :=
  ∀ (rd rs1 : RegIdx) (imm : BitVec 12) (shamt : BitVec 5) (s : State), RunsAhead 3 s → NoLoadNext s →
    ∀ c ∈ [(Instr.addi rd rs1 imm, s.readReg rs1 + imm.signExtend 32),
      (Instr.slti rd rs1 imm, if (s.readReg rs1).toInt < imm.toInt then 1 else 0),
      (Instr.sltiu rd rs1 imm, if (s.readReg rs1).toNat < (imm.signExtend 32).toNat then 1 else 0),
      (Instr.xori rd rs1 imm, s.readReg rs1 ^^^ imm.signExtend 32),
      (Instr.ori rd rs1 imm, s.readReg rs1 ||| imm.signExtend 32),
      (Instr.andi rd rs1 imm, s.readReg rs1 &&& imm.signExtend 32),
      (Instr.slli rd rs1 shamt, s.readReg rs1 <<< shamt.toNat),
      (Instr.srli rd rs1 shamt, s.readReg rs1 >>> shamt.toNat),
      (Instr.srai rd rs1 shamt, (s.readReg rs1).sshiftRight shamt.toNat)],
    ∃ u, CompletesIn 2 c.1 s u ∧ Wrote s u rd c.2 ∧ u.rollbacks = s.rollbacks ∧ u.cycles = s.cycles + 3

/-- The ten register-arithmetic instructions (R160, R172 to R181, R184): each with the value its rule gives. -/
def Obligations.RegisterArithmeticResults : Prop :=
  ∀ (rd rs1 rs2 : RegIdx) (s : State), RunsAhead 3 s → NoLoadNext s →
    ∀ c ∈ [(Instr.add rd rs1 rs2, s.readReg rs1 + s.readReg rs2),
      (Instr.sub rd rs1 rs2, s.readReg rs1 - s.readReg rs2),
      (Instr.sll rd rs1 rs2, s.readReg rs1 <<< ((s.readReg rs2).toNat % 32)),
      (Instr.slt rd rs1 rs2, if (s.readReg rs1).toInt < (s.readReg rs2).toInt then 1 else 0),
      (Instr.sltu rd rs1 rs2, if (s.readReg rs1).toNat < (s.readReg rs2).toNat then 1 else 0),
      (Instr.xor rd rs1 rs2, s.readReg rs1 ^^^ s.readReg rs2),
      (Instr.srl rd rs1 rs2, s.readReg rs1 >>> ((s.readReg rs2).toNat % 32)),
      (Instr.sra rd rs1 rs2, (s.readReg rs1).sshiftRight ((s.readReg rs2).toNat % 32)),
      (Instr.or rd rs1 rs2, s.readReg rs1 ||| s.readReg rs2),
      (Instr.and rd rs1 rs2, s.readReg rs1 &&& s.readReg rs2)],
    ∃ u, CompletesIn 2 c.1 s u ∧ Wrote s u rd c.2 ∧ u.rollbacks = s.rollbacks ∧ u.cycles = s.cycles + 3

/-- `JAL`, `JALR` (R190 to R192, R127): the link is `pc + 4`, the target `pc + offset` or the sum with bit 0 cleared. -/
def Obligations.JumpResults : Prop :=
  ∀ (rd rs1 : RegIdx) (offset : BitVec 21) (imm : BitVec 12) (s : State), RunsAhead 3 s → NoLoadNext s →
    (∃ u, CompletesIn 2 (.jal rd offset) s u ∧ Wrote s u rd (s.pc + 4) ∧ WentTo s u (s.pc + offset.signExtend 32) ∧
      u.cycles = s.cycles + 3) ∧
    (∃ u, CompletesIn 2 (.jalr rd rs1 imm) s u ∧ Wrote s u rd (s.pc + 4) ∧
      WentTo s u ((s.readReg rs1 + imm.signExtend 32) &&& 0xFFFFFFFE) ∧ u.cycles = s.cycles + 3)

/-- The six branches (R189, R193 to R198): no register is written; control goes to `pc + offset` where the condition holds
and to `pc + 4` where it does not. -/
def Obligations.BranchResults : Prop :=
  ∀ (rs1 rs2 : RegIdx) (offset : BitVec 13) (s : State), RunsAhead 3 s → NoLoadNext s →
    ∀ c ∈ [(Instr.beq rs1 rs2 offset, decide (s.readReg rs1 = s.readReg rs2)),
      (Instr.bne rs1 rs2 offset, decide (s.readReg rs1 ≠ s.readReg rs2)),
      (Instr.blt rs1 rs2 offset, decide ((s.readReg rs1).toInt < (s.readReg rs2).toInt)),
      (Instr.bge rs1 rs2 offset, decide ((s.readReg rs1).toInt ≥ (s.readReg rs2).toInt)),
      (Instr.bltu rs1 rs2 offset, decide ((s.readReg rs1).toNat < (s.readReg rs2).toNat)),
      (Instr.bgeu rs1 rs2 offset, decide ((s.readReg rs1).toNat ≥ (s.readReg rs2).toNat))],
    ∃ u, CompletesIn 2 c.1 s u ∧ Wrote s u 0 0 ∧
      WentTo s u (if c.2 then s.pc + offset.signExtend 32 else s.pc + 4) ∧ u.cycles = s.cycles + 3

/-- The five loads in range (R200 to R205): the bytes at `x[rs1] + imm`, the lowest address least significant, sign- or
zero-extended; any alignment. -/
def Obligations.LoadResults : Prop :=
  ∀ (rd rs1 : RegIdx) (imm : BitVec 12) (s : State) (a : Nat), RunsAhead 3 s → NoLoadNext s →
    a = (s.readReg rs1 + imm.signExtend 32).toNat →
    ∀ c ∈ [(Instr.lb rd rs1 imm, 1, (s.mem.read a).signExtend 32),
      (Instr.lh rd rs1 imm, 2, (s.mem.read (a + 1) ++ s.mem.read a).signExtend 32),
      (Instr.lw rd rs1 imm, 4, s.mem.read (a + 3) ++ s.mem.read (a + 2) ++ s.mem.read (a + 1) ++ s.mem.read a),
      (Instr.lbu rd rs1 imm, 1, (s.mem.read a).setWidth 32),
      (Instr.lhu rd rs1 imm, 2, (s.mem.read (a + 1) ++ s.mem.read a).setWidth 32)],
    a + c.2.1 ≤ s.memSize →
    ∃ u, CompletesIn 2 c.1 s u ∧ Wrote s u rd c.2.2 ∧ u.rollbacks = s.rollbacks ∧ u.cycles = s.cycles + 3

/-- The three stores in range (R200, R206 to R208): the low bytes of `x[rs2]` stand at `x[rs1] + imm` one cycle after the
commit, every other byte as before; up to the commit, in `v`, registers and memory are unchanged. -/
def Obligations.StoreResults : Prop :=
  ∀ (rs2 rs1 : RegIdx) (imm : BitVec 12) (s : State) (a : Nat), RunsAhead 4 s → Always s →
    a = (s.readReg rs1 + imm.signExtend 32).toNat →
    ∀ c ∈ [(Instr.sb rs2 rs1 imm, 1), (Instr.sh rs2 rs1 imm, 2), (Instr.sw rs2 rs1 imm, 4)], a + c.2 ≤ s.memSize →
    ∃ v u, CompletesIn 2 c.1 s v ∧ Wrote s v 0 0 ∧ v.rollbacks = s.rollbacks ∧ v.cycles = s.cycles + 3 ∧
      step v = .next u ∧ u.fault = .none ∧
      ∀ b, u.mem.read b =
        if a ≤ b ∧ b < a + c.2 then (s.readReg rs2).extractLsb' (8 * (b - a)) 8 else s.mem.read b

/-- `HALT` (R210, R124, R212): committed by the cycle after the one that takes it in; registers and memory unchanged,
`exit_code` the low byte of `x10` (R33); and the halted core stays as it is. -/
def Obligations.HaltResults : Prop :=
  ∀ s : State, RunsAhead 2 s →
    ∃ u, CompletesIn 1 .halt s u ∧ u.halted = true ∧ u.fault = .none ∧ (∀ r, u.readReg r = s.readReg r) ∧
      u.mem = s.mem ∧ u.rollbacks = s.rollbacks ∧ u.cycles = s.cycles + 2 ∧
      u.exitCode = (s.readReg 10).extractLsb' 0 8 ∧ step u = .next u

/-- A load out of range (R45, R145, R223): the cycle after the one that takes it in raises, with the load's address, and
registers and memory are unchanged. -/
def Obligations.LoadOutOfRangeFaults : Prop :=
  ∀ (rd rs1 : RegIdx) (imm : BitVec 12) (s : State) (a : Word), Quiet s → TimeFor 2 s →
    a = s.readReg rs1 + imm.signExtend 32 →
    ∀ c ∈ [(Instr.lb rd rs1 imm, 1), (Instr.lh rd rs1 imm, 2), (Instr.lw rd rs1 imm, 4), (Instr.lbu rd rs1 imm, 1),
      (Instr.lhu rd rs1 imm, 2)], s.memSize < a.toNat + c.2 →
    ∃ u, CompletesIn 1 c.1 s u ∧ u.fault = .memoryAccessError ∧ u.faultAddr = a ∧ u.x = s.x ∧ u.mem = s.mem ∧
      u.halted = false ∧ step u = .next u

/-- A store out of range (R45, R146, R147, R223): it is committed like any store, and the cycle that would write it
raises, with its address; no byte is written. -/
def Obligations.StoreOutOfRangeFaults : Prop :=
  ∀ (rs2 rs1 : RegIdx) (imm : BitVec 12) (s : State) (a : Word), RunsAhead 4 s → Always s →
    a = s.readReg rs1 + imm.signExtend 32 →
    ∀ c ∈ [(Instr.sb rs2 rs1 imm, 1), (Instr.sh rs2 rs1 imm, 2), (Instr.sw rs2 rs1 imm, 4)], s.memSize < a.toNat + c.2 →
    ∃ u, CompletesIn 3 c.1 s u ∧ u.fault = .memoryAccessError ∧ u.faultAddr = a ∧
      (∀ r, u.readReg r = s.readReg r) ∧ u.mem = s.mem ∧ u.halted = false ∧ step u = .next u

/-! ### The core's own conditions (spec/60_exceptions.md) -/

/-- R225, R212: a stopped core's clock edge changes nothing, whatever it would fetch; only `rst` leaves the stopped
state. -/
def Obligations.StoppedCoreStays : Prop :=
  ∀ s : State, s.halted = true ∨ s.fault ≠ .none →
    step s = .next s ∧ (∀ i, exec i s = .next s) ∧ ∀ image, (s.assertRst image).stopped = false

/-- R224: at its cycle bound a running core raises `SimulationTimeout` and changes nothing else; before it, the cycle
runs and is counted (decision D7). -/
def Obligations.TimeoutAtBound : Prop :=
  ∀ (s t : State) (n : Nat), s.halted = false → s.fault = .none → s.maxCycles = some n →
    (n ≤ s.cycles → step s = .next { s with fault := .simulationTimeout }) ∧
    (s.cycles < n → step s = .next t → t.cycles = s.cycles + 1 ∧ t.fault ≠ .simulationTimeout)

/-- R102, R222: with nothing in flight, an undecodable word stalls the fetch: the cycle is counted, `decode_error` pulses,
and nothing else changes. -/
def Obligations.UndecodableWordStalls : Prop :=
  ∀ (s : State) (w : Word) (e : DecodeError), Quiet s → TimeFor 1 s →
    memRead s.mem s.memSize s.pc 4 = some w → decode w = .error e →
    step s = .next { s with cycles := s.cycles + 1 } ∧ s.decodeError = true

/-- R47, R223: with nothing in flight, a fetch that is not wholly in memory raises with the pc as its address, and nothing
else changes but the cycle count. -/
def Obligations.FetchOutOfRangeFaults : Prop :=
  ∀ s : State, Quiet s → TimeFor 1 s → s.memSize < s.pc.toNat + 4 →
    step s = .next { s with cycles := s.cycles + 1, fault := .memoryAccessError, faultAddr := s.pc }

/-! ### Frames: what no cycle does, whatever it takes in -/

/-- The parameters of R6 never change: not the ones in fields, not the capacities (notes/assumptions/3.md). -/
def Obligations.ParametersNeverChange : Prop :=
  ∀ (i : Instr) (s t : State), exec i s = .next t ∨ step s = .next t →
    t.fqCap = s.fqCap ∧ t.memSize = s.memSize ∧ t.maxCycles = s.maxCycles ∧ t.rob.capacity = s.rob.capacity ∧
    t.rs.length = s.rs.length ∧ t.lsq.capacity = s.lsq.capacity

/-- R87, R127, R128: a cycle writes at most one register, the destination of the entry phase (a) popped, and only if that
entry's kind writes one; every other register keeps its value. -/
def Obligations.RegisterFrame : Prop :=
  ∀ (i : Instr) (s t : State), s.readReg 0 = 0 → exec i s = .next t ∨ step s = .next t →
    ∀ r, (∀ g e, s.commits = some (g, e) → e.op.writesRegister = true → e.rd ≠ r) → t.readReg r = s.readReg r

/-- R87, R146: a cycle writes no byte of memory outside the bytes of the committed store at the head of the load-store
queue, and none at all where there is no such store. -/
def Obligations.MemoryFrame : Prop :=
  ∀ (i : Instr) (s t : State), s.mem.wf → exec i s = .next t ∨ step s = .next t →
    (∀ ea n, s.storesTo = some (ea, n) → ∀ b, b < ea.toNat ∨ ea.toNat + n ≤ b → t.mem.read b = s.mem.read b) ∧
    (s.storesTo = none → ∀ b, t.mem.read b = s.mem.read b)

/-- R87, R124, R131, R223, R224: the status changes only as the rules say. A core halts only by committing a `HALT`;
rolls back only by committing a branch or a jump with a redirect other than 4, once; counts at most one cycle; keeps the
fault address unless it raises. -/
def Obligations.StatusFrame : Prop :=
  ∀ (i : Instr) (s t : State), exec i s = .next t ∨ step s = .next t →
    (t.halted ≠ s.halted → t.halted = true ∧ ∃ g e, s.commits = some (g, e) ∧ e.op = .halt) ∧
    (t.rollbacks ≠ s.rollbacks → t.rollbacks = s.rollbacks + 1 ∧ ∃ g e, s.commits = some (g, e) ∧
      e.op.isControlFlow = true ∧ e.redirect ≠ 4) ∧
    (t.cycles = s.cycles ∨ t.cycles = s.cycles + 1) ∧
    (t.fault = s.fault ∨ s.fault = .none) ∧
    (t.faultAddr = s.faultAddr ∨ t.fault = .memoryAccessError)

/-! ### Invariants -/

/-- Every step, and every instruction's cycle, keeps the invariant `Inv`: register 0 reads 0 (R11), the memory is
canonical and within its size (R16), heads and counts in range (R19, R25), the fetch queue within its capacity (R26), at
most two results on a bus (R28, R84), register 0 never renamed (R110). -/
def Obligations.InvariantKept : Prop :=
  ∀ (i : Instr) (s t : State), Inv s → exec i s = .next t ∨ step s = .next t → Inv t

/-- R153, and R32 items 1, 5 and 6: with the invariant and the links of `TagsLinked`, every step, and every instruction's
cycle, that does not fault leaves the links again: every entry in flight has a live reorder-buffer slot of its own, and
the tags on `cdb` and on `rob_sig` name live slots and are distinct, the premise of `RobCapturesBroadcasts` and
`BroadcastResolvesOperands`. A state with the links has every waiting store linked (`StoreLinked`). -/
def Obligations.TagsStayLinked : Prop :=
  ∀ s : State, Inv s → s.fault = .none → TagsLinked s →
    StoreLinked s ∧ (s.cdb.map Prod.fst).Nodup ∧ (s.robSig.map Prod.fst).Nodup ∧
    ∀ (i : Instr) (t : State), exec i s = .next t ∨ step s = .next t → t.fault = .none → TagsLinked t

/-- R152, and R32 items 3 and 4: with the invariant and the links of `TagsLinked` too, every step, and every
instruction's cycle, that does not fault keeps `OperandsLinked`: no operand waits for a broadcast that has passed. -/
def Obligations.NoBroadcastMissed : Prop :=
  ∀ (i : Instr) (s t : State), Inv s → s.fault = .none → TagsLinked s → OperandsLinked s →
    exec i s = .next t ∨ step s = .next t → t.fault = .none → OperandsLinked t

/-- From a state with the invariant and every waiting store linked (R32 item 1), a step answers a next state, never a
fault of the model (notes/assumptions/9.md), and keeps the link: "The matching entry always exists" (R129). So does every
instruction's cycle. -/
def Obligations.NoStepFaults : Prop :=
  ∀ (i : Instr) (s : State), Inv s → (s.fault = .none → StoreLinked s) →
    (∃ t, step s = .next t ∧ (t.fault = .none → StoreLinked t)) ∧
    (∃ t, exec i s = .next t ∧ (t.fault = .none → StoreLinked t))

/-- Reset (R38, R240) leaves nothing in flight, the invariant and every link, at the model's reset, whose parameters are
the model's choice (notes/assumptions/3.md), and with any image and valid parameters. -/
def Obligations.ResetHasInvariant : Prop :=
  (Inv State.reset ∧ StoreLinked State.reset ∧ TagsLinked State.reset ∧ OperandsLinked State.reset ∧ Quiet State.reset) ∧
  ∀ (c : Config) (image : Memory), c.Valid → image.wf → (∀ b ∈ image, b.1 < c.memSize) →
    Inv (State.resetWith c image) ∧ StoreLinked (State.resetWith c image) ∧ TagsLinked (State.resetWith c image) ∧
      OperandsLinked (State.resetWith c image) ∧ Quiet (State.resetWith c image)

/-- R38, R240: the values after `rst`, whatever the state before it. They are the spec's decision D21
(notes/assumptions/6.md); that the parameters stay is the model's (notes/assumptions/3.md). -/
def Obligations.ResetValues : Prop :=
  ∀ (s : State) (image : Memory), ∃ u, u = s.assertRst image ∧
    (∀ r, u.readReg r = 0) ∧ u.pc = 0 ∧ u.mem = image ∧ (∀ r, u.readRst r = { busy := false, tag := 0 }) ∧
    u.rob.head = 0 ∧ u.rob.count = 0 ∧ (∀ e ∈ u.rob.slots, e.ready = false) ∧ (∀ e ∈ u.rs, e.busy = false) ∧
    u.lsq.head = 0 ∧ u.lsq.count = 0 ∧ u.fq = [] ∧ u.cdb = [] ∧ u.robSig = [] ∧ u.lockReq = none ∧
    u.unlockReq = none ∧ u.commitLatch = none ∧ u.lsqOut = none ∧ u.execLatch = none ∧ u.halted = false ∧
    u.fault = .none ∧ u.faultAddr = 0 ∧ u.cycles = 0 ∧ u.rollbacks = 0 ∧
    u.rob.capacity = s.rob.capacity ∧ u.rs.length = s.rs.length ∧ u.lsq.capacity = s.lsq.capacity ∧
    u.fqCap = s.fqCap ∧ u.memSize = s.memSize ∧ u.maxCycles = s.maxCycles

/-! ### The loader (spec/70_reset_and_hazards.md) -/

/-- R243: the image of the rule's example puts the bytes of its two instructions at address 0; and whatever image is
loaded, the machine starts with its invariant. What text the loader takes is the model's choice where R243 is silent
(notes/assumptions/18.md). -/
def Obligations.LoadedImageStartsInvariant : Prop :=
  loadImage 0x1000 "@00000000 13 05 50 00 13 05 F0 0F" =
      some [(0, 0x13), (1, 0x05), (2, 0x50), (4, 0x13), (5, 0x05), (6, 0xF0), (7, 0x0F)] ∧
  ∀ (c : Config) (text : String) (s : State), c.Valid → bootImage c text = some s →
    Inv s ∧ StoreLinked s ∧ TagsLinked s ∧ OperandsLinked s ∧ Quiet s ∧ s.memSize = c.memSize
end

