-- ==== Sys2Proof/Laws/Exec.lean ====
section
/-! SUPPORT. What an instruction's meaning does, said once: it is the clock cycle that takes in the instruction's record
(spec/30_encoding.md R60, spec/40_cycle_sequencer.md R80), and what that cycle can answer. -/

namespace Sys2Proof.Machine

/-- The record of an instruction, as the decoder hands it to Fetch (R27, R60). -/
def recordOf : Instr → Record
  | .halt => decodedRecord .halt 0 0 0 0
  | .lui rd imm => decodedRecord (.rs (.compute .lui)) rd (imm.extractLsb' 3 5) (imm.extractLsb' 8 5) (immU imm)
  | .auipc rd imm => decodedRecord (.rs (.compute .auipc)) rd (imm.extractLsb' 3 5) (imm.extractLsb' 8 5) (immU imm)
  | .jal rd offset => decodedRecord (.rs (.jump .jal)) rd (offset.extractLsb' 15 5) (offset.extractLsb' 1 4 ++ offset.extractLsb' 11 1) (immJ offset)
  | .jalr rd rs1 imm => decodedRecord (.rs (.jump .jalr)) rd rs1 (imm.extractLsb' 0 5) (immI imm)
  | .beq rs1 rs2 offset => decodedRecord (.rs (.branch .beq)) (offset.extractLsb' 1 4 ++ offset.extractLsb' 11 1) rs1 rs2 (immB offset)
  | .bne rs1 rs2 offset => decodedRecord (.rs (.branch .bne)) (offset.extractLsb' 1 4 ++ offset.extractLsb' 11 1) rs1 rs2 (immB offset)
  | .blt rs1 rs2 offset => decodedRecord (.rs (.branch .blt)) (offset.extractLsb' 1 4 ++ offset.extractLsb' 11 1) rs1 rs2 (immB offset)
  | .bge rs1 rs2 offset => decodedRecord (.rs (.branch .bge)) (offset.extractLsb' 1 4 ++ offset.extractLsb' 11 1) rs1 rs2 (immB offset)
  | .bltu rs1 rs2 offset => decodedRecord (.rs (.branch .bltu)) (offset.extractLsb' 1 4 ++ offset.extractLsb' 11 1) rs1 rs2 (immB offset)
  | .bgeu rs1 rs2 offset => decodedRecord (.rs (.branch .bgeu)) (offset.extractLsb' 1 4 ++ offset.extractLsb' 11 1) rs1 rs2 (immB offset)
  | .lb rd rs1 imm => decodedRecord (.mem (.load .lb)) rd rs1 (imm.extractLsb' 0 5) (immI imm)
  | .lh rd rs1 imm => decodedRecord (.mem (.load .lh)) rd rs1 (imm.extractLsb' 0 5) (immI imm)
  | .lw rd rs1 imm => decodedRecord (.mem (.load .lw)) rd rs1 (imm.extractLsb' 0 5) (immI imm)
  | .lbu rd rs1 imm => decodedRecord (.mem (.load .lbu)) rd rs1 (imm.extractLsb' 0 5) (immI imm)
  | .lhu rd rs1 imm => decodedRecord (.mem (.load .lhu)) rd rs1 (imm.extractLsb' 0 5) (immI imm)
  | .sb rs2 rs1 imm => decodedRecord (.mem (.store .sb)) (imm.extractLsb' 0 5) rs1 rs2 (immS imm)
  | .sh rs2 rs1 imm => decodedRecord (.mem (.store .sh)) (imm.extractLsb' 0 5) rs1 rs2 (immS imm)
  | .sw rs2 rs1 imm => decodedRecord (.mem (.store .sw)) (imm.extractLsb' 0 5) rs1 rs2 (immS imm)
  | .addi rd rs1 imm => decodedRecord (.rs (.compute .addi)) rd rs1 (imm.extractLsb' 0 5) (immI imm)
  | .slti rd rs1 imm => decodedRecord (.rs (.compute .slti)) rd rs1 (imm.extractLsb' 0 5) (immI imm)
  | .sltiu rd rs1 imm => decodedRecord (.rs (.compute .sltiu)) rd rs1 (imm.extractLsb' 0 5) (immI imm)
  | .xori rd rs1 imm => decodedRecord (.rs (.compute .xori)) rd rs1 (imm.extractLsb' 0 5) (immI imm)
  | .ori rd rs1 imm => decodedRecord (.rs (.compute .ori)) rd rs1 (imm.extractLsb' 0 5) (immI imm)
  | .andi rd rs1 imm => decodedRecord (.rs (.compute .andi)) rd rs1 (imm.extractLsb' 0 5) (immI imm)
  | .slli rd rs1 shamt => decodedRecord (.rs (.compute .slli)) rd rs1 shamt (immShamt shamt)
  | .srli rd rs1 shamt => decodedRecord (.rs (.compute .srli)) rd rs1 shamt (immShamt shamt)
  | .srai rd rs1 shamt => decodedRecord (.rs (.compute .srai)) rd rs1 shamt (immShamt shamt)
  | .add rd rs1 rs2 => decodedRecord (.rs (.compute .add)) rd rs1 rs2 0
  | .sub rd rs1 rs2 => decodedRecord (.rs (.compute .sub)) rd rs1 rs2 0
  | .sll rd rs1 rs2 => decodedRecord (.rs (.compute .sll)) rd rs1 rs2 0
  | .slt rd rs1 rs2 => decodedRecord (.rs (.compute .slt)) rd rs1 rs2 0
  | .sltu rd rs1 rs2 => decodedRecord (.rs (.compute .sltu)) rd rs1 rs2 0
  | .xor rd rs1 rs2 => decodedRecord (.rs (.compute .xor)) rd rs1 rs2 0
  | .srl rd rs1 rs2 => decodedRecord (.rs (.compute .srl)) rd rs1 rs2 0
  | .sra rd rs1 rs2 => decodedRecord (.rs (.compute .sra)) rd rs1 rs2 0
  | .or rd rs1 rs2 => decodedRecord (.rs (.compute .or)) rd rs1 rs2 0
  | .and rd rs1 rs2 => decodedRecord (.rs (.compute .and)) rd rs1 rs2 0

/-- Every meaning is the cycle that takes in the instruction's record. -/
theorem exec_eq_takeIn (i : Instr) (s : State) : exec i s = s.takeIn (recordOf i) := by
  cases i <;> rfl

end Sys2Proof.Machine
end

