-- ==== Sys2Proof/Laws/Memory.lean ====
section
/-! SUPPORT. The laws of memory: read after write, the canonical form kept by every operation, and what a sized read and
a sized write do byte by byte (spec/20_memory.md R41 to R43). -/

namespace Sys2Proof.Machine

/-! ### The canonical form -/

theorem Memory.wf_nil : Memory.wf [] := by simp [Memory.wf]

/-- A canonical list with a smaller, nonzero entry in front is canonical, and conversely. -/
theorem Memory.wf_cons {c : Host.Cell} {m : Memory} :
    Memory.wf (c :: m) ↔ (∀ d ∈ m, c.1 < d.1) ∧ c.2 ≠ 0 ∧ Memory.wf m := by
  simp only [Memory.wf, List.pairwise_cons, List.mem_cons, forall_eq_or_imp]
  tauto

/-- An address below every listed one reads 0. -/
theorem Memory.read_eq_zero_of_lt {m : Memory} {a : Nat} (h : ∀ d ∈ m, a < d.1) : m.read a = 0 := by
  induction m with
  | nil => rfl
  | cons c m ih =>
    have hc := h c (by simp)
    rw [Memory.read, if_neg (by omega)]
    exact ih fun d hd => h d (by simp [hd])

/-- A write lists no address but the old ones and the one written. -/
theorem Memory.mem_write {m : Memory} {a : Nat} {b : Byte} {d : Host.Cell} (h : d ∈ m.write a b) :
    d ∈ m ∨ d.1 = a := by
  induction m with
  | nil => simp only [Memory.write] at h; split at h <;> simp_all
  | cons c m ih =>
    simp only [Memory.write] at h
    split at h
    · rcases List.mem_cons.mp h with rfl | h
      · simp
      · rcases ih h with h | h <;> simp [h]
    · split at h
      · split at h
        · simp [h]
        · rcases List.mem_cons.mp h with rfl | h <;> simp [*]
      · split at h
        · exact Or.inl h
        · rcases List.mem_cons.mp h with rfl | h
          · simp
          · exact Or.inl h

/-- A write keeps the canonical form. -/
theorem Memory.write_wf {m : Memory} {a : Nat} {b : Byte} (h : m.wf) : (m.write a b).wf := by
  induction m with
  | nil =>
    simp only [Memory.write]
    split
    · exact Memory.wf_nil
    · rename_i hb; exact Memory.wf_cons.mpr ⟨by simp, hb, Memory.wf_nil⟩
  | cons c m ih =>
    obtain ⟨hlt, hne, hm⟩ := Memory.wf_cons.mp h
    simp only [Memory.write]
    split
    · rename_i hca
      refine Memory.wf_cons.mpr ⟨fun d hd => ?_, hne, ih hm⟩
      rcases Memory.mem_write hd with hd | hd
      · exact hlt d hd
      · omega
    · split
      · rename_i hca
        split
        · exact hm
        · rename_i hb
          exact Memory.wf_cons.mpr ⟨fun d hd => by have := hlt d hd; simp; omega, hb, hm⟩
      · split
        · exact h
        · rename_i hca _ hb
          refine Memory.wf_cons.mpr ⟨fun d hd => ?_, hb, h⟩
          rcases List.mem_cons.mp hd with rfl | hd
          · simp; omega
          · have := hlt d hd; simp; omega

/-- Read after write: the byte written at its address, every other byte as before. -/
theorem Memory.read_write {m : Memory} (h : m.wf) (a b : Nat) (v : Byte) :
    (m.write a v).read b = if b = a then v else m.read b := by
  induction m with
  | nil =>
    simp only [Memory.write]
    split
    · simp_all [Memory.read]
    · simp only [Memory.read, eq_comm]
  | cons c m ih =>
    obtain ⟨hlt, hne, hm⟩ := Memory.wf_cons.mp h
    have ih := ih hm
    simp only [Memory.write]
    split
    · simp only [Memory.read, ih]
      split
      · split
        · omega
        · rfl
      · rfl
    · split
      · rename_i hca
        split
        · rename_i hv
          by_cases hb : b = a
          · subst hb
            rw [if_pos rfl, hv]
            exact Memory.read_eq_zero_of_lt fun d hd => by have := hlt d hd; omega
          · rw [if_neg hb, Memory.read, if_neg (by omega)]
        · simp only [Memory.read]
          by_cases hb : b = a
          · rw [if_pos hb.symm, if_pos hb]
          · rw [if_neg (Ne.symm hb), if_neg hb, if_neg (by omega)]
      · split
        · rename_i hv
          by_cases hb : b = a
          · subst hb
            rw [if_pos rfl, hv]
            refine Memory.read_eq_zero_of_lt fun d hd => ?_
            rcases List.mem_cons.mp hd with rfl | hd
            · omega
            · have := hlt d hd; omega
          · rw [if_neg hb]
        · by_cases hb : b = a
          · rw [Memory.read, if_pos hb.symm, if_pos hb]
          · rw [Memory.read, if_neg (Ne.symm hb), if_neg hb]

/-! ### Sized writes -/

/-- A sized write keeps the canonical form. -/
theorem Memory.writeLE_wf {m : Memory} (h : m.wf) (a n : Nat) (v : Word) : (m.writeLE a n v).wf := by
  induction n generalizing m a v with
  | zero => exact h
  | succ n ih => exact ih (Memory.write_wf h) _ _

/-- A sized write lists no address but the old ones and those written. -/
theorem Memory.mem_writeLE {m : Memory} {a n : Nat} {v : Word} {d : Host.Cell} (h : d ∈ m.writeLE a n v) :
    d ∈ m ∨ (a ≤ d.1 ∧ d.1 < a + n) := by
  induction n generalizing m a v with
  | zero => exact Or.inl h
  | succ n ih =>
    rcases ih h with h | h
    · rcases Memory.mem_write h with h | h
      · exact Or.inl h
      · right; omega
    · right; omega

/-- Byte `b` after a sized write: byte `b - a` of the value inside the range, as before outside it (R43). -/
theorem Memory.read_writeLE {m : Memory} (h : m.wf) (a n b : Nat) (v : Word) :
    (m.writeLE a n v).read b = if a ≤ b ∧ b < a + n then v.extractLsb' (8 * (b - a)) 8 else m.read b := by
  induction n generalizing m a v with
  | zero => simp only [Memory.writeLE]; rw [if_neg (by omega)]
  | succ n ih =>
    simp only [Memory.writeLE]
    rw [ih (Memory.write_wf h), Memory.read_write h]
    by_cases hb : b = a
    · subst hb
      rw [if_neg (by omega), if_pos rfl, if_pos (by omega)]
      simp
    · by_cases hr : a + 1 ≤ b ∧ b < a + 1 + n
      · rw [if_pos hr, if_pos (by omega)]
        apply BitVec.eq_of_getLsbD_eq
        intro i hi
        simp only [BitVec.getLsbD_extractLsb', BitVec.getLsbD_ushiftRight, hi, decide_true, Bool.true_and]
        congr 1
        omega
      · rw [if_neg hr, if_neg hb, if_neg (by omega)]

/-- What `memWrite` can do (R43): it raises exactly when out of range, else it is the sized write. -/
theorem memWrite_eq_some {m m' : Memory} {memSize n : Nat} {addr v : Word} :
    memWrite m memSize addr n v = some m' ↔ addr.toNat + n ≤ memSize ∧ m' = m.writeLE addr.toNat n v := by
  unfold memWrite outOfRange
  split
  · simp; omega
  · simp only [Option.some.injEq, eq_comm (a := m')]; constructor
    · intro h; exact ⟨by omega, h⟩
    · exact fun h => h.2

/-! ### Sized reads -/

theorem Memory.readLE_lt (m : Memory) (a n : Nat) : m.readLE a n < 256 ^ n := by
  induction n generalizing a with
  | zero => simp [Memory.readLE]
  | succ n ih =>
    have h1 := ih (a + 1)
    have h2 := (m.read a).isLt
    simp only [Memory.readLE, pow_succ]
    omega

/-- Byte `k` of a sized read is the byte of memory at `a + k` (R42). -/
theorem Memory.readLE_byte (m : Memory) (a n k : Nat) (hk : k < n) :
    m.readLE a n / 256 ^ k % 256 = (m.read (a + k)).toNat := by
  induction n generalizing a k with
  | zero => omega
  | succ n ih =>
    have h2 := (m.read a).isLt
    cases k with
    | zero => simp only [Memory.readLE, pow_zero, Nat.div_one, Nat.add_zero]; omega
    | succ k =>
      have := ih (a + 1) k (by omega)
      rw [show a + 1 + k = a + (k + 1) by omega] at this
      rw [← this, Memory.readLE, pow_succ', ← Nat.div_div_eq_div_mul]
      congr 2
      omega

/-- What `memRead` can do (R42): it raises exactly when out of range, else it is the sized read. -/
theorem memRead_eq_some {m : Memory} {memSize n : Nat} {addr v : Word} :
    memRead m memSize addr n = some v ↔ addr.toNat + n ≤ memSize ∧ v = BitVec.ofNat 32 (m.readLE addr.toNat n) := by
  unfold memRead outOfRange
  split
  · simp; omega
  · simp only [Option.some.injEq, eq_comm (a := v)]; constructor
    · intro h; exact ⟨by omega, h⟩
    · exact fun h => h.2

theorem memRead_isSome {m : Memory} {memSize n : Nat} {addr : Word} :
    (memRead m memSize addr n).isSome ↔ addr.toNat + n ≤ memSize := by
  unfold memRead outOfRange
  split <;> simp <;> omega

/-- An access out of range raises, whatever the memory holds (R42). -/
theorem memRead_eq_none {m : Memory} {memSize n : Nat} {addr : Word} :
    memRead m memSize addr n = none ↔ memSize < addr.toNat + n := by
  unfold memRead outOfRange
  split <;> simp_all

theorem memWrite_eq_none {m : Memory} {memSize n : Nat} {addr v : Word} :
    memWrite m memSize addr n v = none ↔ memSize < addr.toNat + n := by
  unfold memWrite outOfRange
  split <;> simp_all

/-! ### Little-endian words (R41) -/

/-- Two bytes side by side, as a number. -/
theorem toNat_append_byte {n : Nat} (x : BitVec n) (y : Byte) : (x ++ y).toNat = x.toNat * 256 + y.toNat := by
  rw [BitVec.toNat_append, ← Nat.shiftLeft_add_eq_or_of_lt y.isLt, Nat.shiftLeft_eq]

/-- A one-byte read. -/
theorem Memory.readLE_one (m : Memory) (a : Nat) : (BitVec.ofNat 32 (m.readLE a 1)).setWidth 8 = m.read a := by
  apply BitVec.eq_of_toNat_eq
  have := (m.read a).isLt
  simp [Memory.readLE]

/-- A two-byte read. -/
theorem Memory.readLE_two (m : Memory) (a : Nat) :
    (BitVec.ofNat 32 (m.readLE a 2)).setWidth 16 = m.read (a + 1) ++ m.read a := by
  apply BitVec.eq_of_toNat_eq
  have := (m.read a).isLt
  have := (m.read (a + 1)).isLt
  rw [toNat_append_byte]
  simp [Memory.readLE]
  omega

/-- A four-byte read. -/
theorem Memory.readLE_four (m : Memory) (a : Nat) :
    BitVec.ofNat 32 (m.readLE a 4) = m.read (a + 3) ++ m.read (a + 2) ++ m.read (a + 1) ++ m.read a := by
  apply BitVec.eq_of_toNat_eq
  have := (m.read a).isLt
  have := (m.read (a + 1)).isLt
  have := (m.read (a + 2)).isLt
  have := (m.read (a + 3)).isLt
  rw [toNat_append_byte, toNat_append_byte, toNat_append_byte]
  simp only [Memory.readLE, BitVec.toNat_ofNat, Nat.add_assoc, Nat.reduceAdd]
  omega

end Sys2Proof.Machine
end

