-- ==== Sys2Proof/Laws/State.lean ====
section
/-! SUPPORT. What each named operation and each phase leaves alone: one lemma per field per update, and for each phase one
lemma that says which fields it can write (spec/40_cycle_sequencer.md R87). -/

namespace Sys2Proof.Machine

/-! ### Plain updates -/

@[simp] theorem State.writeReg_pc (s : State) (r : RegIdx) (v : Word) : (s.writeReg r v).pc = s.pc := rfl
@[simp] theorem State.writeReg_mem (s : State) (r : RegIdx) (v : Word) : (s.writeReg r v).mem = s.mem := rfl
@[simp] theorem State.writeReg_rst (s : State) (r : RegIdx) (v : Word) : (s.writeReg r v).rst = s.rst := rfl
@[simp] theorem State.writeReg_rob (s : State) (r : RegIdx) (v : Word) : (s.writeReg r v).rob = s.rob := rfl
@[simp] theorem State.writeReg_rs (s : State) (r : RegIdx) (v : Word) : (s.writeReg r v).rs = s.rs := rfl
@[simp] theorem State.writeReg_lsq (s : State) (r : RegIdx) (v : Word) : (s.writeReg r v).lsq = s.lsq := rfl
@[simp] theorem State.writeReg_fq (s : State) (r : RegIdx) (v : Word) : (s.writeReg r v).fq = s.fq := rfl
@[simp] theorem State.writeReg_cdb (s : State) (r : RegIdx) (v : Word) : (s.writeReg r v).cdb = s.cdb := rfl
@[simp] theorem State.writeReg_robSig (s : State) (r : RegIdx) (v : Word) : (s.writeReg r v).robSig = s.robSig := rfl
@[simp] theorem State.writeReg_lockReq (s : State) (r : RegIdx) (v : Word) : (s.writeReg r v).lockReq = s.lockReq := rfl
@[simp] theorem State.writeReg_unlockReq (s : State) (r : RegIdx) (v : Word) : (s.writeReg r v).unlockReq = s.unlockReq := rfl
@[simp] theorem State.writeReg_commitLatch (s : State) (r : RegIdx) (v : Word) : (s.writeReg r v).commitLatch = s.commitLatch := rfl
@[simp] theorem State.writeReg_lsqOut (s : State) (r : RegIdx) (v : Word) : (s.writeReg r v).lsqOut = s.lsqOut := rfl
@[simp] theorem State.writeReg_execLatch (s : State) (r : RegIdx) (v : Word) : (s.writeReg r v).execLatch = s.execLatch := rfl
@[simp] theorem State.writeReg_halted (s : State) (r : RegIdx) (v : Word) : (s.writeReg r v).halted = s.halted := rfl
@[simp] theorem State.writeReg_fault (s : State) (r : RegIdx) (v : Word) : (s.writeReg r v).fault = s.fault := rfl
@[simp] theorem State.writeReg_faultAddr (s : State) (r : RegIdx) (v : Word) : (s.writeReg r v).faultAddr = s.faultAddr := rfl
@[simp] theorem State.writeReg_cycles (s : State) (r : RegIdx) (v : Word) : (s.writeReg r v).cycles = s.cycles := rfl
@[simp] theorem State.writeReg_rollbacks (s : State) (r : RegIdx) (v : Word) : (s.writeReg r v).rollbacks = s.rollbacks := rfl
@[simp] theorem State.writeReg_fqCap (s : State) (r : RegIdx) (v : Word) : (s.writeReg r v).fqCap = s.fqCap := rfl
@[simp] theorem State.writeReg_memSize (s : State) (r : RegIdx) (v : Word) : (s.writeReg r v).memSize = s.memSize := rfl
@[simp] theorem State.writeReg_maxCycles (s : State) (r : RegIdx) (v : Word) : (s.writeReg r v).maxCycles = s.maxCycles := rfl

@[simp] theorem State.writeRst_x (s : State) (r : RegIdx) (e : RstEntry) : (s.writeRst r e).x = s.x := rfl
@[simp] theorem State.writeRst_pc (s : State) (r : RegIdx) (e : RstEntry) : (s.writeRst r e).pc = s.pc := rfl
@[simp] theorem State.writeRst_mem (s : State) (r : RegIdx) (e : RstEntry) : (s.writeRst r e).mem = s.mem := rfl
@[simp] theorem State.writeRst_rob (s : State) (r : RegIdx) (e : RstEntry) : (s.writeRst r e).rob = s.rob := rfl
@[simp] theorem State.writeRst_rs (s : State) (r : RegIdx) (e : RstEntry) : (s.writeRst r e).rs = s.rs := rfl
@[simp] theorem State.writeRst_lsq (s : State) (r : RegIdx) (e : RstEntry) : (s.writeRst r e).lsq = s.lsq := rfl
@[simp] theorem State.writeRst_fq (s : State) (r : RegIdx) (e : RstEntry) : (s.writeRst r e).fq = s.fq := rfl
@[simp] theorem State.writeRst_cdb (s : State) (r : RegIdx) (e : RstEntry) : (s.writeRst r e).cdb = s.cdb := rfl
@[simp] theorem State.writeRst_robSig (s : State) (r : RegIdx) (e : RstEntry) : (s.writeRst r e).robSig = s.robSig := rfl
@[simp] theorem State.writeRst_lockReq (s : State) (r : RegIdx) (e : RstEntry) : (s.writeRst r e).lockReq = s.lockReq := rfl
@[simp] theorem State.writeRst_unlockReq (s : State) (r : RegIdx) (e : RstEntry) : (s.writeRst r e).unlockReq = s.unlockReq := rfl
@[simp] theorem State.writeRst_commitLatch (s : State) (r : RegIdx) (e : RstEntry) : (s.writeRst r e).commitLatch = s.commitLatch := rfl
@[simp] theorem State.writeRst_lsqOut (s : State) (r : RegIdx) (e : RstEntry) : (s.writeRst r e).lsqOut = s.lsqOut := rfl
@[simp] theorem State.writeRst_execLatch (s : State) (r : RegIdx) (e : RstEntry) : (s.writeRst r e).execLatch = s.execLatch := rfl
@[simp] theorem State.writeRst_halted (s : State) (r : RegIdx) (e : RstEntry) : (s.writeRst r e).halted = s.halted := rfl
@[simp] theorem State.writeRst_fault (s : State) (r : RegIdx) (e : RstEntry) : (s.writeRst r e).fault = s.fault := rfl
@[simp] theorem State.writeRst_faultAddr (s : State) (r : RegIdx) (e : RstEntry) : (s.writeRst r e).faultAddr = s.faultAddr := rfl
@[simp] theorem State.writeRst_cycles (s : State) (r : RegIdx) (e : RstEntry) : (s.writeRst r e).cycles = s.cycles := rfl
@[simp] theorem State.writeRst_rollbacks (s : State) (r : RegIdx) (e : RstEntry) : (s.writeRst r e).rollbacks = s.rollbacks := rfl
@[simp] theorem State.writeRst_fqCap (s : State) (r : RegIdx) (e : RstEntry) : (s.writeRst r e).fqCap = s.fqCap := rfl
@[simp] theorem State.writeRst_memSize (s : State) (r : RegIdx) (e : RstEntry) : (s.writeRst r e).memSize = s.memSize := rfl
@[simp] theorem State.writeRst_maxCycles (s : State) (r : RegIdx) (e : RstEntry) : (s.writeRst r e).maxCycles = s.maxCycles := rfl

@[simp] theorem State.forceZero_pc (s : State) : (s.forceZero).pc = s.pc := rfl
@[simp] theorem State.forceZero_mem (s : State) : (s.forceZero).mem = s.mem := rfl
@[simp] theorem State.forceZero_rst (s : State) : (s.forceZero).rst = s.rst := rfl
@[simp] theorem State.forceZero_rob (s : State) : (s.forceZero).rob = s.rob := rfl
@[simp] theorem State.forceZero_rs (s : State) : (s.forceZero).rs = s.rs := rfl
@[simp] theorem State.forceZero_lsq (s : State) : (s.forceZero).lsq = s.lsq := rfl
@[simp] theorem State.forceZero_fq (s : State) : (s.forceZero).fq = s.fq := rfl
@[simp] theorem State.forceZero_cdb (s : State) : (s.forceZero).cdb = s.cdb := rfl
@[simp] theorem State.forceZero_robSig (s : State) : (s.forceZero).robSig = s.robSig := rfl
@[simp] theorem State.forceZero_lockReq (s : State) : (s.forceZero).lockReq = s.lockReq := rfl
@[simp] theorem State.forceZero_unlockReq (s : State) : (s.forceZero).unlockReq = s.unlockReq := rfl
@[simp] theorem State.forceZero_commitLatch (s : State) : (s.forceZero).commitLatch = s.commitLatch := rfl
@[simp] theorem State.forceZero_lsqOut (s : State) : (s.forceZero).lsqOut = s.lsqOut := rfl
@[simp] theorem State.forceZero_execLatch (s : State) : (s.forceZero).execLatch = s.execLatch := rfl
@[simp] theorem State.forceZero_halted (s : State) : (s.forceZero).halted = s.halted := rfl
@[simp] theorem State.forceZero_fault (s : State) : (s.forceZero).fault = s.fault := rfl
@[simp] theorem State.forceZero_faultAddr (s : State) : (s.forceZero).faultAddr = s.faultAddr := rfl
@[simp] theorem State.forceZero_cycles (s : State) : (s.forceZero).cycles = s.cycles := rfl
@[simp] theorem State.forceZero_rollbacks (s : State) : (s.forceZero).rollbacks = s.rollbacks := rfl
@[simp] theorem State.forceZero_fqCap (s : State) : (s.forceZero).fqCap = s.fqCap := rfl
@[simp] theorem State.forceZero_memSize (s : State) : (s.forceZero).memSize = s.memSize := rfl
@[simp] theorem State.forceZero_maxCycles (s : State) : (s.forceZero).maxCycles = s.maxCycles := rfl

@[simp] theorem State.raise_x (s : State) (c : Condition) : (s.raise c).x = s.x := by cases c <;> rfl
@[simp] theorem State.raise_pc (s : State) (c : Condition) : (s.raise c).pc = s.pc := by cases c <;> rfl
@[simp] theorem State.raise_mem (s : State) (c : Condition) : (s.raise c).mem = s.mem := by cases c <;> rfl
@[simp] theorem State.raise_rst (s : State) (c : Condition) : (s.raise c).rst = s.rst := by cases c <;> rfl
@[simp] theorem State.raise_rob (s : State) (c : Condition) : (s.raise c).rob = s.rob := by cases c <;> rfl
@[simp] theorem State.raise_rs (s : State) (c : Condition) : (s.raise c).rs = s.rs := by cases c <;> rfl
@[simp] theorem State.raise_lsq (s : State) (c : Condition) : (s.raise c).lsq = s.lsq := by cases c <;> rfl
@[simp] theorem State.raise_fq (s : State) (c : Condition) : (s.raise c).fq = s.fq := by cases c <;> rfl
@[simp] theorem State.raise_cdb (s : State) (c : Condition) : (s.raise c).cdb = s.cdb := by cases c <;> rfl
@[simp] theorem State.raise_robSig (s : State) (c : Condition) : (s.raise c).robSig = s.robSig := by cases c <;> rfl
@[simp] theorem State.raise_lockReq (s : State) (c : Condition) : (s.raise c).lockReq = s.lockReq := by cases c <;> rfl
@[simp] theorem State.raise_unlockReq (s : State) (c : Condition) : (s.raise c).unlockReq = s.unlockReq := by cases c <;> rfl
@[simp] theorem State.raise_commitLatch (s : State) (c : Condition) : (s.raise c).commitLatch = s.commitLatch := by cases c <;> rfl
@[simp] theorem State.raise_lsqOut (s : State) (c : Condition) : (s.raise c).lsqOut = s.lsqOut := by cases c <;> rfl
@[simp] theorem State.raise_execLatch (s : State) (c : Condition) : (s.raise c).execLatch = s.execLatch := by cases c <;> rfl
@[simp] theorem State.raise_halted (s : State) (c : Condition) : (s.raise c).halted = s.halted := by cases c <;> rfl
@[simp] theorem State.raise_cycles (s : State) (c : Condition) : (s.raise c).cycles = s.cycles := by cases c <;> rfl
@[simp] theorem State.raise_rollbacks (s : State) (c : Condition) : (s.raise c).rollbacks = s.rollbacks := by cases c <;> rfl
@[simp] theorem State.raise_fqCap (s : State) (c : Condition) : (s.raise c).fqCap = s.fqCap := by cases c <;> rfl
@[simp] theorem State.raise_memSize (s : State) (c : Condition) : (s.raise c).memSize = s.memSize := by cases c <;> rfl
@[simp] theorem State.raise_maxCycles (s : State) (c : Condition) : (s.raise c).maxCycles = s.maxCycles := by cases c <;> rfl

@[simp] theorem State.rollback_x (s : State) (target : Word) : (s.rollback target).x = s.x := rfl
@[simp] theorem State.rollback_mem (s : State) (target : Word) : (s.rollback target).mem = s.mem := rfl
@[simp] theorem State.rollback_halted (s : State) (target : Word) : (s.rollback target).halted = s.halted := rfl
@[simp] theorem State.rollback_fault (s : State) (target : Word) : (s.rollback target).fault = s.fault := rfl
@[simp] theorem State.rollback_faultAddr (s : State) (target : Word) : (s.rollback target).faultAddr = s.faultAddr := rfl
@[simp] theorem State.rollback_cycles (s : State) (target : Word) : (s.rollback target).cycles = s.cycles := rfl
@[simp] theorem State.rollback_fqCap (s : State) (target : Word) : (s.rollback target).fqCap = s.fqCap := rfl
@[simp] theorem State.rollback_memSize (s : State) (target : Word) : (s.rollback target).memSize = s.memSize := rfl
@[simp] theorem State.rollback_maxCycles (s : State) (target : Word) : (s.rollback target).maxCycles = s.maxCycles := rfl

@[simp] theorem State.rollback_pc (s : State) (target : Word) : (s.rollback target).pc = target := rfl
@[simp] theorem State.rollback_rollbacks (s : State) (target : Word) :
    (s.rollback target).rollbacks = s.rollbacks + 1 := rfl

/-! ### Phases whose text is a plain update -/

@[simp] theorem State.phaseF_x (s : State) : (s.phaseF).x = s.x := rfl
@[simp] theorem State.phaseF_pc (s : State) : (s.phaseF).pc = s.pc := rfl
@[simp] theorem State.phaseF_mem (s : State) : (s.phaseF).mem = s.mem := rfl
@[simp] theorem State.phaseF_rst (s : State) : (s.phaseF).rst = s.rst := rfl
@[simp] theorem State.phaseF_rob (s : State) : (s.phaseF).rob = s.rob := rfl
@[simp] theorem State.phaseF_rs (s : State) : (s.phaseF).rs = s.rs := rfl
@[simp] theorem State.phaseF_lsq (s : State) : (s.phaseF).lsq = s.lsq := rfl
@[simp] theorem State.phaseF_fq (s : State) : (s.phaseF).fq = s.fq := rfl
@[simp] theorem State.phaseF_commitLatch (s : State) : (s.phaseF).commitLatch = s.commitLatch := rfl
@[simp] theorem State.phaseF_lsqOut (s : State) : (s.phaseF).lsqOut = s.lsqOut := rfl
@[simp] theorem State.phaseF_execLatch (s : State) : (s.phaseF).execLatch = s.execLatch := rfl
@[simp] theorem State.phaseF_halted (s : State) : (s.phaseF).halted = s.halted := rfl
@[simp] theorem State.phaseF_fault (s : State) : (s.phaseF).fault = s.fault := rfl
@[simp] theorem State.phaseF_faultAddr (s : State) : (s.phaseF).faultAddr = s.faultAddr := rfl
@[simp] theorem State.phaseF_cycles (s : State) : (s.phaseF).cycles = s.cycles := rfl
@[simp] theorem State.phaseF_rollbacks (s : State) : (s.phaseF).rollbacks = s.rollbacks := rfl
@[simp] theorem State.phaseF_fqCap (s : State) : (s.phaseF).fqCap = s.fqCap := rfl
@[simp] theorem State.phaseF_memSize (s : State) : (s.phaseF).memSize = s.memSize := rfl
@[simp] theorem State.phaseF_maxCycles (s : State) : (s.phaseF).maxCycles = s.maxCycles := rfl

@[simp] theorem State.phaseF_cdb (s : State) : s.phaseF.cdb = [] := rfl
@[simp] theorem State.phaseF_robSig (s : State) : s.phaseF.robSig = [] := rfl
@[simp] theorem State.phaseF_lockReq (s : State) : s.phaseF.lockReq = none := rfl
@[simp] theorem State.phaseF_unlockReq (s : State) : s.phaseF.unlockReq = none := rfl

@[simp] theorem State.phaseG_x (s : State) : (s.phaseG).x = s.x := rfl
@[simp] theorem State.phaseG_pc (s : State) : (s.phaseG).pc = s.pc := rfl
@[simp] theorem State.phaseG_mem (s : State) : (s.phaseG).mem = s.mem := rfl
@[simp] theorem State.phaseG_rst (s : State) : (s.phaseG).rst = s.rst := rfl
@[simp] theorem State.phaseG_rob (s : State) : (s.phaseG).rob = s.rob := rfl
@[simp] theorem State.phaseG_rs (s : State) : (s.phaseG).rs = s.rs := rfl
@[simp] theorem State.phaseG_lsq (s : State) : (s.phaseG).lsq = s.lsq := rfl
@[simp] theorem State.phaseG_fq (s : State) : (s.phaseG).fq = s.fq := rfl
@[simp] theorem State.phaseG_lockReq (s : State) : (s.phaseG).lockReq = s.lockReq := rfl
@[simp] theorem State.phaseG_unlockReq (s : State) : (s.phaseG).unlockReq = s.unlockReq := rfl
@[simp] theorem State.phaseG_commitLatch (s : State) : (s.phaseG).commitLatch = s.commitLatch := rfl
@[simp] theorem State.phaseG_halted (s : State) : (s.phaseG).halted = s.halted := rfl
@[simp] theorem State.phaseG_fault (s : State) : (s.phaseG).fault = s.fault := rfl
@[simp] theorem State.phaseG_faultAddr (s : State) : (s.phaseG).faultAddr = s.faultAddr := rfl
@[simp] theorem State.phaseG_cycles (s : State) : (s.phaseG).cycles = s.cycles := rfl
@[simp] theorem State.phaseG_rollbacks (s : State) : (s.phaseG).rollbacks = s.rollbacks := rfl
@[simp] theorem State.phaseG_fqCap (s : State) : (s.phaseG).fqCap = s.fqCap := rfl
@[simp] theorem State.phaseG_memSize (s : State) : (s.phaseG).memSize = s.memSize := rfl
@[simp] theorem State.phaseG_maxCycles (s : State) : (s.phaseG).maxCycles = s.maxCycles := rfl

@[simp] theorem State.phaseG_execLatch (s : State) : s.phaseG.execLatch = none := rfl
@[simp] theorem State.phaseG_lsqOut (s : State) : s.phaseG.lsqOut = none := rfl

@[simp] theorem State.phaseC_x (s : State) : (s.phaseC).x = s.x := rfl
@[simp] theorem State.phaseC_pc (s : State) : (s.phaseC).pc = s.pc := rfl
@[simp] theorem State.phaseC_mem (s : State) : (s.phaseC).mem = s.mem := rfl
@[simp] theorem State.phaseC_rst (s : State) : (s.phaseC).rst = s.rst := rfl
@[simp] theorem State.phaseC_rob (s : State) : (s.phaseC).rob = s.rob := rfl
@[simp] theorem State.phaseC_lsq (s : State) : (s.phaseC).lsq = s.lsq := rfl
@[simp] theorem State.phaseC_fq (s : State) : (s.phaseC).fq = s.fq := rfl
@[simp] theorem State.phaseC_cdb (s : State) : (s.phaseC).cdb = s.cdb := rfl
@[simp] theorem State.phaseC_robSig (s : State) : (s.phaseC).robSig = s.robSig := rfl
@[simp] theorem State.phaseC_lockReq (s : State) : (s.phaseC).lockReq = s.lockReq := rfl
@[simp] theorem State.phaseC_unlockReq (s : State) : (s.phaseC).unlockReq = s.unlockReq := rfl
@[simp] theorem State.phaseC_commitLatch (s : State) : (s.phaseC).commitLatch = s.commitLatch := rfl
@[simp] theorem State.phaseC_lsqOut (s : State) : (s.phaseC).lsqOut = s.lsqOut := rfl
@[simp] theorem State.phaseC_halted (s : State) : (s.phaseC).halted = s.halted := rfl
@[simp] theorem State.phaseC_fault (s : State) : (s.phaseC).fault = s.fault := rfl
@[simp] theorem State.phaseC_faultAddr (s : State) : (s.phaseC).faultAddr = s.faultAddr := rfl
@[simp] theorem State.phaseC_cycles (s : State) : (s.phaseC).cycles = s.cycles := rfl
@[simp] theorem State.phaseC_rollbacks (s : State) : (s.phaseC).rollbacks = s.rollbacks := rfl
@[simp] theorem State.phaseC_fqCap (s : State) : (s.phaseC).fqCap = s.fqCap := rfl
@[simp] theorem State.phaseC_memSize (s : State) : (s.phaseC).memSize = s.memSize := rfl
@[simp] theorem State.phaseC_maxCycles (s : State) : (s.phaseC).maxCycles = s.maxCycles := rfl

@[simp] theorem State.lsqCapture_x (s : State) : (s.lsqCapture).x = s.x := rfl
@[simp] theorem State.lsqCapture_pc (s : State) : (s.lsqCapture).pc = s.pc := rfl
@[simp] theorem State.lsqCapture_mem (s : State) : (s.lsqCapture).mem = s.mem := rfl
@[simp] theorem State.lsqCapture_rst (s : State) : (s.lsqCapture).rst = s.rst := rfl
@[simp] theorem State.lsqCapture_rob (s : State) : (s.lsqCapture).rob = s.rob := rfl
@[simp] theorem State.lsqCapture_rs (s : State) : (s.lsqCapture).rs = s.rs := rfl
@[simp] theorem State.lsqCapture_fq (s : State) : (s.lsqCapture).fq = s.fq := rfl
@[simp] theorem State.lsqCapture_cdb (s : State) : (s.lsqCapture).cdb = s.cdb := rfl
@[simp] theorem State.lsqCapture_robSig (s : State) : (s.lsqCapture).robSig = s.robSig := rfl
@[simp] theorem State.lsqCapture_lockReq (s : State) : (s.lsqCapture).lockReq = s.lockReq := rfl
@[simp] theorem State.lsqCapture_unlockReq (s : State) : (s.lsqCapture).unlockReq = s.unlockReq := rfl
@[simp] theorem State.lsqCapture_commitLatch (s : State) : (s.lsqCapture).commitLatch = s.commitLatch := rfl
@[simp] theorem State.lsqCapture_lsqOut (s : State) : (s.lsqCapture).lsqOut = s.lsqOut := rfl
@[simp] theorem State.lsqCapture_execLatch (s : State) : (s.lsqCapture).execLatch = s.execLatch := rfl
@[simp] theorem State.lsqCapture_halted (s : State) : (s.lsqCapture).halted = s.halted := rfl
@[simp] theorem State.lsqCapture_fault (s : State) : (s.lsqCapture).fault = s.fault := rfl
@[simp] theorem State.lsqCapture_faultAddr (s : State) : (s.lsqCapture).faultAddr = s.faultAddr := rfl
@[simp] theorem State.lsqCapture_cycles (s : State) : (s.lsqCapture).cycles = s.cycles := rfl
@[simp] theorem State.lsqCapture_rollbacks (s : State) : (s.lsqCapture).rollbacks = s.rollbacks := rfl
@[simp] theorem State.lsqCapture_fqCap (s : State) : (s.lsqCapture).fqCap = s.fqCap := rfl
@[simp] theorem State.lsqCapture_memSize (s : State) : (s.lsqCapture).memSize = s.memSize := rfl
@[simp] theorem State.lsqCapture_maxCycles (s : State) : (s.lsqCapture).maxCycles = s.maxCycles := rfl

@[simp] theorem State.robCapture_x (s : State) : (s.robCapture).x = s.x := rfl
@[simp] theorem State.robCapture_pc (s : State) : (s.robCapture).pc = s.pc := rfl
@[simp] theorem State.robCapture_mem (s : State) : (s.robCapture).mem = s.mem := rfl
@[simp] theorem State.robCapture_rst (s : State) : (s.robCapture).rst = s.rst := rfl
@[simp] theorem State.robCapture_rs (s : State) : (s.robCapture).rs = s.rs := rfl
@[simp] theorem State.robCapture_lsq (s : State) : (s.robCapture).lsq = s.lsq := rfl
@[simp] theorem State.robCapture_fq (s : State) : (s.robCapture).fq = s.fq := rfl
@[simp] theorem State.robCapture_cdb (s : State) : (s.robCapture).cdb = s.cdb := rfl
@[simp] theorem State.robCapture_robSig (s : State) : (s.robCapture).robSig = s.robSig := rfl
@[simp] theorem State.robCapture_lockReq (s : State) : (s.robCapture).lockReq = s.lockReq := rfl
@[simp] theorem State.robCapture_unlockReq (s : State) : (s.robCapture).unlockReq = s.unlockReq := rfl
@[simp] theorem State.robCapture_commitLatch (s : State) : (s.robCapture).commitLatch = s.commitLatch := rfl
@[simp] theorem State.robCapture_lsqOut (s : State) : (s.robCapture).lsqOut = s.lsqOut := rfl
@[simp] theorem State.robCapture_execLatch (s : State) : (s.robCapture).execLatch = s.execLatch := rfl
@[simp] theorem State.robCapture_halted (s : State) : (s.robCapture).halted = s.halted := rfl
@[simp] theorem State.robCapture_fault (s : State) : (s.robCapture).fault = s.fault := rfl
@[simp] theorem State.robCapture_faultAddr (s : State) : (s.robCapture).faultAddr = s.faultAddr := rfl
@[simp] theorem State.robCapture_cycles (s : State) : (s.robCapture).cycles = s.cycles := rfl
@[simp] theorem State.robCapture_rollbacks (s : State) : (s.robCapture).rollbacks = s.rollbacks := rfl
@[simp] theorem State.robCapture_fqCap (s : State) : (s.robCapture).fqCap = s.fqCap := rfl
@[simp] theorem State.robCapture_memSize (s : State) : (s.robCapture).memSize = s.memSize := rfl
@[simp] theorem State.robCapture_maxCycles (s : State) : (s.robCapture).maxCycles = s.maxCycles := rfl

/-! ### Phases with cases -/

/-- Phase (a) writes the reorder buffer and the commit latch only. -/
theorem State.phaseA_writes (s : State) :
    ∃ rob latch, s.phaseA = { s with rob := rob, commitLatch := latch } := by
  unfold State.phaseA State.robPop
  split
  · split
    · exact ⟨_, _, rfl⟩
    · exact ⟨_, _, rfl⟩
  · exact ⟨_, _, rfl⟩

/-- Unlocking and locking write the register status table only. -/
theorem State.phaseD_writes (s : State) : ∃ rst, s.phaseD = { s with rst := rst } := by
  have hu : ∃ rst, s.applyUnlock = { s with rst := rst } := by
    unfold State.applyUnlock State.unlock
    split
    · split
      · exact ⟨_, rfl⟩
      · exact ⟨s.rst, rfl⟩
    · exact ⟨s.rst, rfl⟩
  obtain ⟨rst, h⟩ := hu
  unfold State.phaseD
  rw [h]
  unfold State.applyLock State.lock
  split
  · exact ⟨_, rfl⟩
  · exact ⟨rst, rfl⟩

/-- Enqueueing writes the fetch queue and the pc only. -/
theorem State.enqueue_writes (s : State) (r : Record) : ∃ fq pc, s.enqueue r = { s with fq := fq, pc := pc } := by
  unfold State.enqueue
  split
  · exact ⟨_, _, rfl⟩
  · exact ⟨s.fq, s.pc, rfl⟩

/-- Dispatch writes the fetch queue, the reorder buffer, the stations, the load-store queue and the staged lock
only. -/
theorem State.dispatch_writes (s : State) (r : Record) (rest : List Record) :
    ∃ rs lsq, s.dispatch r rest =
      { s with fq := rest, rob := s.rob.push r.robEntry, lockReq := (r.lock s.rob.tail).or s.lockReq, rs := rs,
               lsq := lsq } := by
  unfold State.dispatch
  cases r.op with
  | rs op => exact ⟨_, s.lsq, rfl⟩
  | mem op => exact ⟨s.rs, _, rfl⟩
  | halt => exact ⟨s.rs, s.lsq, rfl⟩

/-- Phase (h) writes the same structures as a dispatch. -/
theorem State.phaseH_writes (s : State) :
    ∃ fq rob lock rs lsq, s.phaseH = { s with fq := fq, rob := rob, lockReq := lock, rs := rs, lsq := lsq } := by
  unfold State.phaseH
  split
  · exact ⟨s.fq, s.rob, s.lockReq, s.rs, s.lsq, rfl⟩
  · rename_i r rest _
    split
    · obtain ⟨rs, lsq, h⟩ := s.dispatch_writes r rest
      exact ⟨_, _, _, rs, lsq, h⟩
    · exact ⟨s.fq, s.rob, s.lockReq, s.rs, s.lsq, rfl⟩

@[simp] theorem State.phaseA_x (s : State) : (s.phaseA).x = s.x := by
  obtain ⟨_, _, h⟩ := s.phaseA_writes; rw [h]
@[simp] theorem State.phaseA_pc (s : State) : (s.phaseA).pc = s.pc := by
  obtain ⟨_, _, h⟩ := s.phaseA_writes; rw [h]
@[simp] theorem State.phaseA_mem (s : State) : (s.phaseA).mem = s.mem := by
  obtain ⟨_, _, h⟩ := s.phaseA_writes; rw [h]
@[simp] theorem State.phaseA_rst (s : State) : (s.phaseA).rst = s.rst := by
  obtain ⟨_, _, h⟩ := s.phaseA_writes; rw [h]
@[simp] theorem State.phaseA_rs (s : State) : (s.phaseA).rs = s.rs := by
  obtain ⟨_, _, h⟩ := s.phaseA_writes; rw [h]
@[simp] theorem State.phaseA_lsq (s : State) : (s.phaseA).lsq = s.lsq := by
  obtain ⟨_, _, h⟩ := s.phaseA_writes; rw [h]
@[simp] theorem State.phaseA_fq (s : State) : (s.phaseA).fq = s.fq := by
  obtain ⟨_, _, h⟩ := s.phaseA_writes; rw [h]
@[simp] theorem State.phaseA_cdb (s : State) : (s.phaseA).cdb = s.cdb := by
  obtain ⟨_, _, h⟩ := s.phaseA_writes; rw [h]
@[simp] theorem State.phaseA_robSig (s : State) : (s.phaseA).robSig = s.robSig := by
  obtain ⟨_, _, h⟩ := s.phaseA_writes; rw [h]
@[simp] theorem State.phaseA_lockReq (s : State) : (s.phaseA).lockReq = s.lockReq := by
  obtain ⟨_, _, h⟩ := s.phaseA_writes; rw [h]
@[simp] theorem State.phaseA_unlockReq (s : State) : (s.phaseA).unlockReq = s.unlockReq := by
  obtain ⟨_, _, h⟩ := s.phaseA_writes; rw [h]
@[simp] theorem State.phaseA_lsqOut (s : State) : (s.phaseA).lsqOut = s.lsqOut := by
  obtain ⟨_, _, h⟩ := s.phaseA_writes; rw [h]
@[simp] theorem State.phaseA_execLatch (s : State) : (s.phaseA).execLatch = s.execLatch := by
  obtain ⟨_, _, h⟩ := s.phaseA_writes; rw [h]
@[simp] theorem State.phaseA_halted (s : State) : (s.phaseA).halted = s.halted := by
  obtain ⟨_, _, h⟩ := s.phaseA_writes; rw [h]
@[simp] theorem State.phaseA_fault (s : State) : (s.phaseA).fault = s.fault := by
  obtain ⟨_, _, h⟩ := s.phaseA_writes; rw [h]
@[simp] theorem State.phaseA_faultAddr (s : State) : (s.phaseA).faultAddr = s.faultAddr := by
  obtain ⟨_, _, h⟩ := s.phaseA_writes; rw [h]
@[simp] theorem State.phaseA_cycles (s : State) : (s.phaseA).cycles = s.cycles := by
  obtain ⟨_, _, h⟩ := s.phaseA_writes; rw [h]
@[simp] theorem State.phaseA_rollbacks (s : State) : (s.phaseA).rollbacks = s.rollbacks := by
  obtain ⟨_, _, h⟩ := s.phaseA_writes; rw [h]
@[simp] theorem State.phaseA_fqCap (s : State) : (s.phaseA).fqCap = s.fqCap := by
  obtain ⟨_, _, h⟩ := s.phaseA_writes; rw [h]
@[simp] theorem State.phaseA_memSize (s : State) : (s.phaseA).memSize = s.memSize := by
  obtain ⟨_, _, h⟩ := s.phaseA_writes; rw [h]
@[simp] theorem State.phaseA_maxCycles (s : State) : (s.phaseA).maxCycles = s.maxCycles := by
  obtain ⟨_, _, h⟩ := s.phaseA_writes; rw [h]

@[simp] theorem State.phaseD_x (s : State) : (s.phaseD).x = s.x := by
  obtain ⟨_, h⟩ := s.phaseD_writes; rw [h]
@[simp] theorem State.phaseD_pc (s : State) : (s.phaseD).pc = s.pc := by
  obtain ⟨_, h⟩ := s.phaseD_writes; rw [h]
@[simp] theorem State.phaseD_mem (s : State) : (s.phaseD).mem = s.mem := by
  obtain ⟨_, h⟩ := s.phaseD_writes; rw [h]
@[simp] theorem State.phaseD_rob (s : State) : (s.phaseD).rob = s.rob := by
  obtain ⟨_, h⟩ := s.phaseD_writes; rw [h]
@[simp] theorem State.phaseD_rs (s : State) : (s.phaseD).rs = s.rs := by
  obtain ⟨_, h⟩ := s.phaseD_writes; rw [h]
@[simp] theorem State.phaseD_lsq (s : State) : (s.phaseD).lsq = s.lsq := by
  obtain ⟨_, h⟩ := s.phaseD_writes; rw [h]
@[simp] theorem State.phaseD_fq (s : State) : (s.phaseD).fq = s.fq := by
  obtain ⟨_, h⟩ := s.phaseD_writes; rw [h]
@[simp] theorem State.phaseD_cdb (s : State) : (s.phaseD).cdb = s.cdb := by
  obtain ⟨_, h⟩ := s.phaseD_writes; rw [h]
@[simp] theorem State.phaseD_robSig (s : State) : (s.phaseD).robSig = s.robSig := by
  obtain ⟨_, h⟩ := s.phaseD_writes; rw [h]
@[simp] theorem State.phaseD_lockReq (s : State) : (s.phaseD).lockReq = s.lockReq := by
  obtain ⟨_, h⟩ := s.phaseD_writes; rw [h]
@[simp] theorem State.phaseD_unlockReq (s : State) : (s.phaseD).unlockReq = s.unlockReq := by
  obtain ⟨_, h⟩ := s.phaseD_writes; rw [h]
@[simp] theorem State.phaseD_commitLatch (s : State) : (s.phaseD).commitLatch = s.commitLatch := by
  obtain ⟨_, h⟩ := s.phaseD_writes; rw [h]
@[simp] theorem State.phaseD_lsqOut (s : State) : (s.phaseD).lsqOut = s.lsqOut := by
  obtain ⟨_, h⟩ := s.phaseD_writes; rw [h]
@[simp] theorem State.phaseD_execLatch (s : State) : (s.phaseD).execLatch = s.execLatch := by
  obtain ⟨_, h⟩ := s.phaseD_writes; rw [h]
@[simp] theorem State.phaseD_halted (s : State) : (s.phaseD).halted = s.halted := by
  obtain ⟨_, h⟩ := s.phaseD_writes; rw [h]
@[simp] theorem State.phaseD_fault (s : State) : (s.phaseD).fault = s.fault := by
  obtain ⟨_, h⟩ := s.phaseD_writes; rw [h]
@[simp] theorem State.phaseD_faultAddr (s : State) : (s.phaseD).faultAddr = s.faultAddr := by
  obtain ⟨_, h⟩ := s.phaseD_writes; rw [h]
@[simp] theorem State.phaseD_cycles (s : State) : (s.phaseD).cycles = s.cycles := by
  obtain ⟨_, h⟩ := s.phaseD_writes; rw [h]
@[simp] theorem State.phaseD_rollbacks (s : State) : (s.phaseD).rollbacks = s.rollbacks := by
  obtain ⟨_, h⟩ := s.phaseD_writes; rw [h]
@[simp] theorem State.phaseD_fqCap (s : State) : (s.phaseD).fqCap = s.fqCap := by
  obtain ⟨_, h⟩ := s.phaseD_writes; rw [h]
@[simp] theorem State.phaseD_memSize (s : State) : (s.phaseD).memSize = s.memSize := by
  obtain ⟨_, h⟩ := s.phaseD_writes; rw [h]
@[simp] theorem State.phaseD_maxCycles (s : State) : (s.phaseD).maxCycles = s.maxCycles := by
  obtain ⟨_, h⟩ := s.phaseD_writes; rw [h]

@[simp] theorem State.enqueue_x (s : State) (r : Record) : (s.enqueue r).x = s.x := by
  obtain ⟨_, _, h⟩ := s.enqueue_writes r; rw [h]
@[simp] theorem State.enqueue_mem (s : State) (r : Record) : (s.enqueue r).mem = s.mem := by
  obtain ⟨_, _, h⟩ := s.enqueue_writes r; rw [h]
@[simp] theorem State.enqueue_rst (s : State) (r : Record) : (s.enqueue r).rst = s.rst := by
  obtain ⟨_, _, h⟩ := s.enqueue_writes r; rw [h]
@[simp] theorem State.enqueue_rob (s : State) (r : Record) : (s.enqueue r).rob = s.rob := by
  obtain ⟨_, _, h⟩ := s.enqueue_writes r; rw [h]
@[simp] theorem State.enqueue_rs (s : State) (r : Record) : (s.enqueue r).rs = s.rs := by
  obtain ⟨_, _, h⟩ := s.enqueue_writes r; rw [h]
@[simp] theorem State.enqueue_lsq (s : State) (r : Record) : (s.enqueue r).lsq = s.lsq := by
  obtain ⟨_, _, h⟩ := s.enqueue_writes r; rw [h]
@[simp] theorem State.enqueue_cdb (s : State) (r : Record) : (s.enqueue r).cdb = s.cdb := by
  obtain ⟨_, _, h⟩ := s.enqueue_writes r; rw [h]
@[simp] theorem State.enqueue_robSig (s : State) (r : Record) : (s.enqueue r).robSig = s.robSig := by
  obtain ⟨_, _, h⟩ := s.enqueue_writes r; rw [h]
@[simp] theorem State.enqueue_lockReq (s : State) (r : Record) : (s.enqueue r).lockReq = s.lockReq := by
  obtain ⟨_, _, h⟩ := s.enqueue_writes r; rw [h]
@[simp] theorem State.enqueue_unlockReq (s : State) (r : Record) : (s.enqueue r).unlockReq = s.unlockReq := by
  obtain ⟨_, _, h⟩ := s.enqueue_writes r; rw [h]
@[simp] theorem State.enqueue_commitLatch (s : State) (r : Record) : (s.enqueue r).commitLatch = s.commitLatch := by
  obtain ⟨_, _, h⟩ := s.enqueue_writes r; rw [h]
@[simp] theorem State.enqueue_lsqOut (s : State) (r : Record) : (s.enqueue r).lsqOut = s.lsqOut := by
  obtain ⟨_, _, h⟩ := s.enqueue_writes r; rw [h]
@[simp] theorem State.enqueue_execLatch (s : State) (r : Record) : (s.enqueue r).execLatch = s.execLatch := by
  obtain ⟨_, _, h⟩ := s.enqueue_writes r; rw [h]
@[simp] theorem State.enqueue_halted (s : State) (r : Record) : (s.enqueue r).halted = s.halted := by
  obtain ⟨_, _, h⟩ := s.enqueue_writes r; rw [h]
@[simp] theorem State.enqueue_fault (s : State) (r : Record) : (s.enqueue r).fault = s.fault := by
  obtain ⟨_, _, h⟩ := s.enqueue_writes r; rw [h]
@[simp] theorem State.enqueue_faultAddr (s : State) (r : Record) : (s.enqueue r).faultAddr = s.faultAddr := by
  obtain ⟨_, _, h⟩ := s.enqueue_writes r; rw [h]
@[simp] theorem State.enqueue_cycles (s : State) (r : Record) : (s.enqueue r).cycles = s.cycles := by
  obtain ⟨_, _, h⟩ := s.enqueue_writes r; rw [h]
@[simp] theorem State.enqueue_rollbacks (s : State) (r : Record) : (s.enqueue r).rollbacks = s.rollbacks := by
  obtain ⟨_, _, h⟩ := s.enqueue_writes r; rw [h]
@[simp] theorem State.enqueue_fqCap (s : State) (r : Record) : (s.enqueue r).fqCap = s.fqCap := by
  obtain ⟨_, _, h⟩ := s.enqueue_writes r; rw [h]
@[simp] theorem State.enqueue_memSize (s : State) (r : Record) : (s.enqueue r).memSize = s.memSize := by
  obtain ⟨_, _, h⟩ := s.enqueue_writes r; rw [h]
@[simp] theorem State.enqueue_maxCycles (s : State) (r : Record) : (s.enqueue r).maxCycles = s.maxCycles := by
  obtain ⟨_, _, h⟩ := s.enqueue_writes r; rw [h]

@[simp] theorem State.phaseH_x (s : State) : (s.phaseH).x = s.x := by
  obtain ⟨_, _, _, _, _, h⟩ := s.phaseH_writes; rw [h]
@[simp] theorem State.phaseH_pc (s : State) : (s.phaseH).pc = s.pc := by
  obtain ⟨_, _, _, _, _, h⟩ := s.phaseH_writes; rw [h]
@[simp] theorem State.phaseH_mem (s : State) : (s.phaseH).mem = s.mem := by
  obtain ⟨_, _, _, _, _, h⟩ := s.phaseH_writes; rw [h]
@[simp] theorem State.phaseH_rst (s : State) : (s.phaseH).rst = s.rst := by
  obtain ⟨_, _, _, _, _, h⟩ := s.phaseH_writes; rw [h]
@[simp] theorem State.phaseH_cdb (s : State) : (s.phaseH).cdb = s.cdb := by
  obtain ⟨_, _, _, _, _, h⟩ := s.phaseH_writes; rw [h]
@[simp] theorem State.phaseH_robSig (s : State) : (s.phaseH).robSig = s.robSig := by
  obtain ⟨_, _, _, _, _, h⟩ := s.phaseH_writes; rw [h]
@[simp] theorem State.phaseH_unlockReq (s : State) : (s.phaseH).unlockReq = s.unlockReq := by
  obtain ⟨_, _, _, _, _, h⟩ := s.phaseH_writes; rw [h]
@[simp] theorem State.phaseH_commitLatch (s : State) : (s.phaseH).commitLatch = s.commitLatch := by
  obtain ⟨_, _, _, _, _, h⟩ := s.phaseH_writes; rw [h]
@[simp] theorem State.phaseH_lsqOut (s : State) : (s.phaseH).lsqOut = s.lsqOut := by
  obtain ⟨_, _, _, _, _, h⟩ := s.phaseH_writes; rw [h]
@[simp] theorem State.phaseH_execLatch (s : State) : (s.phaseH).execLatch = s.execLatch := by
  obtain ⟨_, _, _, _, _, h⟩ := s.phaseH_writes; rw [h]
@[simp] theorem State.phaseH_halted (s : State) : (s.phaseH).halted = s.halted := by
  obtain ⟨_, _, _, _, _, h⟩ := s.phaseH_writes; rw [h]
@[simp] theorem State.phaseH_fault (s : State) : (s.phaseH).fault = s.fault := by
  obtain ⟨_, _, _, _, _, h⟩ := s.phaseH_writes; rw [h]
@[simp] theorem State.phaseH_faultAddr (s : State) : (s.phaseH).faultAddr = s.faultAddr := by
  obtain ⟨_, _, _, _, _, h⟩ := s.phaseH_writes; rw [h]
@[simp] theorem State.phaseH_cycles (s : State) : (s.phaseH).cycles = s.cycles := by
  obtain ⟨_, _, _, _, _, h⟩ := s.phaseH_writes; rw [h]
@[simp] theorem State.phaseH_rollbacks (s : State) : (s.phaseH).rollbacks = s.rollbacks := by
  obtain ⟨_, _, _, _, _, h⟩ := s.phaseH_writes; rw [h]
@[simp] theorem State.phaseH_fqCap (s : State) : (s.phaseH).fqCap = s.fqCap := by
  obtain ⟨_, _, _, _, _, h⟩ := s.phaseH_writes; rw [h]
@[simp] theorem State.phaseH_memSize (s : State) : (s.phaseH).memSize = s.memSize := by
  obtain ⟨_, _, _, _, _, h⟩ := s.phaseH_writes; rw [h]
@[simp] theorem State.phaseH_maxCycles (s : State) : (s.phaseH).maxCycles = s.maxCycles := by
  obtain ⟨_, _, _, _, _, h⟩ := s.phaseH_writes; rw [h]

end Sys2Proof.Machine
end

