-- ==== Sys2Proof/Laws/Phases.lean ====
section
/-! SUPPORT. What each shared operation and each phase can do, said once: queues (spec/10_state.md R19, R21), broadcast
capture, launch, the load-store queue's head, fetch, commit, and the cycle they make up. -/

namespace Sys2Proof.Machine

/-! ### Outcomes -/

@[simp] theorem Flow.andThen_running (s : State) (f : State → Flow) : (Flow.running s).andThen f = f s := rfl
@[simp] theorem Flow.andThen_ended (s : State) (f : State → Flow) : (Flow.ended s).andThen f = .ended s := rfl

/-! ### Registers (R8, R11) -/

theorem State.readReg_writeReg (s : State) (r q : RegIdx) (v : Word) :
    (s.writeReg r v).readReg q = if q = r then v else s.readReg q := by
  unfold State.readReg State.writeReg
  simp only [Vector.getElem_set, BitVec.toNat_inj]
  split <;> simp_all [eq_comm]

theorem State.readRst_writeRst (s : State) (r q : RegIdx) (e : RstEntry) :
    (s.writeRst r e).readRst q = if q = r then e else s.readRst q := by
  unfold State.readRst State.writeRst
  simp only [Vector.getElem_set, BitVec.toNat_inj]
  split <;> simp_all [eq_comm]

/-- Two states with the same register file read alike. -/
theorem State.readReg_congr {s t : State} (h : s.x = t.x) (r : RegIdx) : s.readReg r = t.readReg r := by
  simp [State.readReg, h]

theorem State.readRst_congr {s t : State} (h : s.rst = t.rst) (r : RegIdx) : s.readRst r = t.readRst r := by
  simp [State.readRst, h]

/-! ### Circular queues -/

section Fifo
variable {α : Type} {f : Fifo α}

@[simp] theorem Fifo.push_capacity (e : α) : (f.push e).capacity = f.capacity := by simp [Fifo.push, Fifo.capacity]
@[simp] theorem Fifo.pop_capacity : f.pop.capacity = f.capacity := rfl
@[simp] theorem Fifo.modify_capacity (i : Nat) (g : α → α) : (f.modify i g).capacity = f.capacity := by
  simp [Fifo.modify, Fifo.capacity]
@[simp] theorem Fifo.mapLive_capacity (g : α → α) : (f.mapLive g).capacity = f.capacity := by
  simp [Fifo.mapLive, Fifo.capacity]
@[simp] theorem Fifo.cleared_capacity (g : α → α) : (f.cleared g).capacity = f.capacity := by
  simp [Fifo.cleared, Fifo.capacity]
@[simp] theorem Fifo.push_head (e : α) : (f.push e).head = f.head := rfl
@[simp] theorem Fifo.push_count (e : α) : (f.push e).count = f.count + 1 := rfl
@[simp] theorem Fifo.pop_head : f.pop.head = (f.head + 1) % f.capacity := rfl
@[simp] theorem Fifo.pop_count : f.pop.count = f.count - 1 := rfl
@[simp] theorem Fifo.pop_slots : f.pop.slots = f.slots := rfl
@[simp] theorem Fifo.modify_head (i : Nat) (g : α → α) : (f.modify i g).head = f.head := rfl
@[simp] theorem Fifo.modify_count (i : Nat) (g : α → α) : (f.modify i g).count = f.count := rfl
@[simp] theorem Fifo.mapLive_head (g : α → α) : (f.mapLive g).head = f.head := rfl
@[simp] theorem Fifo.mapLive_count (g : α → α) : (f.mapLive g).count = f.count := rfl
@[simp] theorem Fifo.cleared_head (g : α → α) : (f.cleared g).head = 0 := rfl
@[simp] theorem Fifo.cleared_count (g : α → α) : (f.cleared g).count = 0 := rfl

/-- No slot of an empty queue is live. -/
theorem Fifo.live_of_empty (h : f.count = 0) (i : Nat) : f.live i = false := by simp [Fifo.live, h]

/-- The head of a queue that is not empty is live (R21). -/
theorem Fifo.live_head (hc : f.count ≠ 0) (hh : f.head < f.capacity) : f.live f.head = true := by
  have : f.head + f.capacity - f.head = f.capacity := by omega
  simp [Fifo.live, this]; omega

theorem Fifo.front?_of_empty (h : f.count = 0) : f.front? = none := by simp [Fifo.front?, h]

theorem Fifo.front?_of_nonempty (h : f.count ≠ 0) : f.front? = f.slots[f.head]? := by simp [Fifo.front?, h]

/-- Slot `i` after a change of the live slots. -/
theorem Fifo.mapLive_slot (g : α → α) (i : Nat) :
    (f.mapLive g).slots[i]? = (f.slots[i]?).map fun e => if f.live i then g e else e := by
  simp [Fifo.mapLive, List.getElem?_mapIdx]

theorem Fifo.mapLive_eq_self {g : α → α} (h : ∀ i e, f.slots[i]? = some e → f.live i = true → g e = e) :
    f.mapLive g = f := by
  cases f with
  | mk slots head count =>
    simp only [Fifo.mapLive, Fifo.mk.injEq, and_true]
    apply List.ext_getElem? 
    intro i
    rw [List.getElem?_mapIdx]
    cases hs : slots[i]? with
    | none => rfl
    | some e =>
      simp only [Option.map_some, Option.some.injEq]
      split
      · rename_i hl; exact h i e hs hl
      · rfl

theorem Fifo.mapLive_of_empty (h : f.count = 0) (g : α → α) : f.mapLive g = f :=
  Fifo.mapLive_eq_self fun i e _ hl => by simp [Fifo.live_of_empty h] at hl

/-- Slot `i` after a change of slot `j`. -/
theorem Fifo.modify_slot (g : α → α) (i j : Nat) :
    (f.modify j g).slots[i]? = if i = j then (f.slots[i]?).map g else f.slots[i]? := by
  simp only [Fifo.modify, List.getElem?_modify]
  split <;> split <;> simp_all

/-- Slot `i` after a push: the new entry at the old tail, the other slots as they were. -/
theorem Fifo.push_slot (e : α) (i : Nat) (ht : f.tail < f.capacity) :
    (f.push e).slots[i]? = if i = f.tail then some e else f.slots[i]? := by
  simp only [Fifo.push, List.getElem?_set]
  split
  · rename_i h; subst h; simp; exact ht
  · rename_i h; rw [if_neg (Ne.symm h)]

theorem Fifo.tail_lt (h : 0 < f.capacity) : f.tail < f.capacity := Nat.mod_lt _ h

end Fifo

/-! ### Broadcast capture (R140, R143) -/

@[simp] theorem Operand.captureAll_nil (o : Operand) : o.captureAll [] = o := rfl

/-- A resolved operand keeps its value. -/
@[simp] theorem Operand.captureAll_val (cdb : List (Tag × Word)) (v : Word) :
    (Operand.val v).captureAll cdb = .val v := by
  induction cdb with
  | nil => rfl
  | cons b cdb ih =>
    unfold Operand.captureAll at *
    simp only [List.foldl_cons, Operand.capture, reduceCtorEq, if_false]
    exact ih

@[simp] theorem LsqEntry.capture_nil (q : LsqEntry) : q.capture [] = q := rfl

@[simp] theorem RsEntry.capture_nil (e : RsEntry) : e.capture [] = e := by
  unfold RsEntry.capture; split <;> rfl

theorem RsEntry.capture_of_not_busy {e : RsEntry} (h : e.busy = false) (cdb : List (Tag × Word)) :
    e.capture cdb = e := by simp [RsEntry.capture, h]

@[simp] theorem LsqEntry.capture_op (q : LsqEntry) (cdb : List (Tag × Word)) : (q.capture cdb).op = q.op := rfl
@[simp] theorem LsqEntry.capture_ready (q : LsqEntry) (cdb : List (Tag × Word)) : (q.capture cdb).ready = q.ready := rfl
@[simp] theorem LsqEntry.capture_dest (q : LsqEntry) (cdb : List (Tag × Word)) : (q.capture cdb).dest = q.dest := rfl
@[simp] theorem LsqEntry.capture_imm (q : LsqEntry) (cdb : List (Tag × Word)) : (q.capture cdb).imm = q.imm := rfl
@[simp] theorem LsqEntry.capture_reported (q : LsqEntry) (cdb : List (Tag × Word)) :
    (q.capture cdb).reported = q.reported := rfl

/-- What an operand waits for after a capture is not on the bus, and it waited for it before (R140, R143). -/
theorem Operand.captureAll_eq_tag {cdb : List (Tag × Word)} {o : Operand} {t : Tag} (h : o.captureAll cdb = .tag t) :
    o = .tag t ∧ t ∉ cdb.map Prod.fst := by
  induction cdb generalizing o with
  | nil => exact ⟨h, by simp⟩
  | cons b l ih =>
    unfold Operand.captureAll at h
    rw [List.foldl_cons] at h
    change (o.capture b).captureAll l = _ at h
    obtain ⟨h1, h2⟩ := ih h
    unfold Operand.capture at h1
    split at h1
    · cases h1
    · rename_i hn
      refine ⟨h1, ?_⟩
      simp only [List.map_cons, List.mem_cons, not_or]
      refine ⟨?_, h2⟩
      rintro rfl
      exact hn h1

@[simp] theorem RsEntry.capture_busy (e : RsEntry) (cdb : List (Tag × Word)) : (e.capture cdb).busy = e.busy := by
  unfold RsEntry.capture; split <;> rfl
@[simp] theorem RsEntry.capture_dest (e : RsEntry) (cdb : List (Tag × Word)) : (e.capture cdb).dest = e.dest := by
  unfold RsEntry.capture; split <;> rfl
@[simp] theorem RsEntry.capture_op (e : RsEntry) (cdb : List (Tag × Word)) : (e.capture cdb).op = e.op := by
  unfold RsEntry.capture; split <;> rfl

/-! ### Launch (R141) -/

theorem RsEntry.launch?_of_not_busy {e : RsEntry} (h : e.busy = false) : e.launch? = none := by
  unfold RsEntry.launch?; rw [h]

/-- With no ready entry nothing is launched and nothing changes. -/
theorem launchFirst_of_none {l : List RsEntry} (h : ∀ e ∈ l, e.launch? = none) : launchFirst l = (none, l) := by
  induction l with
  | nil => rfl
  | cons e l ih =>
    rw [launchFirst, h e (by simp), ih fun e he => h e (by simp [he])]

/-- The entry launched is the first ready one, and no earlier one is ready. -/
theorem launchFirst_eq_some {l : List RsEntry} {x : Launched} {l' : List RsEntry} (h : launchFirst l = (some x, l')) :
    ∃ pre e post, l = pre ++ e :: post ∧ l' = pre ++ { e with busy := false } :: post ∧ e.launch? = some x ∧
      ∀ d ∈ pre, d.launch? = none := by
  induction l generalizing l' with
  | nil => simp [launchFirst] at h
  | cons e l ih =>
    rw [launchFirst] at h
    split at h
    · rename_i y hy
      obtain ⟨h1, h2⟩ := Prod.mk.inj h
      obtain rfl := Option.some.inj h1
      exact ⟨[], e, l, rfl, h2.symm, hy, by simp⟩
    · rename_i hn
      obtain ⟨h1, h2⟩ := Prod.mk.inj h
      obtain ⟨pre, d, post, hl, hl', hd, hp⟩ := ih (l' := (launchFirst l).2) (Prod.ext h1 rfl)
      refine ⟨e :: pre, d, post, by simp [hl], by rw [← h2, hl']; rfl, hd, ?_⟩
      intro c hc
      rcases List.mem_cons.mp hc with rfl | hc
      · exact hn
      · exact hp c hc

/-- With nothing launched the stations stay. -/
theorem launchFirst_eq_none {l l' : List RsEntry} (h : launchFirst l = (none, l')) : l' = l := by
  induction l generalizing l' with
  | nil => simp [launchFirst] at h; exact h
  | cons e l ih =>
    rw [launchFirst] at h
    split at h
    · cases h
    · obtain ⟨h1, h2⟩ := Prod.mk.inj h
      rw [← h2, ih (l' := (launchFirst l).2) (Prod.ext h1 rfl)]

/-- With a free station, the entry goes to the free station of lowest index (R104, R142). -/
theorem fillFirst_eq_set {l : List RsEntry} (entry : RsEntry) (h : ∃ e ∈ l, e.busy = false) :
    ∃ i d, l[i]? = some d ∧ d.busy = false ∧ fillFirst entry l = l.set i entry ∧
      ∀ j < i, ∀ c, l[j]? = some c → c.busy = true := by
  induction l with
  | nil => obtain ⟨_, h, _⟩ := h; cases h
  | cons e l ih =>
    cases hb : e.busy with
    | false => exact ⟨0, e, rfl, hb, by simp [fillFirst, hb], fun j hj => by omega⟩
    | true =>
      obtain ⟨d, hd, hf⟩ := h
      rcases List.mem_cons.mp hd with rfl | hd
      · rw [hb] at hf; cases hf
      · obtain ⟨i, d, h1, h2, h3, h4⟩ := ih ⟨d, hd, hf⟩
        refine ⟨i + 1, d, h1, h2, by simp [fillFirst, hb, h3], ?_⟩
        rintro (_ | j) hj c hc
        · obtain rfl := Option.some.inj hc; exact hb
        · exact h4 j (by omega) c hc

/-! ### Phase (b) (R143 to R148) -/

/-- What the head of the load-store queue can do, given what stands there after the capture (R144 to R148). -/
theorem State.lsqAttempt_cases (s : State) :
    (s.lsqAttempt = .running s) ∨
    (∃ q op base data, s.lsq.front? = some q ∧ q.op = .load op ∧ q.o1 = .val base ∧ q.o2 = .val data ∧
      s.lsqAttempt = s.lsqLoad op q.dest (effectiveAddress base q.imm)) ∨
    (∃ q op base data, s.lsq.front? = some q ∧ q.op = .store op ∧ q.o1 = .val base ∧ q.o2 = .val data ∧
      q.ready = true ∧ s.lsqAttempt = s.lsqStore op (effectiveAddress base q.imm) data) ∨
    (∃ q op base data, s.lsq.front? = some q ∧ q.op = .store op ∧ q.o1 = .val base ∧ q.o2 = .val data ∧
      q.ready = false ∧ q.reported = false ∧ s.lsqAttempt = .running (s.lsqReport q.dest)) := by
  unfold State.lsqAttempt
  split
  · exact Or.inl rfl
  · rename_i q hq
    split
    · rename_i base data h1 h2
      unfold State.lsqAct
      split
      · rename_i op ho
        exact Or.inr (Or.inl ⟨q, op, base, data, hq, ho, h1, h2, rfl⟩)
      · rename_i op ho
        split
        · rename_i hr
          exact Or.inr (Or.inr (Or.inl ⟨q, op, base, data, hq, ho, h1, h2, hr, rfl⟩))
        · rename_i hr
          split
          · exact Or.inl rfl
          · rename_i hp
            exact Or.inr (Or.inr (Or.inr ⟨q, op, base, data, hq, ho, h1, h2, by simpa using hr, by simpa using hp, rfl⟩))
    · exact Or.inl rfl

/-! ### The cycle -/

/-- The start of a cycle of a core that runs and has time: the cycle is counted (R80). -/
theorem State.startCycle_of_running {s : State} (h : s.stopped = false) (ht : s.timeLimitReached = false) :
    s.startCycle = .running { s with cycles := s.cycles + 1 } := by simp [State.startCycle, h, ht]

/-- A stopped core's cycle is over before it begins (R225). -/
theorem State.beforeFetch_of_stopped {s : State} (h : s.stopped = true) : s.beforeFetch = .ended s := by
  simp [State.beforeFetch, State.startCycle, h]

/-- Phase (i) with nothing popped does nothing (R123). -/
theorem State.phaseI_of_none {s : State} (h : s.commitLatch = none) : s.phaseI = .next s := by
  unfold State.phaseI; rw [h]

end Sys2Proof.Machine
end

