-- ==== Sys2Proof/Laws/Cycle.lean ====
section
/-! SUPPORT. What a clock cycle can do, said once: the cases of a cycle up to its fetch, of the cycle that takes an
instruction in, of a step (spec/40_cycle_sequencer.md R80, spec/60_exceptions.md R223 to R225), and of Commit
(spec/42_rob_commit_rollback.md R123). -/

namespace Sys2Proof.Machine

/-- Everything phase (b)'s attempt can do (R144 to R148): nothing, raise, perform a load, perform a store, report a
store. -/
theorem State.lsqAttempt_writes (s : State) :
    (s.lsqAttempt = .running s) ∨
    (∃ q op base data, s.lsq.front? = some q ∧ q.op = .load op ∧ q.o1 = .val base ∧ q.o2 = .val data ∧
      memRead s.mem s.memSize (effectiveAddress base q.imm) op.width = none ∧
      s.lsqAttempt = .ended (s.raise (.memoryAccessError (effectiveAddress base q.imm)))) ∨
    (∃ q op base data raw, s.lsq.front? = some q ∧ q.op = .load op ∧ q.o1 = .val base ∧ q.o2 = .val data ∧
      memRead s.mem s.memSize (effectiveAddress base q.imm) op.width = some raw ∧
      s.lsqAttempt = .running { s with lsq := s.lsq.pop, lsqOut := some (.loadResult q.dest (op.extend raw)) }) ∨
    (∃ q op base data, s.lsq.front? = some q ∧ q.op = .store op ∧ q.o1 = .val base ∧ q.o2 = .val data ∧
      q.ready = true ∧ memWrite s.mem s.memSize (effectiveAddress base q.imm) op.width data = none ∧
      s.lsqAttempt = .ended (s.raise (.memoryAccessError (effectiveAddress base q.imm)))) ∨
    (∃ q op base data m, s.lsq.front? = some q ∧ q.op = .store op ∧ q.o1 = .val base ∧ q.o2 = .val data ∧
      q.ready = true ∧ memWrite s.mem s.memSize (effectiveAddress base q.imm) op.width data = some m ∧
      s.lsqAttempt = .running { s with mem := m, lsq := s.lsq.pop }) ∨
    (∃ q op base data, s.lsq.front? = some q ∧ q.op = .store op ∧ q.o1 = .val base ∧ q.o2 = .val data ∧
      q.ready = false ∧ q.reported = false ∧ s.lsqAttempt = .running (s.lsqReport q.dest)) := by
  rcases s.lsqAttempt_cases with h | ⟨q, op, base, data, hq, ho, h1, h2, h⟩ | ⟨q, op, base, data, hq, ho, h1, h2, hr, h⟩ |
    ⟨q, op, base, data, hq, ho, h1, h2, hr, hp, h⟩
  · exact Or.inl h
  · unfold State.lsqLoad at h
    cases hm : memRead s.mem s.memSize (effectiveAddress base q.imm) op.width with
    | none => rw [hm] at h; exact Or.inr (Or.inl ⟨q, op, base, data, hq, ho, h1, h2, hm, h⟩)
    | some raw => rw [hm] at h; exact Or.inr (Or.inr (Or.inl ⟨q, op, base, data, raw, hq, ho, h1, h2, hm, h⟩))
  · unfold State.lsqStore at h
    cases hm : memWrite s.mem s.memSize (effectiveAddress base q.imm) op.width data with
    | none => rw [hm] at h; exact Or.inr (Or.inr (Or.inr (Or.inl ⟨q, op, base, data, hq, ho, h1, h2, hr, hm, h⟩)))
    | some m => rw [hm] at h; exact Or.inr (Or.inr (Or.inr (Or.inr (Or.inl ⟨q, op, base, data, m, hq, ho, h1, h2, hr, hm, h⟩))))
  · exact Or.inr (Or.inr (Or.inr (Or.inr (Or.inr ⟨q, op, base, data, hq, ho, h1, h2, hr, hp, h⟩))))

/-- A cycle up to its fetch: it ends at once in a stopped core (R225) or at the cycle bound (R224), it ends in phase (b)
on an access out of range (R223), or it reaches its fetch. -/
theorem State.beforeFetch_cases (s : State) :
    (s.stopped = true ∧ s.beforeFetch = .ended s) ∨
    (s.stopped = false ∧ s.timeLimitReached = true ∧ s.beforeFetch = .ended (s.raise .simulationTimeout)) ∨
    (s.stopped = false ∧ s.timeLimitReached = false ∧ ∃ ea,
      s.atAttempt.lsqAttempt = .ended (s.atAttempt.raise (.memoryAccessError ea)) ∧
      s.beforeFetch = .ended (s.atAttempt.raise (.memoryAccessError ea))) ∨
    (s.stopped = false ∧ s.timeLimitReached = false ∧ ∃ b,
      s.atAttempt.lsqAttempt = .running b ∧ s.beforeFetch = .running b.phaseC.phaseD) := by
  unfold State.beforeFetch State.startCycle
  cases hs : s.stopped with
  | true => simp
  | false =>
    cases ht : s.timeLimitReached with
    | true => simp
    | false =>
      simp only [Bool.false_eq_true, if_false, Flow.andThen_running, false_and, false_or, true_and]
      change (∃ ea, _ ∧ (s.atAttempt.lsqAttempt.andThen fun s2 => Flow.running s2.phaseC.phaseD) = _) ∨
        ∃ b, _ ∧ (s.atAttempt.lsqAttempt.andThen fun s2 => Flow.running s2.phaseC.phaseD) = _
      rcases s.atAttempt.lsqAttempt_writes with h | ⟨q, op, base, data, _, _, _, _, _, h⟩ |
        ⟨q, op, base, data, raw, _, _, _, _, _, h⟩ | ⟨q, op, base, data, _, _, _, _, _, _, h⟩ |
        ⟨q, op, base, data, m, _, _, _, _, _, _, h⟩ | ⟨q, op, base, data, _, _, _, _, _, _, h⟩ <;> rw [h]
      · exact Or.inr ⟨_, rfl, rfl⟩
      · exact Or.inl ⟨_, rfl, rfl⟩
      · exact Or.inr ⟨_, rfl, rfl⟩
      · exact Or.inl ⟨_, rfl, rfl⟩
      · exact Or.inr ⟨_, rfl, rfl⟩
      · exact Or.inr ⟨_, rfl, rfl⟩

/-- Where a cycle that does not reach its fetch ends: as it was, at its bound, or at phase (b)'s raise. -/
def State.EndsEarly (s s' : State) : Prop :=
  (s.stopped = true ∧ s' = s) ∨
  (s.stopped = false ∧ s.timeLimitReached = true ∧ s' = s.raise .simulationTimeout) ∨
  (s.stopped = false ∧ s.timeLimitReached = false ∧ ∃ ea,
    s.atAttempt.lsqAttempt = .ended (s.atAttempt.raise (.memoryAccessError ea)) ∧
    s' = s.atAttempt.raise (.memoryAccessError ea))

/-- A cycle up to its fetch, in two cases. -/
theorem State.beforeFetch_split (s : State) :
    (∃ s', s.EndsEarly s' ∧ s.beforeFetch = .ended s') ∨
    (s.stopped = false ∧ s.timeLimitReached = false ∧ ∃ b,
      s.atAttempt.lsqAttempt = .running b ∧ s.beforeFetch = .running b.phaseC.phaseD) := by
  rcases s.beforeFetch_cases with ⟨h1, h2⟩ | ⟨h1, h2, h3⟩ | ⟨h1, h2, ea, h3, h4⟩ | h
  · exact Or.inl ⟨_, Or.inl ⟨h1, rfl⟩, h2⟩
  · exact Or.inl ⟨_, Or.inr (Or.inl ⟨h1, h2, rfl⟩), h3⟩
  · exact Or.inl ⟨_, Or.inr (Or.inr ⟨h1, h2, ea, h3, rfl⟩), h4⟩
  · exact Or.inr h

/-- The cycle that takes a record in (R101): it ends early, or the record goes into the fetch queue and the later phases
follow. -/
theorem State.takeIn_cases (s : State) (r : Record) :
    (∃ s', s.EndsEarly s' ∧ s.takeIn r = .next s') ∨
    (s.stopped = false ∧ s.timeLimitReached = false ∧ ∃ b,
      s.atAttempt.lsqAttempt = .running b ∧ s.takeIn r = (b.phaseC.phaseD.enqueue r).afterFetch) := by
  unfold State.takeIn
  rcases s.beforeFetch_split with ⟨s', h1, h2⟩ | ⟨h1, h2, b, h3, h4⟩
  · exact Or.inl ⟨s', h1, by rw [h2]⟩
  · exact Or.inr ⟨h1, h2, b, h3, by rw [h4]⟩

/-- A step: it ends early; or it raises at its fetch (R47); or the later phases follow, an instruction taken in or
not. -/
theorem step_cases (s : State) :
    (∃ s', s.EndsEarly s' ∧ step s = .next s') ∨
    (s.stopped = false ∧ s.timeLimitReached = false ∧ ∃ b,
      s.atAttempt.lsqAttempt = .running b ∧
      ((step s = .next (b.phaseC.phaseD.raise (.memoryAccessError b.phaseC.phaseD.pc))) ∨
       (step s = b.phaseC.phaseD.afterFetch) ∨
       (∃ i, step s = (b.phaseC.phaseD.enqueue (recordOf i)).afterFetch))) := by
  unfold step State.cycleStart
  rcases s.beforeFetch_split with ⟨s', h1, h2⟩ | ⟨h1, h2, b, h3, h4⟩
  · exact Or.inl ⟨s', h1, by rw [h2]⟩
  · refine Or.inr ⟨h1, h2, b, h3, ?_⟩
    rw [h4]
    cases hf : b.phaseC.phaseD.fetch with
    | queueFull => simp [hf]
    | outOfRange => simp [hf]
    | undecodable e => simp [hf]
    | instr i =>
      simp only [hf]
      refine Or.inr (Or.inr ⟨i, ?_⟩)
      rw [exec_eq_takeIn, State.takeIn, h4]

/-- Phase (i) (R123): nothing, a fault for a store with no entry, or the entry committed and `x[0]` forced to 0. -/
theorem State.phaseI_cases (s : State) :
    (s.commitLatch = none ∧ s.phaseI = .next s) ∨
    (∃ t e, s.commitLatch = some (t, e) ∧
      ((∃ s', State.commitEntry { s with commitLatch := none } t e = .next s' ∧ s.phaseI = .next s'.forceZero) ∨
       (∃ op, e.op = .mem (.store op) ∧ s.lsq.findLive? (LsqEntry.awaitsMark t) = none ∧
         s.phaseI = .fault (.storeEntryMissing t)))) := by
  unfold State.phaseI
  cases h : s.commitLatch with
  | none => exact Or.inl ⟨rfl, rfl⟩
  | some l =>
    obtain ⟨t, e⟩ := l
    refine Or.inr ⟨t, e, rfl, ?_⟩
    simp only
    cases hc : State.commitEntry { s with commitLatch := none } t e with
    | next s' => exact Or.inl ⟨s', rfl, rfl⟩
    | fault r =>
      refine Or.inr ?_
      unfold State.commitEntry at hc
      cases ho : e.op with
      | halt => simp [ho] at hc
      | rs op => cases op <;> simp [ho] at hc
      | mem op =>
        cases op with
        | load op => simp [ho] at hc
        | store op =>
          simp only [ho, State.markStore] at hc
          cases hf : s.lsq.findLive? (LsqEntry.awaitsMark t) with
          | none =>
            rw [hf] at hc
            simp only [Host.Outcome.fault.injEq] at hc
            subst hc
            exact ⟨op, rfl, rfl, rfl⟩
          | some i => rw [hf] at hc; simp at hc
    | refused r =>
      unfold State.commitEntry at hc
      cases ho : e.op with
      | halt => simp [ho] at hc
      | rs op => cases op <;> simp [ho] at hc
      | mem op =>
        cases op with
        | load op => simp [ho] at hc
        | store op =>
          simp only [ho, State.markStore] at hc
          split at hc <;> simp at hc

end Sys2Proof.Machine
end

