-- ==== Sys2Proof/Laws/Life.lean ====
section
/-! SUPPORT. Lemmas that follow one instruction through a core with nothing else in flight: the cycle that takes it in
(`quiet_takeIn`), the cycle that produces its result (`rs_second`, `load_life`), the cycle that commits it
(`commit_cycle`). They stop before phase (i) of that cycle, `State.phaseI`, whose cases are in Laws/Cycle.lean. -/

namespace Sys2Proof.Machine

/-- Time for one more cycle means the bound is not reached (R224). -/
theorem State.timeLimit_of_timeFor {s : State} {k : Nat} (h : TimeFor (k + 1) s) : s.timeLimitReached = false := by
  unfold State.timeLimitReached
  split
  · rename_i n hn
    have := h n hn
    simp; omega
  · rfl

/-- Phase (a) of a quiet core does nothing. -/
theorem quiet_phaseA {s : State} (hq : Quiet s) : s.phaseA = s := by
  have h1 : s.robCapture = s := by
    have : s.robSig.foldl applySignal (s.cdb.foldl applyResult s.rob) = s.rob := by rw [hq.cdb, hq.robSig]; rfl
    unfold State.robCapture; rw [this]
  unfold State.phaseA State.robPop
  rw [h1, Fifo.front?_of_empty hq.robEmpty]
  have := hq.commitLatch
  cases s; simp_all

/-- With an empty load-store queue phase (b) does nothing. -/
theorem phaseB_of_empty {s : State} (h : s.lsq.count = 0) : s.phaseB = .running { s with lsqOut := none } := by
  unfold State.phaseB State.lsqAttempt State.lsqCapture
  simp only [Fifo.mapLive_of_empty h]
  rw [Fifo.front?_of_empty h]

/-- With nothing on the bus and no station ready, phase (c) launches nothing (R141). -/
theorem phaseC_of_none_ready {s : State} (hc : s.cdb = []) (h : ∀ e ∈ s.rs, e.launch? = none) :
    s.phaseC = { s with execLatch := none } := by
  have h1 : s.rsCapture = s := by
    have : s.rs.map (RsEntry.capture s.cdb) = s.rs := by
      rw [hc]
      conv => rhs; rw [← List.map_id s.rs]
      apply List.map_congr_left; intro e _; exact RsEntry.capture_nil e
    unfold State.rsCapture; rw [this]
  unfold State.phaseC State.rsLaunch
  rw [h1, launchFirst_of_none h]

/-- A cycle of a quiet core up to its fetch only counts the cycle. -/
theorem quiet_beforeFetch {s : State} (hq : Quiet s) (ht : TimeFor 1 s) :
    s.beforeFetch = .running { s with cycles := s.cycles + 1 } := by
  unfold State.beforeFetch
  rw [State.startCycle_of_running hq.running (State.timeLimit_of_timeFor ht)]
  set s1 : State := { s with cycles := s.cycles + 1 } with hs1
  have hq1 : Quiet s1 := ⟨hq.running, hq.zero, hq.robEmpty, hq.robHead, hq.rsFree, hq.rsSome, hq.lsqEmpty, hq.lsqHead,
      hq.fqEmpty, hq.fqCap, hq.cdb, hq.robSig, hq.lockReq, hq.unlockReq, hq.commitLatch, hq.lsqOut, hq.execLatch,
      hq.rstFree⟩
  have hl := hq1.lsqOut
  have he := hq1.execLatch
  have hB : s1.phaseB = .running s1 := by
    rw [phaseB_of_empty hq1.lsqEmpty]; rw [← hl]
  have hC : s1.phaseC = s1 := by
    rw [phaseC_of_none_ready hq1.cdb fun e h => RsEntry.launch?_of_not_busy (hq1.rsFree e h), ← he]
  have hD : s1.phaseD = s1 := by
    unfold State.phaseD State.applyUnlock State.applyLock; rw [hq1.unlockReq]; simp only; rw [hq1.lockReq]
  simp only [Flow.andThen_running, quiet_phaseA hq1, hB, hC, hD]

/-- A quiet register resolves to its value. -/
theorem quiet_resolve {s : State} (hq : Quiet s) (r : RegIdx) : s.resolve r = .val (s.readReg r) := by
  unfold State.resolve
  by_cases h : r = 0
  · rw [if_pos h, h, hq.zero]
  · rw [if_neg h, if_neg (by simp [hq.rstFree r])]

/-- Dispatch replaces the fetch queue whatever it held. -/
theorem dispatch_fq (s : State) (fq : List Record) (r : Record) (rest : List Record) :
    State.dispatch { s with fq := fq } r rest = s.dispatch r rest := by
  unfold State.dispatch
  cases r.op <;> rfl

/-- A quiet core has room for any record. -/
theorem quiet_canDispatch {s : State} (hq : Quiet s) (r : Record) : s.canDispatch r = true := by
  unfold State.canDispatch State.hasSlotFor Fifo.hasRoom
  have h1 := hq.robHead
  have h2 := hq.lsqHead
  have h3 : s.rs.any (fun e => !e.busy) = true := by
    cases h : s.rs with
    | nil => exact absurd h hq.rsSome
    | cons e l => simp [hq.rsFree e (by simp [h])]
  rw [hq.robEmpty, hq.lsqEmpty]
  simp only [Bool.and_eq_true, decide_eq_true_eq]
  refine ⟨by omega, ?_⟩
  cases r.op <;> simp_all
  omega

/-- A quiet core takes a record in and dispatches it in one cycle (R90). -/
theorem quiet_takeIn {s : State} (hq : Quiet s) (ht : TimeFor 1 s) (r : Record) :
    s.takeIn r = .next
        (State.dispatch { s with cycles := s.cycles + 1, pc := s.pc + fall } { r with pc := s.pc } []) := by
  unfold State.takeIn
  rw [quiet_beforeFetch hq ht]
  simp only
  have he : State.enqueue { s with cycles := s.cycles + 1 } r =
      { s with cycles := s.cycles + 1, fq := [{ r with pc := s.pc }], pc := s.pc + fall } := by
    unfold State.enqueue
    rw [if_pos (by simp [hq.fqEmpty, hq.fqCap])]
    simp [hq.fqEmpty]
  rw [he]
  set s1 : State := { s with cycles := s.cycles + 1, pc := s.pc + fall } with hs1
  have hq1 : Quiet s1 := ⟨hq.running, hq.zero, hq.robEmpty, hq.robHead, hq.rsFree, hq.rsSome, hq.lsqEmpty, hq.lsqHead,
      hq.fqEmpty, hq.fqCap, hq.cdb, hq.robSig, hq.lockReq, hq.unlockReq, hq.commitLatch, hq.lsqOut, hq.execLatch,
      hq.rstFree⟩
  have hFG : ∀ fq, (State.phaseG (State.phaseF { s1 with fq := fq })) = { s1 with fq := fq } := by
    intro fq
    have e1 := hq1.cdb; have e2 := hq1.robSig; have e3 := hq1.lockReq; have e4 := hq1.unlockReq
    have e5 := hq1.lsqOut; have e6 := hq1.execLatch
    clear_value s1
    cases s1
    simp_all [State.phaseF, State.phaseG]
  have hH : State.phaseH { s1 with fq := [{ r with pc := s.pc }] } = s1.dispatch { r with pc := s.pc } [] := by
    exact (if_pos (quiet_canDispatch hq1 _)).trans (dispatch_fq s1 _ _ _)
  unfold State.afterFetch
  have hs2 : ({ s with cycles := s.cycles + 1, fq := [{ r with pc := s.pc }], pc := s.pc + fall } : State) =
      { s1 with fq := [{ r with pc := s.pc }] } := rfl
  rw [hs2, hFG, hH]
  apply State.phaseI_of_none
  obtain ⟨_, _, h⟩ := s1.dispatch_writes { r with pc := s.pc } []
  rw [h]; exact hq1.commitLatch

/-- A cycle whose fetch is in range, from where its fetch begins: it takes in an instruction, or none. -/
theorem step_of_running {s s1 : State} (hb : s.beforeFetch = .running s1) (hr : s1.pc.toNat + 4 ≤ s1.memSize) :
    ∃ s2, step s = s2.afterFetch ∧
      (s2 = s1 ∨ ∃ w i, memRead s1.mem s1.memSize s1.pc 4 = some w ∧ decode w = .ok i ∧ s2 = s1.enqueue
          (recordOf i)) := by
  unfold step State.cycleStart
  rw [hb]
  simp only
  unfold State.fetch
  by_cases hf : s1.fq.length < s1.fqCap
  · rw [if_pos hf]
    obtain ⟨w, hw⟩ := Option.isSome_iff_exists.mp ((memRead_isSome (m := s1.mem)).mpr hr)
    rw [hw]
    simp only
    cases hd : decode w with
    | ok i =>
      refine ⟨s1.enqueue (recordOf i), ?_, Or.inr ⟨w, i, rfl, hd, rfl⟩⟩
      simp only
      rw [exec_eq_takeIn, State.takeIn, hb]
    | error e => exact ⟨s1, rfl, Or.inl rfl⟩
  · rw [if_neg hf]
    exact ⟨s1, rfl, Or.inl rfl⟩

/-- The fields an instruction in flight leaves alone until it commits. -/
structure Same (s u : State) : Prop where
  x : u.x = s.x
  mem : u.mem = s.mem
  halted : u.halted = s.halted
  fault : u.fault = s.fault
  faultAddr : u.faultAddr = s.faultAddr
  rollbacks : u.rollbacks = s.rollbacks
  memSize : u.memSize = s.memSize
  maxCycles : u.maxCycles = s.maxCycles

/-- Two cycles that leave them alone leave them alone. -/
theorem Same.trans {a b c : State} (h : Same a b) (k : Same b c) : Same a c :=
  ⟨k.x.trans h.x, k.mem.trans h.mem, k.halted.trans h.halted, k.fault.trans h.fault, k.faultAddr.trans h.faultAddr,
    k.rollbacks.trans h.rollbacks, k.memSize.trans h.memSize, k.maxCycles.trans h.maxCycles⟩

/-- The head of the queue, if any, is a store that has not committed, so it cannot touch memory (R144, R147). -/
def NoAccess (l : Fifo LsqEntry) : Prop := ∀ q, l.front? = some q → (∃ op, q.op = .store op) ∧ q.ready = false

/-- Phase (b) then touches no memory. -/
theorem phaseB_of_noAccess {s : State} (h : NoAccess s.lsq) :
    ∃ l o, s.phaseB = .running { s with lsq := l, lsqOut := o } := by
  have hfr : ∀ q, ({ s.lsqCapture with lsqOut := none } : State).lsq.front? = some q → (∃ op, q.op = .store op) ∧
      q.ready = false := by
    intro q hq
    have : (s.lsq.mapLive (LsqEntry.capture s.cdb)).front? = some q := hq
    unfold Fifo.front? at this
    split at this
    · exact absurd this (by simp)
    · rename_i hc
      rw [Fifo.mapLive_head, Fifo.mapLive_slot] at this
      obtain ⟨q0, h0, h1⟩ := Option.map_eq_some_iff.mp this
      have hq0 := h q0 (by rw [Fifo.front?_of_nonempty (by simpa using hc)]; exact h0)
      clear this
      split at h1 <;> subst h1 <;> simpa using hq0
  unfold State.phaseB
  rcases State.lsqAttempt_cases ({ s.lsqCapture with lsqOut := none } : State) with h | ⟨q, op, base, data, hq, ho,
      h1, h2, h⟩ | ⟨q, op, base, data, hq, ho, h1, h2, hr, h⟩ | ⟨q, op, base, data, hq, ho, h1, h2, hr, hp, h⟩
  · exact ⟨_, _, h⟩
  · obtain ⟨⟨_, h3⟩, _⟩ := hfr q hq; simp [h3] at ho
  · have := (hfr q hq).2; simp [hr] at this
  · exact ⟨_, _, h⟩

/-- The cycle in which the entry at the head of the reorder buffer becomes ready is the cycle that commits it. -/
theorem commit_cycle {u : State} {e : RobEntry} (hs : u.stopped = false) (ht : TimeFor 1 u) (hc : u.rob.count ≠ 0)
    (he : u.robCapture.rob.slots[u.rob.head]? = some e) (hr : e.ready = true) (hl : NoAccess u.lsq)
    (hp : u.pc.toNat + 4 ≤ u.memSize) :
    ∃ v, step u = v.phaseI ∧ v.commitLatch = some (u.rob.head, e) ∧ Same u v ∧ v.cycles = u.cycles + 1 := by
  have hh : ∀ (cdb : List (Tag × Word)) (r : Fifo RobEntry), (cdb.foldl applyResult r).head = r.head ∧
      (cdb.foldl applyResult r).count = r.count := by
    intro cdb
    induction cdb with
    | nil => simp
    | cons b l ih => intro r; simp only [List.foldl_cons]; rw [(ih _).1, (ih _).2]; unfold applyResult; split <;> simp
  have hh' : ∀ (cdb : List (Tag × Word)) (r : Fifo RobEntry), (cdb.foldl applySignal r).head = r.head ∧
      (cdb.foldl applySignal r).count = r.count := by
    intro cdb
    induction cdb with
    | nil => simp
    | cons b l ih => intro r; simp only [List.foldl_cons]; rw [(ih _).1, (ih _).2]; unfold applySignal; split <;> simp
  have hcap : u.robCapture.rob.head = u.rob.head ∧ u.robCapture.rob.count = u.rob.count := by
    unfold State.robCapture
    simp only
    rw [(hh' _ _).1, (hh _ _).1, (hh' _ _).2, (hh _ _).2]; simp
  have hA : ∀ c, (({ u with cycles := c } : State).phaseA) =
      { u with cycles := c, commitLatch := some (u.rob.head, e), rob := u.robCapture.rob.pop } := by
    intro c
    have hf : u.robCapture.rob.front? = some e := by
      rw [Fifo.front?_of_nonempty (by rw [hcap.2]; exact hc), hcap.1]; exact he
    have : ({ u with cycles := c } : State).robCapture = { u.robCapture with cycles := c } := rfl
    unfold State.phaseA
    rw [this]
    unfold State.robPop
    simp only [hf, hr, if_true, hcap.1]
    rfl
  obtain ⟨l, o, hB⟩ := phaseB_of_noAccess (s :=
      { u with cycles := u.cycles + 1, commitLatch := some (u.rob.head, e), rob := u.robCapture.rob.pop }) hl
  have hb : u.beforeFetch = .running (State.phaseD
      (State.phaseC { u with cycles := u.cycles + 1, commitLatch := some (u.rob.head, e), rob := u.robCapture.rob.pop, lsq := l, lsqOut := o })) := by
    unfold State.beforeFetch
    rw [State.startCycle_of_running hs (State.timeLimit_of_timeFor ht)]
    simp only [Flow.andThen_running, hA, hB]
  obtain ⟨s2, h2, h3⟩ := step_of_running hb (by simpa using hp)
  refine ⟨s2.phaseF.phaseG.phaseH, h2, ?_, ?_, ?_⟩
  · rcases h3 with rfl | ⟨w, i, _, _, rfl⟩ <;> simp
  · rcases h3 with rfl | ⟨w, i, _, _, rfl⟩ <;> constructor <;> simp
  · rcases h3 with rfl | ⟨w, i, _, _, rfl⟩ <;> simp

/-- Only a load has a load's record. -/
theorem isLoad_recordOf {i : Instr} (h : isLoad i = false) : ∀ op, (recordOf i).op ≠ .mem (.load op) := by
  intro op
  cases i <;> simp_all [isLoad, recordOf, decodedRecord]

/-- What the second cycle of an instruction leaves: the entry at the head of the reorder buffer, its result on the
buses, and behind it at most one more instruction, no load. -/
structure Waiting (s : State) (e : RobEntry) (cdb robSig : List (Tag × Word)) (u : State) : Prop where
  same : Same s u
  cycles : u.cycles = s.cycles + 2
  head : u.rob.head = s.rob.head
  headLt : u.rob.head < u.rob.capacity
  count : u.rob.count ≠ 0
  slot : u.rob.slots[u.rob.head]? = some e
  cdbIs : u.cdb = cdb
  sigIs : u.robSig = robSig
  latch : u.commitLatch = none
  pc : u.pc.toNat + 4 ≤ u.memSize

/-- The end of the second cycle: from the state in which its fetch begins. -/
theorem second_cycle {s t v : State} {e : RobEntry} (hb : t.beforeFetch = .running v) (hs : Same s v)
    (hcy : v.cycles = s.cycles + 2) (hh : v.rob.head = s.rob.head) (hlt : v.rob.head < v.rob.capacity)
    (hc : v.rob.count = 1) (hslot : v.rob.slots[v.rob.head]? = some e) (hcl : v.commitLatch = none)
    (hfq : v.fq = []) (hfc : 0 < v.fqCap) (hpc : v.pc = s.pc + fall) (hroom : FetchRoom 3 s)
        (hlh : v.lsq.head < v.lsq.capacity) :
    ∃ u, step t = .next u ∧ Waiting s e v.phaseF.phaseG.cdb v.phaseF.phaseG.robSig u ∧
      (NoLoadNext s → NoAccess v.lsq → NoAccess u.lsq) ∧ (v.lsq.count ≠ 0 → u.lsq.front? = v.lsq.front?) := by
  have hadd : (s.pc + fall).toNat ≤ s.pc.toNat + 4 := by
    simp only [fall, BitVec.toNat_add]; exact Nat.mod_le _ _
  have hadd2 : (s.pc + fall + fall).toNat ≤ s.pc.toNat + 8 := by
    have := Nat.mod_le ((s.pc + fall).toNat + 4) (2^32)
    simp only [fall, BitVec.toNat_add] at *; simp at *; omega
  unfold FetchRoom at hroom
  have hmem := hs.mem
  have hms := hs.memSize
  obtain ⟨v2, hst, hv⟩ := step_of_running hb (by rw [hms, hpc]; omega)
  have hcl2 : v2.phaseF.phaseG.phaseH.commitLatch = none := by
    rcases hv with rfl | ⟨w, i, _, _, rfl⟩ <;> simpa using hcl
  refine ⟨v2.phaseF.phaseG.phaseH, by rw [hst]; exact State.phaseI_of_none hcl2, ?_⟩
  have hrob : v2.rob = v.rob := by rcases hv with rfl | ⟨w, i, _, _, rfl⟩ <;> simp
  have hlsq : v2.lsq = v.lsq := by rcases hv with rfl | ⟨w, i, _, _, rfl⟩ <;> simp
  have hcdb : v2.phaseF.phaseG.cdb = v.phaseF.phaseG.cdb := by
    rcases hv with rfl | ⟨w, i, _, _, rfl⟩
    · rfl
    · simp [State.phaseG, State.phaseF]
  have hsig : v2.phaseF.phaseG.robSig = v.phaseF.phaseG.robSig := by
    rcases hv with rfl | ⟨w, i, _, _, rfl⟩
    · rfl
    · simp [State.phaseG, State.phaseF]
  have hsame : Same s v2 := by
    rcases hv with rfl | ⟨w, i, _, _, rfl⟩
    · exact hs
    · exact hs.trans (by constructor <;> simp)
  have hcyc : v2.cycles = s.cycles + 2 := by rcases hv with rfl | ⟨w, i, _, _, rfl⟩ <;> simpa using hcy
  have hpc2 : v2.pc.toNat + 4 ≤ v2.memSize := by
    rw [hsame.memSize]
    rcases hv with rfl | ⟨w, i, _, _, rfl⟩
    · rw [hpc]; omega
    · unfold State.enqueue; split
      · simp only [hpc]; omega
      · rw [hpc]; omega
  set g := v2.phaseF.phaseG with hg
  have g1 : g.rob = v.rob := by rw [← hrob]; simp [hg]
  have g2 : g.lsq = v.lsq := by rw [← hlsq]; simp [hg]
  have hH : ∃ rob lsq, g.phaseH.rob = rob ∧ g.phaseH.lsq = lsq ∧ rob.head = v.rob.head ∧ rob.capacity =
      v.rob.capacity ∧
      rob.count ≠ 0 ∧ rob.slots[rob.head]? = some e ∧ (NoLoadNext s → NoAccess v.lsq → NoAccess lsq) ∧
      (v.lsq.count ≠ 0 → lsq.front? = v.lsq.front?) := by
    have stay : ∀ x : State, x.rob = v.rob → x.lsq = v.lsq → ∃ rob lsq, x.rob = rob ∧ x.lsq = lsq ∧ rob.head =
        v.rob.head ∧ rob.capacity = v.rob.capacity ∧
      rob.count ≠ 0 ∧ rob.slots[rob.head]? = some e ∧ (NoLoadNext s → NoAccess v.lsq → NoAccess lsq) ∧
      (v.lsq.count ≠ 0 → lsq.front? = v.lsq.front?) := fun x h1 h2 =>
      ⟨_, _, h1, h2, rfl, rfl, by omega, hslot, fun _ h => h, fun _ => rfl⟩
    unfold State.phaseH
    split
    · exact stay g g1 g2
    · rename_i r rest hfq2
      split
      · rename_i hcd
        have hr : ∃ w i, memRead v.mem v.memSize v.pc 4 = some w ∧ decode w = .ok i ∧ r.op = (recordOf i).op := by
          rcases hv with rfl | ⟨w, i, h1, h2, rfl⟩
          · simp [hg, hfq] at hfq2
          · refine ⟨w, i, h1, h2, ?_⟩
            simp only [hg, State.phaseF_fq, State.phaseG_fq] at hfq2
            unfold State.enqueue at hfq2
            rw [if_pos (by simp [hfq, hfc])] at hfq2
            simp only [hfq, List.nil_append, List.cons.injEq] at hfq2
            rw [← hfq2.1]
        have hroomR : v.rob.count < v.rob.capacity := by
          unfold State.canDispatch Fifo.hasRoom at hcd
          simp only [Bool.and_eq_true, decide_eq_true_eq, g1] at hcd
          exact hcd.1
        obtain ⟨rs, lsq, hd⟩ := g.dispatch_writes r rest
        have htail : v.rob.tail ≠ v.rob.head := by
          unfold Fifo.tail
          rw [hc] at hroomR ⊢
          rcases Nat.lt_or_ge (v.rob.head + 1) v.rob.capacity with h | h
          · rw [Nat.mod_eq_of_lt h]; omega
          · have : v.rob.head + 1 = v.rob.capacity := by omega
            rw [this, Nat.mod_self]; omega
        refine ⟨g.rob.push r.robEntry, (g.dispatch r rest).lsq,
            by rw [hd], rfl, by rw [g1]; rfl, by rw [g1]; simp, by simp, ?_, ?_, ?_⟩
        · rw [Fifo.push_head, Fifo.push_slot _ _ (by rw [g1]; exact Fifo.tail_lt (by omega)), if_neg
            (by rw [g1]; exact Ne.symm htail), g1]
          exact hslot
        · intro hn hna
          obtain ⟨w, i, h1, h2, h3⟩ := hr
          have hnl := isLoad_recordOf (hn w i (by rw [← hmem, ← hms, ← hpc]; exact h1) h2)
          unfold State.dispatch
          cases ho : r.op with
          | rs op => simp only; rw [g2]; exact hna
          | halt => simp only; rw [g2]; exact hna
          | mem op =>
            cases op with
            | load op => exact absurd (h3 ▸ ho) (hnl op)
            | store op =>
              simp only
              intro q hq
              rw [Fifo.front?_of_nonempty (by simp), Fifo.push_head, Fifo.push_slot _ _
                  (by rw [g2]; exact Fifo.tail_lt (by omega))] at hq
              split at hq
              · obtain rfl := Option.some.inj hq
                exact ⟨⟨op, rfl⟩, rfl⟩
              · rename_i hne
                rw [g2] at hq hne
                have : v.lsq.count ≠ 0 := by
                  intro h0; apply hne; unfold Fifo.tail; rw [h0, Nat.add_zero, Nat.mod_eq_of_lt hlh]
                exact hna q (by rw [Fifo.front?_of_nonempty this]; exact hq)
        · intro hcnt
          unfold State.dispatch
          cases ho : r.op with
          | rs op => simp only; rw [g2]
          | halt => simp only; rw [g2]
          | mem op =>
            simp only
            have hroomL : v.lsq.count < v.lsq.capacity := by
              unfold State.canDispatch State.hasSlotFor Fifo.hasRoom at hcd
              rw [ho] at hcd
              simp only [Bool.and_eq_true, decide_eq_true_eq, g2] at hcd
              exact hcd.2
            have htl : v.lsq.tail ≠ v.lsq.head := by
              unfold Fifo.tail
              rcases Nat.lt_or_ge (v.lsq.head + v.lsq.count) v.lsq.capacity with h | h
              · rw [Nat.mod_eq_of_lt h]; omega
              · rw [Nat.mod_eq_sub_mod h, Nat.mod_eq_of_lt (by omega)]; omega
            rw [Fifo.front?_of_nonempty (by simp), Fifo.push_head, Fifo.push_slot _ _
                (by rw [g2]; exact Fifo.tail_lt (by omega)), if_neg (by rw [g2]; exact Ne.symm htl), g2,
                Fifo.front?_of_nonempty hcnt]
      · exact stay g g1 g2
  obtain ⟨rob, lsq, k1, k2, k3, k4, k5, k6, k7, k8⟩ := hH
  subst k1 k2
  refine ⟨⟨hsame.trans (by constructor <;> simp [hg]),
      by simpa [hg] using hcyc, k3.trans hh, by omega, k5, k6, by simpa [hg] using hcdb, by simpa [hg] using hsig, hcl2, by simpa [hg] using hpc2⟩, k7, k8⟩

/-- With nothing on the buses, nothing is captured. -/
theorem robCapture_of_nil {s : State} (h1 : s.cdb = []) (h2 : s.robSig = []) : s.robCapture = s := by
  have : s.robSig.foldl applySignal (s.cdb.foldl applyResult s.rob) = s.rob := by rw [h1, h2]; rfl
  unfold State.robCapture; rw [this]

/-- Phase (a) with nothing on the buses and a head that is not ready does nothing. -/
theorem phaseA_of_wait {s : State} (h1 : s.cdb = []) (h2 : s.robSig = [])
    (h3 : ∀ e, s.rob.front? = some e → e.ready = false) :
    s.phaseA = { s with commitLatch := none } := by
  unfold State.phaseA State.robPop
  rw [robCapture_of_nil h1 h2]
  split
  · rename_i e he
    rw [if_neg (by simp [h3 e he])]
  · rfl

/-- The state after the first cycle. -/
def firstState (s : State) (r : Record) : State :=
  State.dispatch { s with cycles := s.cycles + 1, pc := s.pc + fall } { r with pc := s.pc } []

/-- In a quiet core the next tag is the head. -/
theorem quiet_tail {s : State} (hq : Quiet s) : s.rob.tail = s.rob.head := by
  unfold Fifo.tail; rw [hq.robEmpty, Nat.add_zero, Nat.mod_eq_of_lt hq.robHead]

/-- In a quiet core the next load-store-queue slot is the head. -/
theorem quiet_lsq_tail {s : State} (hq : Quiet s) : s.lsq.tail = s.lsq.head := by
  unfold Fifo.tail; rw [hq.lsqEmpty, Nat.add_zero, Nat.mod_eq_of_lt hq.lsqHead]

/-- A quiet core's source operands are values. -/
theorem quiet_source {s : State} (hq : Quiet s) (b : Bool) (r : RegIdx) :
    s.sourceOperand b r = .val (if b then s.readReg r else 0) := by
  unfold State.sourceOperand; split
  · exact quiet_resolve hq r
  · rfl

/-- A quiet core's first station is free. -/
theorem quiet_fill {s : State} (hq : Quiet s) (e : RsEntry) : ∃ a l, s.rs = a :: l ∧ fillFirst e s.rs = e :: l := by
  cases h : s.rs with
  | nil => exact absurd h hq.rsSome
  | cons a l => exact ⟨a, l, rfl, by simp [fillFirst, hq.rsFree a (by simp [h])]⟩

/-- Cycle count and pc do not matter for quietness. -/
theorem quiet_with {s : State} (hq : Quiet s) (c : Nat) (pc : Word) : Quiet { s with cycles := c, pc := pc } :=
  ⟨hq.running, hq.zero, hq.robEmpty, hq.robHead, hq.rsFree, hq.rsSome, hq.lsqEmpty, hq.lsqHead, hq.fqEmpty, hq.fqCap,
      hq.cdb, hq.robSig, hq.lockReq, hq.unlockReq, hq.commitLatch, hq.lsqOut, hq.execLatch, hq.rstFree⟩

/-- What a launched record carries. -/
def launchedOf (s : State) (r : Record) (op : RsOp) : Launched :=
  { op := op, a := if r.op.usesRs1 then s.readReg r.rs1 else 0, b := if r.op.usesRs2 then s.readReg r.rs2 else 0,
    imm := r.imm, dest := s.rob.head, pc := s.pc }

/-- A cycle up to its fetch, with nothing on the buses, a head that is not ready, and an empty load-store queue: the
first station is launched. -/
theorem beforeFetch_launch {x : State} {ent : RsEntry} {l : List RsEntry} {la : Launched} (h0 : x.stopped = false)
    (ht : x.timeLimitReached = false) (h1 : x.cdb = []) (h2 : x.robSig = [])
    (h3 : ∀ e, x.rob.front? = some e → e.ready = false) (h4 : x.lsq.count = 0) (h5 : x.rs = ent :: l)
    (h6 : ent.launch? = some la) :
    x.beforeFetch = .running (State.phaseD { x with
      cycles := x.cycles + 1, commitLatch := none, lsqOut := none, rs := { ent with busy := false } :: l, execLatch :=
          some la }) := by
  have hA : ∀ c, State.phaseA { x with cycles := c } = { x with cycles := c, commitLatch := none } := fun c =>
    phaseA_of_wait (s := { x with cycles := c }) h1 h2 h3
  have hB : ∀ c, State.phaseB { x with cycles := c, commitLatch := none } =
      .running { x with cycles := c, commitLatch := none, lsqOut := none } := fun c =>
    phaseB_of_empty (s := { x with cycles := c, commitLatch := none }) h4
  have hC : ∀ y : State, y.cdb = [] → y.rs = ent :: l → y.phaseC =
      { y with rs := { ent with busy := false } :: l, execLatch := some la } := by
    intro y hx1 hx2
    have : y.rs.map (RsEntry.capture y.cdb) = ent :: l := by
      rw [hx1, hx2]
      conv => rhs; rw [← List.map_id (ent :: l)]
      apply List.map_congr_left; intro e _; exact RsEntry.capture_nil e
    unfold State.phaseC State.rsLaunch State.rsCapture
    simp only [this, launchFirst, h6]
  unfold State.beforeFetch
  rw [State.startCycle_of_running h0 ht]
  simp only [Flow.andThen_running, hA, hB]
  rw [hC { x with cycles := x.cycles + 1, commitLatch := none, lsqOut := none } h1 h5]

/-- The second cycle of an instruction that goes to a reservation station: launched and executed. -/
theorem rs_second {s : State} (hq : Quiet s) (ht : TimeFor 3 s) (hroom : FetchRoom 3 s) (r : Record) (op : RsOp)
    (hop : r.op = .rs op) :
    ∃ u, step (firstState s r) = .next u ∧
      Waiting s { r with pc := s.pc : Record }.robEntry (launchedOf s r op).broadcasts (launchedOf s r op).signals u ∧
          (NoLoadNext s → NoAccess u.lsq) := by
  set s1 : State := { s with cycles := s.cycles + 1, pc := s.pc + fall } with hs1
  have hq1 : Quiet s1 := quiet_with hq _ _
  obtain ⟨a, l, hrs, hfill⟩ :=
      quiet_fill hq1 { busy := true, op := op, o1 := s1.sourceOperand r.op.usesRs1 r.rs1, o2 := s1.sourceOperand r.op.usesRs2 r.rs2, imm := r.imm, dest := s1.rob.tail, pc := s.pc }
  have hrs' : ∀ e ∈ l, e.launch? = none := fun e he => RsEntry.launch?_of_not_busy (hq1.rsFree e (by simp [hrs, he]))
  set ent : RsEntry :=
      { busy := true, op := op, o1 := s1.sourceOperand r.op.usesRs1 r.rs1, o2 := s1.sourceOperand r.op.usesRs2 r.rs2, imm := r.imm, dest := s1.rob.tail, pc := s.pc } with hent
  have hla : ent.launch? = some (launchedOf s r op) := by
    rw [hent]
    unfold RsEntry.launch?
    rw [quiet_source hq1, quiet_source hq1]
    simp only [launchedOf, quiet_tail hq1]
    rfl
  have hT : firstState s r =
      { s1 with fq := [], rob := s1.rob.push { r with pc := s.pc : Record }.robEntry, lockReq := ({ r with pc := s.pc : Record }.lock s1.rob.tail).or s1.lockReq, rs := ent :: l } := by
    unfold firstState State.dispatch
    rw [← hs1]
    simp only [hop]
    rw [← hop, ← hent, hfill]
  set lock := ({ r with pc := s.pc : Record }.lock s1.rob.tail).or s1.lockReq
  set re := ({ r with pc := s.pc : Record }).robEntry with hre
  have hready : re.ready = false := by rw [hre]; simp [Record.robEntry, hop]
  have hslot : (s1.rob.push re).slots[(s1.rob.push re).head]? = some re := by
    rw [Fifo.push_head, Fifo.push_slot _ _ (by rw [quiet_tail hq1]; exact hq1.robHead), if_pos (quiet_tail hq1).symm]
  -- the state in which the second cycle's fetch begins
  obtain ⟨rst, hD⟩ :=
      State.phaseD_writes { s1 with fq := [], rob := s1.rob.push re, lockReq := lock, rs := { ent with busy := false } :: l, cycles := s1.cycles + 1, execLatch := some (launchedOf s r op) }
  have hb : (firstState s r).beforeFetch =
      .running { s1 with fq := [], rob := s1.rob.push re, lockReq := lock, rs := { ent with busy := false } :: l, cycles := s1.cycles + 1, execLatch := some (launchedOf s r op), rst := rst } := by
    have ht' : (firstState s r).timeLimitReached = false := by
      apply State.timeLimit_of_timeFor (k := 0)
      intro n hn
      rw [hT] at hn ⊢
      have := ht n hn
      simp [hs1]; omega
    rw [beforeFetch_launch (x := firstState s r) (ent := ent) (l := l) (la := launchedOf s r op)
        (by rw [hT]; exact hq1.running) ht' (by rw [hT]; exact hq1.cdb) (by rw [hT]; exact hq1.robSig) ?_
        (by rw [hT]; exact hq1.lsqEmpty) (by rw [hT]) hla]
    · rw [hT, ← hD]
      simp only [← hq1.commitLatch, ← hq1.lsqOut]
    · intro e he
      rw [hT] at he
      simp only at he
      rw [Fifo.front?_of_nonempty (by simp)] at he
      rw [hslot] at he
      obtain rfl := Option.some.inj he; exact hready
  obtain ⟨u, h1, h2, h3, _⟩ := second_cycle (e := re) hb (s := s) (by constructor <;> rfl) (by simp [hs1]) rfl
    (by rw [Fifo.push_head, Fifo.push_capacity]; exact hq1.robHead)
    (by rw [Fifo.push_count]; simp [hq1.robEmpty]) hslot hq1.commitLatch rfl hq1.fqCap rfl hroom hq1.lsqHead
  refine ⟨u, h1, ?_, fun hn => h3 hn ?_⟩
  · have e1 : s1.lsqOut = none := hq1.lsqOut
    simpa [State.phaseG, State.phaseF, e1] using h2
  · intro q hq'
    rw [Fifo.front?_of_empty (by exact hq1.lsqEmpty)] at hq'
    exact absurd hq' (by simp)

/-- Same path for the commit: the value and the redirect that arrive with the buses. -/
theorem rs_life {s : State} (hq : Quiet s) (ht : TimeFor 3 s) (hroom : FetchRoom 3 s) (hn : NoLoadNext s) (r : Record)
    (op : RsOp) (hop : r.op = .rs op) :
    ∃ u v e, s.takeIn r = .next (firstState s r) ∧ step (firstState s r) = .next u ∧ step u = v.phaseI ∧
      v.commitLatch = some (s.rob.head, e) ∧ Same s v ∧ v.cycles = s.cycles + 3 ∧ e.op = .rs op ∧ e.rd = r.rd ∧ e.pc =
          s.pc ∧
      (∀ x, (launchedOf s r op).value = some x → e.value = x) ∧ (∀ x, (launchedOf s r op).redirect = some x →
          e.redirect = x) := by
  obtain ⟨u, h1, hw, h3⟩ := rs_second hq ht hroom r op hop
  have hs : u.stopped = false := by
    unfold State.stopped; rw [hw.same.halted, hw.same.fault]; exact hq.running
  have htu : TimeFor 1 u := by
    intro n hn; rw [hw.same.maxCycles] at hn; have := ht n hn; rw [hw.cycles]; omega
  have hlive : ∀ f : Fifo RobEntry, f.head = s.rob.head → f.count ≠ 0 → f.head < f.capacity → f.live s.rob.head =
      true := by
    intro f h1 h2 h3; rw [← h1]; exact Fifo.live_head h2 h3
  have hcap : ∃ e, u.robCapture.rob.slots[u.rob.head]? = some e ∧ e.ready = true ∧ e.op = .rs op ∧ e.rd = r.rd ∧
      e.pc = s.pc ∧
      (∀ x, (launchedOf s r op).value = some x → e.value = x) ∧ (∀ x, (launchedOf s r op).redirect = some x →
          e.redirect = x) := by
    have hL := hlive u.rob hw.head hw.count hw.headLt
    have hsl := hw.slot
    rw [hw.head] at hsl ⊢
    unfold State.robCapture
    simp only [hw.cdbIs, hw.sigIs]
    cases op with
    | compute c =>
      simp only [Launched.broadcasts, Launched.signals, Launched.value, Launched.redirect, launchedOf, Option.toList,
          List.map_cons, List.map_nil, List.foldl_cons, List.foldl_nil]
      rw [applyResult, if_pos hL, Fifo.modify_slot, if_pos rfl, hsl]
      exact ⟨_, rfl, rfl, hop, rfl, rfl, by simp, by simp⟩
    | branch c =>
      simp only [Launched.broadcasts, Launched.signals, Launched.value, Launched.redirect, launchedOf, Option.toList,
          List.map_cons, List.map_nil, List.foldl_cons, List.foldl_nil]
      rw [applySignal, if_pos hL, Fifo.modify_slot, if_pos rfl, hsl]
      exact ⟨_, rfl, rfl, hop, rfl, rfl, by simp, by simp⟩
    | jump c =>
      simp only [Launched.broadcasts, Launched.signals, Launched.value, Launched.redirect, launchedOf, Option.toList,
          List.map_cons, List.map_nil, List.foldl_cons, List.foldl_nil]
      have hL2 : ∀ g, (u.rob.modify s.rob.head g).live s.rob.head = true := fun g =>
        hlive (u.rob.modify s.rob.head g) hw.head hw.count (by simpa using hw.headLt)
      rw [applyResult, if_pos hL, applySignal]
      dsimp only
      rw [if_pos (hL2 _), Fifo.modify_slot, if_pos rfl, Fifo.modify_slot, if_pos rfl, hsl]
      exact ⟨_, rfl, rfl, hop, rfl, rfl, by simp, by simp⟩
  obtain ⟨e, he, hr, k1, k2, k3, k4, k5⟩ := hcap
  obtain ⟨v, g1, g2, g3, g4⟩ := commit_cycle hs htu hw.count he hr (h3 hn) hw.pc
  exact ⟨u, v, e, quiet_takeIn hq (fun n h => by have := ht n h; omega) r, h1, g1,
      by rw [g2, hw.head], hw.same.trans g3, by rw [g4, hw.cycles], k1, k2, k3, k4, k5⟩

/-- Phase (c) of a core with no busy station. -/
theorem rs_none_ready {x : State} (h : ∀ e ∈ x.rs, e.busy = false) (c l o : _) (hc : x.cdb = []) :
    State.phaseC { x with lsq := l, lsqOut := o, mem := c } =
        { x with lsq := l, lsqOut := o, mem := c, execLatch := none } :=
  phaseC_of_none_ready (s := { x with lsq := l, lsqOut := o, mem := c }) hc fun e he => RsEntry.launch?_of_not_busy
      (h e he)

/-- A cycle up to its fetch, with nothing on the buses, a head that is not ready, and no busy station: the load-store
queue's head acts. -/
theorem beforeFetch_lsq {x : State} (h0 : x.stopped = false) (ht : x.timeLimitReached = false) (h1 : x.cdb = [])
    (h2 : x.robSig = []) (h3 : ∀ e, x.rob.front? = some e → e.ready = false) (h4 : ∀ e ∈ x.rs, e.busy = false) :
    x.beforeFetch = (State.lsqAttempt { x with cycles := x.cycles + 1, commitLatch := none, lsqOut := none }).andThen
      fun s2 => .running (State.phaseD { s2 with execLatch := none }) := by
  have hA : ∀ c, State.phaseA { x with cycles := c } = { x with cycles := c, commitLatch := none } := fun c =>
    phaseA_of_wait (s := { x with cycles := c }) h1 h2 h3
  have hcap : x.lsq.mapLive (LsqEntry.capture x.cdb) = x.lsq := by
    rw [h1]; exact Fifo.mapLive_eq_self fun i e _ _ => LsqEntry.capture_nil e
  unfold State.beforeFetch
  rw [State.startCycle_of_running h0 ht]
  simp only [Flow.andThen_running, hA]
  unfold State.phaseB State.lsqCapture
  simp only [hcap]
  set y : State := { x with cycles := x.cycles + 1, commitLatch := none, lsqOut := none } with hy
  rcases y.lsqAttempt_cases with h | ⟨q, op, base, data, _, _, _, _, h⟩ | ⟨q, op, base, data, _, _, _, _, _, h⟩ | ⟨q,
      op, base, data, _, _, _, _, _, _, h⟩
  · rw [h]; simp only [Flow.andThen_running]
    rw [show y.phaseC = _ from rs_none_ready (x := y) h4 y.mem y.lsq y.lsqOut h1]
  · rw [h]; unfold State.lsqLoad
    split
    · rfl
    · simp only [Flow.andThen_running]
      rw [show State.phaseC _ = _ from rs_none_ready (x := y) h4 y.mem _ _ h1]
  · rw [h]; unfold State.lsqStore
    split
    · rfl
    · simp only [Flow.andThen_running]
      rw [show State.phaseC _ = _ from rs_none_ready (x := y) h4 _ _ y.lsqOut h1]
  · rw [h]; unfold State.lsqReport
    simp only [Flow.andThen_running]
    rw [show State.phaseC _ = _ from rs_none_ready (x := y) h4 y.mem _ _ h1]

/-- The queue entry of a memory instruction's record. -/
def lsqEntryOf (s : State) (r : Record) (op : MemOp) : LsqEntry :=
  { op := op, o1 := .val (if r.op.usesRs1 then s.readReg r.rs1 else 0), o2 := .val (if r.op.usesRs2 then s.readReg r.rs2 else 0),
    imm := r.imm, dest := s.rob.head, ready := false, reported := false }

/-- The state after the first cycle of a load or store. -/
theorem firstState_mem {s : State} (hq : Quiet s) (r : Record) (op : MemOp) (hop : r.op = .mem op) :
    firstState s r =
        { s with cycles := s.cycles + 1, pc := s.pc + fall, fq := [], rob := s.rob.push { r with pc := s.pc : Record }.robEntry, lockReq := ({ r with pc := s.pc : Record }.lock s.rob.head).or s.lockReq, lsq := s.lsq.push (lsqEntryOf s r op) } := by
  have hq1 : Quiet { s with cycles := s.cycles + 1, pc := s.pc + fall } := quiet_with hq _ _
  unfold firstState State.dispatch
  simp only [hop]
  rw [quiet_source hq1, quiet_source hq1, quiet_tail hq]
  simp only [lsqEntryOf, hop]
  rfl

/-- The second cycle of a load or store up to its fetch: the queue's head makes its attempt. -/
theorem mem_beforeFetch {s : State} (hq : Quiet s) (ht : TimeFor 2 s) (r : Record) (op : MemOp)
    (hop : r.op = .mem op) :
    (firstState s r).beforeFetch = (State.lsqAttempt { firstState s r with cycles := s.cycles + 2 }).andThen
      fun s2 => .running (State.phaseD { s2 with execLatch := none }) := by
  have hT := firstState_mem hq r op hop
  have hslot : (s.rob.push { r with pc := s.pc : Record }.robEntry).front? =
      some { r with pc := s.pc : Record }.robEntry := by
    rw [Fifo.front?_of_nonempty (by simp), Fifo.push_head, Fifo.push_slot _ _
        (by rw [quiet_tail hq]; exact hq.robHead), if_pos (quiet_tail hq).symm]
  rw [beforeFetch_lsq (x := firstState s r)]
  · rw [hT]
    simp only [← hq.commitLatch, ← hq.lsqOut]
  · rw [hT]; exact hq.running
  · apply State.timeLimit_of_timeFor (k := 0)
    intro n hn
    rw [hT] at hn ⊢
    have := ht n hn
    simp; omega
  · rw [hT]; exact hq.cdb
  · rw [hT]; exact hq.robSig
  · rw [hT]; intro e he
    simp only at he
    rw [hslot] at he
    obtain rfl := Option.some.inj he
    simp [Record.robEntry, hop]
  · rw [hT]; exact hq.rsFree

/-- The load or store stands at the head of the queue. -/
theorem firstState_front {s : State} (hq : Quiet s) (r : Record) (op : MemOp) (hop : r.op = .mem op) :
    (firstState s r).lsq.front? = some (lsqEntryOf s r op) := by
  rw [firstState_mem hq r op hop]
  simp only
  rw [Fifo.front?_of_nonempty (by simp), Fifo.push_head, Fifo.push_slot _ _
      (by rw [quiet_lsq_tail hq]; exact hq.lsqHead), if_pos (quiet_lsq_tail hq).symm]

/-- A load's attempt reads memory at its effective address (R145). -/
theorem load_attempt {s : State} (hq : Quiet s) (r : Record) (op : LoadOp) (hop : r.op = .mem (.load op)) (c : Nat) :
    State.lsqAttempt { firstState s r with cycles := c } =
      State.lsqLoad { firstState s r with cycles := c } op s.rob.head (effectiveAddress (s.readReg r.rs1) r.imm) := by
  have hf : ({ firstState s r with cycles := c } : State).lsq.front? = _ := firstState_front hq r _ hop
  unfold State.lsqAttempt
  rw [hf]
  simp only [lsqEntryOf, State.lsqAct, hop, OpKind.usesRs1]
  rfl

/-- A load out of range: the second cycle raises (R145). -/
theorem load_oor {s : State} (hq : Quiet s) (ht : TimeFor 2 s) (r : Record) (op : LoadOp) (hop : r.op = .mem
    (.load op))
    (hoor : s.memSize < (effectiveAddress (s.readReg r.rs1) r.imm).toNat + op.width) :
    ∃ u, s.takeIn r = .next (firstState s r) ∧ step (firstState s r) = .next u ∧ u.fault = .memoryAccessError ∧
      u.faultAddr = effectiveAddress (s.readReg r.rs1) r.imm ∧ u.x = s.x ∧ u.mem = s.mem ∧ u.halted = false ∧
          u.cycles = s.cycles + 2 ∧ u.pc = s.pc + fall := by
  have hb := mem_beforeFetch hq ht r _ hop
  rw [load_attempt hq r op hop] at hb
  have hT := firstState_mem hq r _ hop
  set f := firstState s r with hfdef
  have hm : memRead ({ f with cycles := s.cycles + 2 } : State).mem
      ({ f with cycles := s.cycles + 2 } : State).memSize (effectiveAddress (s.readReg r.rs1) r.imm) op.width =
      none := by
    rw [memRead_eq_none, hT]; exact hoor
  unfold State.lsqLoad at hb
  rw [hm] at hb
  simp only [Flow.andThen_ended] at hb
  have hh : s.halted = false := by have := hq.running; unfold State.stopped at this; simp at this; exact this.1
  refine ⟨_, quiet_takeIn hq (fun n h => by have := ht n h; omega) r,
      by unfold step State.cycleStart; rw [hb], rfl, rfl, ?_, ?_, ?_, rfl, ?_⟩ <;> rw [hT] <;> first | rfl | exact hh

/-- A load in range, up to the phase (i) that commits it. -/
theorem load_life {s : State} (hq : Quiet s) (ht : TimeFor 3 s) (hroom : FetchRoom 3 s) (hn : NoLoadNext s)
    (r : Record) (op : LoadOp) (hop : r.op = .mem (.load op)) (raw : Word)
    (hin : memRead s.mem s.memSize (effectiveAddress (s.readReg r.rs1) r.imm) op.width = some raw) :
    ∃ u v e, s.takeIn r = .next (firstState s r) ∧ step (firstState s r) = .next u ∧ step u = v.phaseI ∧
      v.commitLatch = some (s.rob.head, e) ∧ Same s v ∧ v.cycles = s.cycles + 3 ∧ e.op = .mem (.load op) ∧ e.rd =
          r.rd ∧ e.pc = s.pc ∧
      e.value = op.extend raw := by
  have hb := mem_beforeFetch hq (fun n h => by have := ht n h; omega) r _ hop
  rw [load_attempt hq r op hop] at hb
  have hT := firstState_mem hq r _ hop
  have hslot : (s.rob.push { r with pc := s.pc : Record }.robEntry).slots[s.rob.head]? =
      some { r with pc := s.pc : Record }.robEntry := by
    rw [Fifo.push_slot _ _ (by rw [quiet_tail hq]; exact hq.robHead), if_pos (quiet_tail hq).symm]
  have hm : memRead ({ firstState s r with cycles := s.cycles + 2 } : State).mem
      ({ firstState s r with cycles := s.cycles + 2 } : State).memSize (effectiveAddress
      (s.readReg r.rs1) r.imm) op.width = some raw := by
    rw [hT]; exact hin
  unfold State.lsqLoad at hb
  rw [hm] at hb
  simp only [Flow.andThen_running] at hb
  obtain ⟨rst, hD⟩ :=
      State.phaseD_writes { firstState s r with cycles := s.cycles + 2, lsq := (firstState s r).lsq.pop, lsqOut := some (.loadResult s.rob.head (op.extend raw)), execLatch := none }
  rw [hD] at hb
  rw [hT] at hb
  have hlc : (s.lsq.push (lsqEntryOf s r (.load op))).count = 1 := by simp [hq.lsqEmpty]
  obtain ⟨u, h1, hw, h3, _⟩ := second_cycle (e := ({ r with pc := s.pc : Record }).robEntry) hb (s := s)
      (by constructor <;> rfl) rfl rfl
    (by rw [Fifo.push_head, Fifo.push_capacity]; exact hq.robHead)
    (by rw [Fifo.push_count]; simp [hq.robEmpty]) hslot hq.commitLatch rfl hq.fqCap rfl hroom
    (by rw [Fifo.pop_capacity, Fifo.pop_head]; exact Nat.mod_lt _ (by have := hq.lsqHead; simp; omega))
  rw [← hT] at h1
  have h3 := h3 hn (by
    intro q hq'
    rw [Fifo.front?_of_empty (by rw [Fifo.pop_count, hlc])] at hq'
    exact absurd hq' (by simp))
  have hs : u.stopped = false := by
    unfold State.stopped; rw [hw.same.halted, hw.same.fault]; exact hq.running
  have htu : TimeFor 1 u := by
    intro n hn; rw [hw.same.maxCycles] at hn; have := ht n hn; rw [hw.cycles]; omega
  have hL : u.rob.live s.rob.head = true := by rw [← hw.head]; exact Fifo.live_head hw.count hw.headLt
  have e1 : u.cdb = [(s.rob.head, op.extend raw)] := by
    rw [hw.cdbIs]; simp [State.phaseG, State.phaseF, LsqOut.broadcasts]
  have e2 : u.robSig = [] := by
    rw [hw.sigIs]; simp [State.phaseG, State.phaseF, LsqOut.signals]
  have hcap : ∃ e, u.robCapture.rob.slots[u.rob.head]? = some e ∧ e.ready = true ∧ e.op = .mem (.load op) ∧ e.rd =
      r.rd ∧ e.pc = s.pc ∧ e.value = op.extend raw := by
    have hsl := hw.slot
    rw [hw.head] at hsl ⊢
    unfold State.robCapture
    simp only [e1, e2, List.foldl_cons, List.foldl_nil]
    rw [applyResult, if_pos hL, Fifo.modify_slot, if_pos rfl, hsl]
    exact ⟨_, rfl, rfl, hop, rfl, rfl, rfl⟩
  obtain ⟨e, he, hr, k1, k2, k3, k4⟩ := hcap
  obtain ⟨v, g1, g2, g3, g4⟩ := commit_cycle hs htu hw.count he hr h3 hw.pc
  exact ⟨u, v, e, quiet_takeIn hq (fun n h => by have := ht n h; omega) r, h1, g1,
      by rw [g2, hw.head], hw.same.trans g3, by rw [g4, hw.cycles], k1, k2, k3, k4⟩

/-- HALT: taken in by one cycle, committed by the next. -/
theorem halt_life {s : State} (hq : Quiet s) (ht : TimeFor 2 s) (hroom : FetchRoom 2 s) (r : Record)
    (hop : r.op = .halt) :
    ∃ v e, s.takeIn r = .next (firstState s r) ∧ step (firstState s r) = v.phaseI ∧
      v.commitLatch = some (s.rob.head, e) ∧ Same s v ∧ v.cycles = s.cycles + 2 ∧ e.op = .halt := by
  have hq1 : Quiet { s with cycles := s.cycles + 1, pc := s.pc + fall } := quiet_with hq _ _
  have hT : firstState s r =
      { s with cycles := s.cycles + 1, pc := s.pc + fall, fq := [], rob := s.rob.push { r with pc := s.pc : Record }.robEntry, lockReq := ({ r with pc := s.pc : Record }.lock s.rob.tail).or s.lockReq } := by
    unfold firstState State.dispatch
    simp only [hop]
  have hslot : (s.rob.push { r with pc := s.pc : Record }.robEntry).slots[s.rob.head]? =
      some { r with pc := s.pc : Record }.robEntry := by
    rw [Fifo.push_slot _ _ (by rw [quiet_tail hq]; exact hq.robHead), if_pos (quiet_tail hq).symm]
  have hcap : (firstState s r).robCapture.rob.slots[(firstState s r).rob.head]? =
      some { r with pc := s.pc : Record }.robEntry := by
    rw [robCapture_of_nil (by rw [hT]; exact hq.cdb) (by rw [hT]; exact hq.robSig), hT]
    exact hslot
  obtain ⟨v, g1, g2, g3, g4⟩ := commit_cycle (u := firstState s r) (e := { r with pc := s.pc : Record }.robEntry)
    (by rw [hT]; exact hq.running) (by intro n hn; rw [hT] at hn ⊢; have := ht n hn; simp; omega)
        (by rw [hT]; simp) hcap
    (by simp [Record.robEntry, hop])
    (by rw [hT]; intro q hq'; rw [Fifo.front?_of_empty (by exact hq.lsqEmpty)] at hq'; exact absurd hq' (by simp))
    (by
      have := hroom
      unfold FetchRoom at this
      have hadd : (s.pc + fall).toNat ≤ s.pc.toNat + 4 := by
        simp only [fall, BitVec.toNat_add]; exact Nat.mod_le _ _
      rw [hT]; simp only; omega)
  refine ⟨v, _, quiet_takeIn hq (fun n h => by have := ht n h; omega) r, g1,
      by rw [g2, hT]; rfl, ?_, by rw [g4, hT], hop⟩
  have : Same s (firstState s r) := by rw [hT]; constructor <;> rfl
  exact this.trans g3

/-- Forcing `x[0]` to zero changes nothing where it is zero (R130). -/
theorem State.forceZero_of_zero {s : State} (h : s.readReg 0 = 0) : s.forceZero = s := by
  have : s.x.set (0 : RegIdx).toNat 0 (0 : RegIdx).isLt = s.x := by
    apply Vector.ext
    intro i hi
    rw [Vector.getElem_set]
    split
    · rename_i hx; subst hx; exact h.symm
    · rfl
  unfold State.forceZero State.writeReg
  rw [this]

/-- Phase (i) with an entry to commit (R123). -/
theorem State.phaseI_of_some {s : State} {t : Tag} {e : RobEntry} (h : s.commitLatch = some (t, e)) {u : State}
    (hc : State.commitEntry { s with commitLatch := none } t e = .next u) : s.phaseI = .next u.forceZero := by
  unfold State.phaseI; rw [h]; simp only; rw [hc]

/-- Retiring a register writes it, unless it is register 0 (R128). -/
theorem State.retireRegister_wrote {s : State} (t : Tag) (rd : RegIdx) (v : Word)
    (h0 : s.readReg 0 = 0) : Wrote s (s.retireRegister t rd v) rd v ∧ (s.retireRegister t rd v).readReg 0 = 0 := by
  unfold State.retireRegister
  split
  · rename_i h
    exact ⟨⟨fun r => by simp [h], rfl, rfl, rfl, rfl⟩, h0⟩
  · rename_i h
    refine ⟨⟨fun r => ?_, rfl, rfl, rfl, rfl⟩, ?_⟩
    · have := State.readReg_writeReg s rd r v
      rw [show ({ s.writeReg rd v with unlockReq := some (rd, t) } : State).readReg r =
          (s.writeReg rd v).readReg r from rfl, this]
      by_cases hr : r = rd
      · rw [if_pos hr, if_pos ⟨hr, h⟩]
      · rw [if_neg hr, if_neg (fun x => hr x.1)]
    · have := State.readReg_writeReg s rd 0 v
      rw [show ({ s.writeReg rd v with unlockReq := some (rd, t) } : State).readReg 0 =
          (s.writeReg rd v).readReg 0 from rfl, this, if_neg (Ne.symm h)]
      exact h0

end Sys2Proof.Machine
end

