-- ==== Sys2Proof/Laws/Queues.lean ====
section
/-! SUPPORT. Lemmas about the circular queues (spec/10_state.md R19, R21, R25): which slots are live, and what a push,
    a
pop and the oldest-first scan do. -/

namespace Sys2Proof.Machine

/-- Applying broadcasts moves neither head nor count (R120). -/
theorem foldl_applyResult_shape (cdb : List (Tag × Word)) (r : Fifo RobEntry) :
    (cdb.foldl applyResult r).head = r.head ∧ (cdb.foldl applyResult r).count = r.count ∧
        (cdb.foldl applyResult r).capacity = r.capacity := by
  induction cdb generalizing r with
  | nil => simp
  | cons b l ih =>
    simp only [List.foldl_cons]
    obtain ⟨h1, h2, h3⟩ := ih (applyResult r b)
    rw [h1, h2, h3]; unfold applyResult; split <;> simp

/-- Applying ready signals moves neither head nor count (R120). -/
theorem foldl_applySignal_shape (cdb : List (Tag × Word)) (r : Fifo RobEntry) :
    (cdb.foldl applySignal r).head = r.head ∧ (cdb.foldl applySignal r).count = r.count ∧
        (cdb.foldl applySignal r).capacity = r.capacity := by
  induction cdb generalizing r with
  | nil => simp
  | cons b l ih =>
    simp only [List.foldl_cons]
    obtain ⟨h1, h2, h3⟩ := ih (applySignal r b)
    rw [h1, h2, h3]; unfold applySignal; split <;> simp

/-- Part 1 of phase (a) moves neither head nor count (R120). -/
theorem State.robCapture_shape (s : State) :
    s.robCapture.rob.head = s.rob.head ∧ s.robCapture.rob.count = s.rob.count ∧ s.robCapture.rob.capacity =
        s.rob.capacity := by
  unfold State.robCapture
  simp only
  obtain ⟨a, b, c⟩ := foldl_applySignal_shape s.robSig (s.cdb.foldl applyResult s.rob)
  obtain ⟨d, e, f⟩ := foldl_applyResult_shape s.cdb s.rob
  exact ⟨a.trans d, b.trans e, c.trans f⟩

/-- Head and count in range: the shape R19 and R25 give a queue. -/
def Fifo.InBounds {α : Type} (f : Fifo α) : Prop := f.head < f.capacity ∧ f.count ≤ f.capacity

theorem Fifo.InBounds.pop {α : Type} {f : Fifo α} (h : f.InBounds) : f.pop.InBounds := by
  obtain ⟨h1, h2⟩ := h
  refine ⟨?_, ?_⟩
  · rw [Fifo.pop_head, Fifo.pop_capacity]; exact Nat.mod_lt _ (by omega)
  · rw [Fifo.pop_count, Fifo.pop_capacity]; omega

theorem Fifo.InBounds.push {α : Type} {f : Fifo α} (h : f.InBounds) (e : α) (hr : f.hasRoom = true) :
    (f.push e).InBounds := by
  unfold Fifo.hasRoom at hr
  simp at hr
  exact ⟨by simpa using h.1, by simp; omega⟩

/-- Phase (a) keeps the reorder buffer's shape (R121). -/
theorem State.phaseA_inBounds {s : State} (h : s.rob.InBounds) : s.phaseA.rob.InBounds := by
  have h1 : s.robCapture.rob.InBounds := by
    obtain ⟨a, b, c⟩ := State.robCapture_shape s
    unfold Fifo.InBounds; rw [a, b, c]; exact h
  unfold State.phaseA State.robPop
  split
  · split
    · exact h1.pop
    · exact h1
  · exact h1

section
variable {α : Type} {f : Fifo α}

/-- The live slots are the `count` slots from the head on (R19, R21). -/
theorem Fifo.live_iff (h : f.InBounds) {i : Nat} (hi : i < f.capacity) :
    f.live i = true ↔ ∃ k, k < f.count ∧ (f.head + k) % f.capacity = i := by
  obtain ⟨h1, h2⟩ := h
  unfold Fifo.live
  simp only [decide_eq_true_eq]
  constructor
  · intro hl
    refine ⟨_, hl, ?_⟩
    rcases Nat.lt_or_ge i f.head with hc | hc
    · rw [Nat.mod_eq_of_lt (a := i + f.capacity - f.head) (by omega)]
      rw [show f.head + (i + f.capacity - f.head) = i + f.capacity by omega, Nat.add_mod_right, Nat.mod_eq_of_lt hi]
    · rw [show i + f.capacity - f.head =
        (i - f.head) + f.capacity by omega, Nat.add_mod_right, Nat.mod_eq_of_lt (a := i - f.head) (by omega)]
      rw [show f.head + (i - f.head) = i by omega, Nat.mod_eq_of_lt hi]
  · rintro ⟨k, hk, rfl⟩
    rcases Nat.lt_or_ge (f.head + k) f.capacity with hc | hc
    · rw [Nat.mod_eq_of_lt hc, show f.head + k + f.capacity - f.head =
        k + f.capacity by omega, Nat.add_mod_right, Nat.mod_eq_of_lt (by omega)]
      exact hk
    · rw [Nat.mod_eq_sub_mod hc, Nat.mod_eq_of_lt (a := f.head + k - f.capacity) (by omega),
        show f.head + k - f.capacity + f.capacity - f.head = k by omega, Nat.mod_eq_of_lt (by omega)]
      exact hk

theorem Fifo.lt_of_slot {i : Nat} {e : α} (h : f.slots[i]? = some e) : i < f.capacity := by
  unfold Fifo.capacity; exact (List.getElem?_eq_some_iff.mp h).1

/-- What the oldest-first scan finds is live and satisfies the predicate. -/
theorem Fifo.findLive?_some {p : α → Bool} {i : Nat} (hf : f.InBounds) (h : f.findLive? p = some i) :
    ∃ e, f.slots[i]? = some e ∧ p e = true ∧ f.live i = true := by
  unfold Fifo.findLive? at h
  have h1 := List.find?_some h
  have h2 := List.mem_of_find?_eq_some h
  unfold Fifo.liveSlots at h2
  simp only [List.mem_map, List.mem_range] at h2
  obtain ⟨k, hk, rfl⟩ := h2
  cases hs : f.slots[(f.head + k) % f.capacity]? with
  | none => rw [hs] at h1; simp at h1
  | some e =>
    rw [hs] at h1
    simp at h1
    exact ⟨e, rfl, h1, (Fifo.live_iff hf (Fifo.lt_of_slot hs)).mpr ⟨k, hk, rfl⟩⟩

/-- What the scan does not find does not exist. -/
theorem Fifo.findLive?_none {p : α → Bool} (hf : f.InBounds) (h : f.findLive? p = none) {i : Nat} {e : α}
    (hl : f.live i = true)
    (hs : f.slots[i]? = some e) : p e = false := by
  unfold Fifo.findLive? at h
  rw [List.find?_eq_none] at h
  have := h i (by
    unfold Fifo.liveSlots
    simp only [List.mem_map, List.mem_range]
    exact (Fifo.live_iff hf (Fifo.lt_of_slot hs)).mp hl)
  rw [hs] at this
  simpa using this

/-- The scan finds the head first. -/
theorem Fifo.findLive?_head {α : Type} {f : Fifo α} {p : α → Bool} {e : α} (hb : f.InBounds) (hc : f.count ≠ 0)
    (h : f.slots[f.head]? = some e) (hp : p e = true) : f.findLive? p = some f.head := by
  unfold Fifo.findLive? Fifo.liveSlots
  cases hn : f.count with
  | zero => exact absurd hn hc
  | succ n =>
    rw [List.range_succ_eq_map, List.map_cons, List.find?_cons_of_pos]
    · rw [Nat.add_zero, Nat.mod_eq_of_lt hb.1]
    · rw [Nat.add_zero, Nat.mod_eq_of_lt hb.1, h]; simpa using hp

/-- A slot still live after a pop was live, and is not the head. -/
theorem Fifo.live_pop (h : f.InBounds) {i : Nat} (hi : i < f.capacity) :
    f.pop.live i = true ↔ f.live i = true ∧ i ≠ f.head := by
  rw [Fifo.live_iff h.pop (by simpa using hi), Fifo.live_iff h hi]
  simp only [Fifo.pop_count, Fifo.pop_head, Fifo.pop_capacity]
  obtain ⟨h1, h2⟩ := h
  constructor
  · rintro ⟨k, hk, rfl⟩
    rw [Nat.mod_add_mod]
    refine ⟨⟨k + 1, by omega, by rw [show f.head + (k + 1) = f.head + 1 + k by omega]⟩, fun he => ?_⟩
    rcases Nat.lt_or_ge (f.head + 1 + k) f.capacity with hx | hx
    · rw [Nat.mod_eq_of_lt hx] at he; omega
    · rw [Nat.mod_eq_sub_mod hx, Nat.mod_eq_of_lt (by omega)] at he; omega
  · rintro ⟨⟨k, hk, rfl⟩, hne⟩
    cases k with
    | zero => exact absurd (by rw [Nat.add_zero, Nat.mod_eq_of_lt h1]) hne
    | succ k => exact ⟨k, by omega, by rw [Nat.mod_add_mod, show f.head + 1 + k = f.head + (k + 1) by omega]⟩

/-- The slots live after a push are the ones live before and the tail, which was not live. -/
theorem Fifo.live_push (h : f.InBounds) (hr : f.count < f.capacity) (e : α) {i : Nat} (hi : i < f.capacity) :
    (f.push e).live i = true ↔ f.live i = true ∨ i = f.tail := by
  rw [Fifo.live_iff (h.push e (by unfold Fifo.hasRoom; simpa using hr)) (by simpa using hi), Fifo.live_iff h hi]
  simp only [Fifo.push_count, Fifo.push_head, Fifo.push_capacity]
  unfold Fifo.tail
  constructor
  · rintro ⟨k, hk, rfl⟩
    rcases Nat.lt_or_ge k f.count with hx | hx
    · exact Or.inl ⟨k, hx, rfl⟩
    · exact Or.inr (by rw [show k = f.count by omega])
  · rintro (⟨k, hk, rfl⟩ | rfl)
    · exact ⟨k, by omega, rfl⟩
    · exact ⟨_, by omega, rfl⟩

/-- A push goes to a slot that is not live. -/
theorem Fifo.tail_not_live (h : f.InBounds) (hr : f.count < f.capacity) : f.live f.tail = false := by
  cases hl : f.live f.tail with
  | false => rfl
  | true =>
    obtain ⟨k, hk, he⟩ := (Fifo.live_iff h (Fifo.tail_lt (by omega))).mp hl
    exfalso
    obtain ⟨h1, h2⟩ := h
    unfold Fifo.tail at he
    rcases Nat.lt_or_ge (f.head + k) f.capacity with hx | hx <;> rcases Nat.lt_or_ge
        (f.head + f.count) f.capacity with hy | hy
    · rw [Nat.mod_eq_of_lt hx, Nat.mod_eq_of_lt hy] at he; omega
    · rw [Nat.mod_eq_of_lt hx, Nat.mod_eq_sub_mod hy, Nat.mod_eq_of_lt (by omega)] at he; omega
    · omega
    · rw [Nat.mod_eq_sub_mod hx, Nat.mod_eq_sub_mod hy, Nat.mod_eq_of_lt (by omega), Nat.mod_eq_of_lt
        (by omega)] at he; omega

theorem Fifo.live_congr {β : Type} {g : Fifo β} (h1 : g.head = f.head) (h2 : g.count = f.count)
    (h3 : g.capacity = f.capacity) (i : Nat) :
    g.live i = f.live i := by unfold Fifo.live; rw [h1, h2, h3]

end

end Sys2Proof.Machine
end

