-- ==== Sys2Proof/Laws/Links.lean ====
section
/-! SUPPORT. How the links of `TagsLinked` (spec/10_state.md R32, spec/43_rs_lsq_cdb_execute.md R153) pass through the
phases of a cycle: `Links` says them between two phases, with one lemma per phase. -/

namespace Sys2Proof.Machine

/-! ### What the phases do to a live slot of the reorder buffer -/

/-- What phase (a) leaves of an entry, and its readiness: `named` says that a bus names it. -/
def RobEntry.After (named : Prop) (e e' : RobEntry) : Prop :=
  e'.op = e.op ∧ e'.rd = e.rd ∧ (e'.ready = true ↔ e.ready = true ∨ named)

/-- Slot `t` after the results of `cdb` (R120). -/
theorem foldl_applyResult_slot (cdb : List (Tag × Word)) (r : Fifo RobEntry) (t : Tag) (e : RobEntry)
    (h : r.slots[t]? = some e) :
    ∃ e', (cdb.foldl applyResult r).slots[t]? = some e' ∧ e.After (r.live t = true ∧ t ∈ cdb.map Prod.fst) e' := by
  induction cdb generalizing r e with
  | nil => exact ⟨e, h, rfl, rfl, by simp⟩
  | cons b l ih =>
    rw [List.foldl_cons]
    obtain ⟨s1, s2, s3⟩ := foldl_applyResult_shape [b] r
    simp only [List.foldl_cons, List.foldl_nil] at s1 s2 s3
    have hl : (applyResult r b).live t = r.live t := Fifo.live_congr s1 s2 s3 t
    by_cases hb : r.live b.1 = true
    · by_cases ht : t = b.1
      · subst ht
        have : (applyResult r b).slots[b.1]? = some { e with value := b.2, ready := true } := by
          unfold applyResult; rw [if_pos hb, Fifo.modify_slot, if_pos rfl, h]; rfl
        obtain ⟨e', h1, h2, h3, h4⟩ := ih _ _ this
        refine ⟨e', h1, h2, h3, ?_⟩
        simp [h4, hb]
      · have : (applyResult r b).slots[t]? = some e := by
          unfold applyResult; rw [if_pos hb, Fifo.modify_slot, if_neg ht, h]
        obtain ⟨e', h1, h2, h3, h4⟩ := ih _ _ this
        refine ⟨e', h1, h2, h3, ?_⟩
        rw [h4, hl]; simp [ht]
    · have hr : applyResult r b = r := by unfold applyResult; rw [if_neg hb]
      rw [hr]
      obtain ⟨e', h1, h2, h3, h4⟩ := ih _ _ h
      refine ⟨e', h1, h2, h3, ?_⟩
      rw [h4]
      by_cases ht : t = b.1
      · subst ht; simp [hb]
      · simp [ht]

/-- Slot `t` after the signals of `rob_sig` (R120). -/
theorem foldl_applySignal_slot (sig : List (Tag × Word)) (r : Fifo RobEntry) (t : Tag) (e : RobEntry)
    (h : r.slots[t]? = some e) :
    ∃ e', (sig.foldl applySignal r).slots[t]? = some e' ∧ e.After (r.live t = true ∧ t ∈ sig.map Prod.fst) e' := by
  induction sig generalizing r e with
  | nil => exact ⟨e, h, rfl, rfl, by simp⟩
  | cons b l ih =>
    rw [List.foldl_cons]
    obtain ⟨s1, s2, s3⟩ := foldl_applySignal_shape [b] r
    simp only [List.foldl_cons, List.foldl_nil] at s1 s2 s3
    have hl : (applySignal r b).live t = r.live t := Fifo.live_congr s1 s2 s3 t
    by_cases hb : r.live b.1 = true
    · by_cases ht : t = b.1
      · subst ht
        have : (applySignal r b).slots[b.1]? = some { e with redirect := b.2, ready := true } := by
          unfold applySignal; rw [if_pos hb, Fifo.modify_slot, if_pos rfl, h]; rfl
        obtain ⟨e', h1, h2, h3, h4⟩ := ih _ _ this
        refine ⟨e', h1, h2, h3, ?_⟩
        simp [h4, hb]
      · have : (applySignal r b).slots[t]? = some e := by
          unfold applySignal; rw [if_pos hb, Fifo.modify_slot, if_neg ht, h]
        obtain ⟨e', h1, h2, h3, h4⟩ := ih _ _ this
        refine ⟨e', h1, h2, h3, ?_⟩
        rw [h4, hl]; simp [ht]
    · have hr : applySignal r b = r := by unfold applySignal; rw [if_neg hb]
      rw [hr]
      obtain ⟨e', h1, h2, h3, h4⟩ := ih _ _ h
      refine ⟨e', h1, h2, h3, ?_⟩
      rw [h4]
      by_cases ht : t = b.1
      · subst ht; simp [hb]
      · simp [ht]

/-- R120: a live slot keeps kind and register, and is ready if it was or if a bus names it. -/
theorem State.robCapture_hasSlot {s : State} {t : Tag} {p : RobEntry → Prop} :
    s.robCapture.HasSlot t p ↔ ∃ e e', s.robCapture.rob.slots[t]? = some e' ∧ s.rob.live t = true ∧
      s.rob.slots[t]? = some e ∧ e.After (s.OnBus t) e' ∧ p e' := by
  obtain ⟨a, b, c⟩ := s.robCapture_shape
  have hl : s.robCapture.rob.live t = s.rob.live t := Fifo.live_congr a b c t
  unfold State.HasSlot
  rw [hl]
  constructor
  · rintro ⟨h1, e', h2, h3⟩
    cases hs : s.rob.slots[t]? with
    | none =>
      rw [List.getElem?_eq_none_iff] at hs
      have := Fifo.lt_of_slot h2
      rw [c] at this; unfold Fifo.capacity at this; omega
    | some e =>
      obtain ⟨e1, k1, k2, k3, k4⟩ := foldl_applyResult_slot s.cdb s.rob t e hs
      obtain ⟨e2, m1, m2, m3, m4⟩ := foldl_applySignal_slot s.robSig _ t e1 k1
      obtain ⟨x, y, z⟩ := foldl_applyResult_shape s.cdb s.rob
      rw [Fifo.live_congr x y z t] at m4
      change (s.robCapture.rob.slots[t]? = some e2) at m1
      rw [m1] at h2; obtain rfl := Option.some.inj h2
      refine ⟨e, e2, m1, h1, rfl, ⟨by rw [m2, k2], by rw [m3, k3], ?_⟩, h3⟩
      rw [m4, k4]; unfold State.OnBus; simp only [h1, true_and]; rw [or_assoc]
  · rintro ⟨e, e', h1, h2, h3, h4, h5⟩
    exact ⟨h2, e', h1, h5⟩

/-- A live slot after part 1 of phase (a). -/
theorem State.robCapture_of_hasSlot {s : State} {t : Tag} {p : RobEntry → Prop} (h : s.HasSlot t p) :
    ∃ e e', s.robCapture.rob.slots[t]? = some e' ∧ s.rob.slots[t]? = some e ∧ p e ∧ e.After (s.OnBus t) e' ∧
      s.robCapture.rob.live t = true := by
  obtain ⟨h1, e, h2, h3⟩ := h
  obtain ⟨a, b, c⟩ := s.robCapture_shape
  have hl : s.robCapture.rob.live t = s.rob.live t := Fifo.live_congr a b c t
  have hlt := Fifo.lt_of_slot h2
  have : ∃ e', s.robCapture.rob.slots[t]? = some e' := by
    rw [← c] at hlt
    exact ⟨_, List.getElem?_eq_getElem hlt⟩
  obtain ⟨e', h4⟩ := this
  have : s.robCapture.HasSlot t fun x => x = e' := ⟨by rw [hl]; exact h1, e', h4, rfl⟩
  obtain ⟨e1, e2, k1, k2, k3, k4, k5⟩ := State.robCapture_hasSlot.mp this
  rw [h2] at k3; obtain rfl := Option.some.inj k3
  rw [h4] at k1; obtain rfl := Option.some.inj k1
  exact ⟨e, e', h4, h2, h3, k4, by rw [hl]; exact h1⟩

/-- Two states with the same reorder buffer have the same slots. -/
theorem State.hasSlot_congr {s u : State} (h : u.rob = s.rob) (t : Tag) (p : RobEntry → Prop) :
    u.HasSlot t p ↔ s.HasSlot t p := by unfold State.HasSlot; rw [h]

/-- What a live slot satisfies, weakened. -/
theorem State.HasSlot.mono {s : State} {t : Tag} {p q : RobEntry → Prop} (h : s.HasSlot t p) (hpq : ∀ e, p e → q e) :
    s.HasSlot t q := by obtain ⟨h1, e, h2, h3⟩ := h; exact ⟨h1, e, h2, hpq e h3⟩

/-- A slot holds one entry. -/
theorem State.HasSlot.and {s : State} {t : Tag} {p q : RobEntry → Prop} (h : s.HasSlot t p) (k : s.HasSlot t q) :
    s.HasSlot t fun e => p e ∧ q e := by
  obtain ⟨h1, e, h2, h3⟩ := h
  obtain ⟨_, e', k2, k3⟩ := k
  rw [h2] at k2; obtain rfl := Option.some.inj k2
  exact ⟨h1, e, h2, h3, k3⟩

/-- The entry in a live slot. -/
theorem State.HasSlot.exists {s : State} {t : Tag} {p : RobEntry → Prop} (h : s.HasSlot t p) : ∃ e, p e :=
  ⟨_, h.2.choose_spec.2⟩

/-- Phase (a) leaves live what it does not pop (R121). -/
theorem State.phaseA_hasSlot {s : State} {t : Tag} {p : RobEntry → Prop} (hb : s.rob.InBounds) :
    s.phaseA.HasSlot t p ↔ s.robCapture.HasSlot t p ∧ ∀ e, s.phaseA.commitLatch ≠ some (t, e) := by
  have hb' : s.robCapture.rob.InBounds := by
    obtain ⟨a, b, c⟩ := s.robCapture_shape
    unfold Fifo.InBounds; rw [a, b, c]; exact hb
  unfold State.phaseA State.robPop
  split
  · rename_i e he
    split
    · unfold State.HasSlot
      simp only [ne_eq, Option.some.injEq, Prod.mk.injEq, not_and]
      constructor
      · rintro ⟨h1, e', h2, h3⟩
        rw [Fifo.pop_slots] at h2
        obtain ⟨k1, k2⟩ := (Fifo.live_pop hb' (Fifo.lt_of_slot h2)).mp h1
        exact ⟨⟨k1, e', h2, h3⟩, fun _ h => absurd h.symm k2⟩
      · rintro ⟨⟨h1, e', h2, h3⟩, h4⟩
        exact ⟨(Fifo.live_pop hb' (Fifo.lt_of_slot h2)).mpr ⟨h1, fun h => h4 e h.symm rfl⟩, e', h2, h3⟩
    · simp [State.HasSlot]
  · simp [State.HasSlot]

/-- What phase (a) pops is a live slot, ready after the captures (R121). -/
theorem State.phaseA_commitLatch {s : State} {t : Tag} {e : RobEntry} (hb : s.rob.InBounds)
    (h : s.phaseA.commitLatch = some (t, e)) :
    s.robCapture.HasSlot t (fun x => x = e ∧ x.ready = true) ∧ s.phaseA.rob.slots[t]? = some e := by
  have hb' : s.robCapture.rob.InBounds := by
    obtain ⟨a, b, c⟩ := s.robCapture_shape
    unfold Fifo.InBounds; rw [a, b, c]; exact hb
  unfold State.phaseA State.robPop at h ⊢
  split at h
  · rename_i e' he
    split at h
    · rename_i hr
      rw [if_pos hr]
      simp only [Option.some.injEq, Prod.mk.injEq] at h
      obtain ⟨rfl, rfl⟩ := h
      have hc : s.robCapture.rob.count ≠ 0 := by intro h0; rw [Fifo.front?_of_empty h0] at he; cases he
      rw [Fifo.front?_of_nonempty hc] at he
      exact ⟨⟨Fifo.live_head hc hb'.1, _, he, rfl, hr⟩, he⟩
    · cases h
  · cases h

/-- Phase (a) leaves alone a slot that is not ready and on no bus (R120, R121). -/
theorem State.phaseA_keeps {s : State} (hb : s.rob.InBounds) {t : Tag} {p : RobEntry → Prop}
    (hp : ∀ e e', RobEntry.After False e e' → p e → p e') (hs : s.HasSlot t fun r => p r ∧ r.ready = false)
    (hn : ¬ s.OnBus t) : s.phaseA.HasSlot t fun r => p r ∧ r.ready = false := by
  obtain ⟨e, e', h1, h2, ⟨h3, h3'⟩, h4, h5⟩ := State.robCapture_of_hasSlot hs
  have h4' : RobEntry.After False e e' := ⟨h4.1, h4.2.1, by rw [h4.2.2]; simp [hn]⟩
  have hr : e'.ready = false := by
    cases hx : e'.ready with
    | false => rfl
    | true => have := h4'.2.2.mp hx; simp [h3'] at this
  refine (State.phaseA_hasSlot hb).mpr ⟨⟨h5, e', h1, hp _ _ h4' h3, hr⟩, fun x hx => ?_⟩
  obtain ⟨⟨_, y, k1, rfl, k2⟩, _⟩ := State.phaseA_commitLatch hb hx
  rw [h1] at k1; obtain rfl := Option.some.inj k1
  rw [hr] at k2; cases k2

/-! ### The links in the middle of a cycle -/

/-- `TagsLinked` between two phases: `F` holds of the tags whose result is on its way, in a latch or on a bus, and the
commit latch may hold an entry. -/
structure Links (F : Tag → Prop) (s : State) : Prop where
  robIn : s.rob.InBounds
  lsqIn : s.lsq.InBounds
  station : ∀ e ∈ s.rs, e.busy = true →
    s.HasSlot e.dest (fun r => r.op = .rs e.op ∧ r.ready = false) ∧ ¬ F e.dest
  pending : ∀ i q, s.HasQueued i q → q.ready = false → q.reported = false →
    s.HasSlot q.dest (fun r => r.op = .mem q.op ∧ r.ready = false) ∧ ¬ F q.dest
  stationsApart : ∀ (i j : Nat) (d e : RsEntry), s.rs[i]? = some d → s.rs[j]? = some e →
    d.busy = true → e.busy = true → d.dest = e.dest → i = j
  pendingApart : ∀ (i j : Nat) (p q : LsqEntry), s.HasQueued i p → s.HasQueued j q → p.ready = false →
    q.ready = false → p.reported = false → q.reported = false → p.dest = q.dest → i = j
  produced : ∀ t, s.HasSlot t (fun r => r.op ≠ .halt ∧ r.ready = false) →
    F t ∨ (∃ e ∈ s.rs, e.busy = true ∧ e.dest = t) ∨ ∃ i q, s.HasQueued i q ∧ q.ready = false ∧
      q.reported = false ∧ q.dest = t
  headOnly : ∀ i q, s.HasQueued i q → q.reported = true ∨ q.ready = true →
    i = s.lsq.head ∧ (∃ op, q.op = .store op) ∧ ∃ base data, q.o1 = .val base ∧ q.o2 = .val data
  reported : ∀ i q, s.HasQueued i q → q.reported = true → q.ready = false →
    s.HasSlot q.dest (fun r => r.op = .mem q.op ∧ (r.ready = true ∨ F q.dest)) ∨
      ∃ e, s.commitLatch = some (q.dest, e) ∧ e.op = .mem q.op
  signalled : ∀ t op, s.HasSlot t (fun r => r.op = .mem (.store op) ∧ (r.ready = true ∨ F t)) →
    ∃ i q, s.HasQueued i q ∧ q.reported = true ∧ q.ready = false ∧ q.dest = t
  committing : ∀ t e op, s.commitLatch = some (t, e) → e.op = .mem (.store op) →
    (∃ i q, s.HasQueued i q ∧ q.reported = true ∧ q.ready = false ∧ q.dest = t) ∧
    ∀ t' op', ¬ s.HasSlot t' fun r => r.op = .mem (.store op') ∧ (r.ready = true ∨ F t')
  live : ∀ t, F t → s.HasSlot t fun r => r.ready = false

/-- The links read only these parts of the state. -/
theorem Links.congr {F : Tag → Prop} {s u : State} (h : Links F s) (h1 : u.rob = s.rob) (h2 : u.lsq = s.lsq)
    (h3 : u.rs = s.rs) (h4 : u.commitLatch = s.commitLatch) : Links F u := by
  cases s; cases u; simp only at h1 h2 h3 h4; subst h1 h2 h3 h4
  exact ⟨h.robIn, h.lsqIn, h.station, h.pending, h.stationsApart, h.pendingApart, h.produced, h.headOnly, h.reported,
    h.signalled, h.committing, h.live⟩

/-- The links between two cycles, as those of a cycle in progress. -/
theorem TagsLinked.links {s : State} (h : TagsLinked s) (hi : Shape s) : Links s.OnBus s where
  robIn := ⟨hi.robHead, hi.robCount⟩
  lsqIn := ⟨hi.lsqHead, hi.lsqCount⟩
  station := h.station
  pending i q hq h1 h2 := ⟨((h.queued i q hq h1).and (h.pending i q hq h1 h2).1), (h.pending i q hq h1 h2).2⟩
  stationsApart := h.stationsApart
  pendingApart i j p q h1 h2 h3 h4 _ _ h5 := h.queuedApart i j p q h1 h2 h3 h4 h5
  produced := h.produced
  headOnly := h.headOnly
  reported i q hq h1 h2 := by
    refine Or.inl (((h.queued i q hq h2).and ?_))
    rcases h.reported i q hq h1 h2 with h3 | h3
    · exact h3.mono fun _ h => Or.inl h
    · exact (h.queued i q hq h2).mono fun _ _ => Or.inr (Or.inr h3)
  signalled := h.signalled
  committing t e op h1 := by rw [hi.commitLatch] at h1; cases h1
  live t ht := by
    rcases ht with ht | ht
    · exact (h.cdbLive t ht).mono fun _ h => h.1
    · exact (h.sigLive t ht).mono fun _ h => h.1

/-- Phase (a): what was on a bus is ready, and nothing is on its way any more. -/
theorem Links.phaseA {s : State} (h : Links s.OnBus s) (hc : s.commitLatch = none) : Links
    (fun _ => False) s.phaseA := by
  have hb := h.robIn
  have hq : ∀ i q, s.phaseA.HasQueued i q ↔ s.HasQueued i q :=
      by intro i q; unfold State.HasQueued; rw [State.phaseA_lsq]
  have hrs : s.phaseA.rs = s.rs := by rw [State.phaseA_rs]
  have keep := fun t p => State.phaseA_keeps (s := s) hb (t := t) (p := p)
  -- where a ready slot comes from
  have back : ∀ t (p : RobEntry → Prop), (∀ e e', RobEntry.After (s.OnBus t) e e' → p e' → p e) →
      s.robCapture.HasSlot t p → s.HasSlot t p := by
    intro t p hp hs
    obtain ⟨e, e', h1, h2, h3, h4, h5⟩ := State.robCapture_hasSlot.mp hs
    exact ⟨h2, e, h3, hp _ _ h4 h5⟩
  have store : ∀ t op, s.robCapture.HasSlot t (fun r => r.op = .mem (.store op) ∧ r.ready = true) →
      s.HasSlot t (fun r => r.op = .mem (.store op) ∧ (r.ready = true ∨ s.OnBus t)) := by
    intro t op hs
    obtain ⟨e, e', h1, h2, h3, ⟨h4, h4', h4''⟩, h5, h6⟩ := State.robCapture_hasSlot.mp hs
    exact ⟨h2, e, h3, by rw [← h4]; exact h5, h4''.mp h6⟩
  have one : ∀ t t' op op', s.HasSlot t (fun r => r.op = .mem (.store op) ∧ (r.ready = true ∨ s.OnBus t)) →
      s.HasSlot t' (fun r => r.op = .mem (.store op') ∧ (r.ready = true ∨ s.OnBus t')) → t = t' := by
    intro t t' op op' h1 h2
    obtain ⟨i, q, k1, k2, k3, k4⟩ := h.signalled t op h1
    obtain ⟨j, p, m1, m2, m3, m4⟩ := h.signalled t' op' h2
    have e1 := (h.headOnly i q k1 (Or.inl k2)).1
    have e2 := (h.headOnly j p m1 (Or.inl m2)).1
    have := k1.2; rw [e1, ← e2, m1.2] at this
    obtain rfl := Option.some.inj this
    exact k4.symm.trans m4
  refine ⟨State.phaseA_inBounds hb,
      by rw [State.phaseA_lsq]; exact h.lsqIn, ?_, ?_, ?_, ?_, ?_, ?_, ?_, ?_, ?_, fun _ h => h.elim⟩
  · intro e he hbz
    rw [hrs] at he
    obtain ⟨k1, k2⟩ := h.station e he hbz
    exact ⟨keep _ _ (fun x y hxy hx => hxy.1.trans hx) k1 k2, id⟩
  · intro i q hiq h1 h2
    obtain ⟨k1, k2⟩ := h.pending i q ((hq i q).mp hiq) h1 h2
    exact ⟨keep _ _ (fun x y hxy hx => hxy.1.trans hx) k1 k2, id⟩
  · rw [hrs]; exact h.stationsApart
  · intro i j p q h1 h2; exact h.pendingApart i j p q ((hq i p).mp h1) ((hq j q).mp h2)
  · intro t ht
    obtain ⟨e, e', h1, h2, h3, h4, h5, h6⟩ := State.robCapture_hasSlot.mp ((State.phaseA_hasSlot hb).mp ht).1
    have hn : ¬ (e.ready = true ∨ s.OnBus t) := by
      intro hx; rw [← h4.2.2] at hx; rw [hx] at h6; cases h6
    rw [not_or] at hn
    rcases h.produced t ⟨h2, e, h3, by rw [← h4.1]; exact h5, by simpa using hn.1⟩ with k | k | ⟨i, q, k1, k2⟩
    · exact absurd k hn.2
    · rw [hrs]; exact Or.inr (Or.inl k)
    · exact Or.inr (Or.inr ⟨i, q, (hq i q).mpr k1, k2⟩)
  · intro i q hiq; rw [State.phaseA_lsq]; exact h.headOnly i q ((hq i q).mp hiq)
  · intro i q hiq h1 h2
    rcases h.reported i q ((hq i q).mp hiq) h1 h2 with k | ⟨e, k, _⟩
    · obtain ⟨e, e', m1, m2, ⟨m3, m3'⟩, m4, m5⟩ := State.robCapture_of_hasSlot k
      have hr : e'.ready = true := m4.2.2.mpr m3'
      by_cases hx : ∃ x, s.phaseA.commitLatch = some (q.dest, x)
      · obtain ⟨x, hx⟩ := hx
        refine Or.inr ⟨x, hx, ?_⟩
        obtain ⟨⟨_, y, k1, rfl, k2⟩, _⟩ := State.phaseA_commitLatch hb hx
        rw [m1] at k1; obtain rfl := Option.some.inj k1
        exact m4.1.trans m3
      · exact Or.inl ((State.phaseA_hasSlot hb).mpr ⟨⟨m5, e', m1, m4.1.trans m3, Or.inl hr⟩, fun x hxx => hx ⟨x,
          hxx⟩⟩)
    · rw [hc] at k; cases k
  · intro t op ht
    have ht := ((State.phaseA_hasSlot hb).mp ht).1
    obtain ⟨i, q, k1, k2⟩ := h.signalled t op (store t op (ht.mono fun _ h => ⟨h.1, by simpa using h.2⟩))
    exact ⟨i, q, (hq i q).mpr k1, k2⟩
  · intro t e op h1 h2
    obtain ⟨k1, k2⟩ := State.phaseA_commitLatch hb h1
    have k3 := store t op (k1.mono fun _ hx => ⟨by rw [hx.1]; exact h2, hx.2⟩)
    obtain ⟨i, q, m1, m2⟩ := h.signalled t op k3
    refine ⟨⟨i, q, (hq i q).mpr m1, m2⟩, fun t' op' hx => ?_⟩
    obtain ⟨hx1, hx2⟩ := (State.phaseA_hasSlot hb).mp hx
    have k4 := store t' op' (hx1.mono fun _ h => ⟨h.1, by simpa using h.2⟩)
    obtain rfl := one _ _ _ _ k3 k4
    exact hx2 e h1

/-- Part 1 of phase (b), entry by entry (R143). -/
theorem State.lsqCapture_hasQueued {s : State} {i : Nat} {q' : LsqEntry} :
    s.lsqCapture.HasQueued i q' ↔ ∃ q, s.HasQueued i q ∧ q' = q.capture s.cdb := by
  unfold State.HasQueued State.lsqCapture
  simp only
  rw [Fifo.live_congr (Fifo.mapLive_head _) (Fifo.mapLive_count _) (Fifo.mapLive_capacity _), Fifo.mapLive_slot]
  constructor
  · rintro ⟨h1, h2⟩
    obtain ⟨q, h3, h4⟩ := Option.map_eq_some_iff.mp h2
    rw [if_pos h1] at h4
    exact ⟨q, ⟨h1, h3⟩, h4.symm⟩
  · rintro ⟨q, ⟨h1, h2⟩, rfl⟩
    exact ⟨h1, by rw [h2]; simp [h1]⟩

/-- Part 1 of phase (b) keeps the links. -/
theorem Links.lsqCapture {F : Tag → Prop} {s : State} (h : Links F s) : Links F s.lsqCapture := by
  have hs : ∀ t p, s.lsqCapture.HasSlot t p ↔ s.HasSlot t p := State.hasSlot_congr rfl
  have fwd : ∀ i q, s.HasQueued i q → s.lsqCapture.HasQueued i (q.capture s.cdb) :=
    fun i q hq => State.lsqCapture_hasQueued.mpr ⟨q, hq, rfl⟩
  refine ⟨h.robIn, ⟨by simpa [State.lsqCapture] using h.lsqIn.1, by simpa [State.lsqCapture] using h.lsqIn.2⟩, ?_, ?_,
    h.stationsApart, ?_, ?_, ?_, ?_, ?_, ?_, ?_⟩
  · intro e he hb; rw [hs]; exact h.station e he hb
  · intro i q hq h1 h2
    obtain ⟨q, hq', rfl⟩ := State.lsqCapture_hasQueued.mp hq
    rw [hs]; exact h.pending i q hq' h1 h2
  · intro i j p q hp hq h1 h2 h3 h4 h5
    obtain ⟨p, hp', rfl⟩ := State.lsqCapture_hasQueued.mp hp
    obtain ⟨q, hq', rfl⟩ := State.lsqCapture_hasQueued.mp hq
    exact h.pendingApart i j p q hp' hq' h1 h2 h3 h4 h5
  · intro t ht
    rw [hs] at ht
    rcases h.produced t ht with k | k | ⟨i, q, k1, k2⟩
    · exact Or.inl k
    · exact Or.inr (Or.inl k)
    · exact Or.inr (Or.inr ⟨i, _, fwd i q k1, k2⟩)
  · intro i q hq h1
    obtain ⟨q, hq', rfl⟩ := State.lsqCapture_hasQueued.mp hq
    obtain ⟨k1, k2, b, d, k3, k4⟩ := h.headOnly i q hq' h1
    exact ⟨k1, k2, b, d, by simp [LsqEntry.capture, k3], by simp [LsqEntry.capture, k4]⟩
  · intro i q hq h1 h2
    obtain ⟨q, hq', rfl⟩ := State.lsqCapture_hasQueued.mp hq
    rw [hs]; exact h.reported i q hq' h1 h2
  · intro t op ht
    rw [hs] at ht
    obtain ⟨i, q, k1, k2⟩ := h.signalled t op ht
    exact ⟨i, _, fwd i q k1, k2⟩
  · intro t e op h1 h2
    obtain ⟨⟨i, q, k1, k2⟩, k3⟩ := h.committing t e op h1 h2
    exact ⟨⟨i, _, fwd i q k1, k2⟩, fun t' op' hx => k3 t' op' ((hs _ _).mp hx)⟩
  · intro t ht; rw [hs]; exact h.live t ht

/-- The tag of the load-store queue's result. -/
def LsqOut.tag : LsqOut → Tag
  | .loadResult t _ => t
  | .storeReport t => t

/-- The tags whose result the load-store queue hands on. -/
def State.Handed (s : State) (t : Tag) : Prop := ∃ o, s.lsqOut = some o ∧ o.tag = t

/-- The kinds the load-store queue's result is of (R145, R147). -/
structure OutLinked (s : State) : Prop where
  load : ∀ t v, s.lsqOut = some (.loadResult t v) → s.HasSlot t fun r => ∃ op, r.op = .mem (.load op)
  store : ∀ t, s.lsqOut = some (.storeReport t) → s.HasSlot t fun r => ∃ op, r.op = .mem (.store op)

/-- The head of the load-store queue, as an entry. -/
theorem State.hasQueued_front {s : State} {q : LsqEntry} (hb : s.lsq.InBounds) (h : s.lsq.front? = some q) :
    s.HasQueued s.lsq.head q := by
  have hc : s.lsq.count ≠ 0 := by intro h0; rw [Fifo.front?_of_empty h0] at h; cases h
  rw [Fifo.front?_of_nonempty hc] at h
  exact ⟨Fifo.live_head hc hb.1, h⟩

/-- A slot of the queue holds one entry. -/
theorem State.HasQueued.unique {s : State} {i : Nat} {p q : LsqEntry} (h : s.HasQueued i p) (k : s.HasQueued i q) :
    p = q := by have := h.2; rw [k.2] at this; exact (Option.some.inj this).symm

/-- Popping the head of the load-store queue, where it has not reported or is marked. -/
theorem Links.popHead {s u : State} {q : LsqEntry} (h : Links (fun _ => False) s) (hq : s.lsq.front? = some q)
    (hk : (∃ op, q.op = .load op) ∨ q.ready = true) (h1 : u.rob = s.rob) (h2 : u.lsq = s.lsq.pop) (h3 : u.rs = s.rs)
    (h4 : u.commitLatch = s.commitLatch) :
    Links (fun t => (∃ op, q.op = .load op) ∧ q.ready = false ∧ t = q.dest) u := by
  have hf := State.hasQueued_front h.lsqIn hq
  have hs : ∀ t p, u.HasSlot t p ↔ s.HasSlot t p := State.hasSlot_congr h1
  have hu : ∀ i p, u.HasQueued i p ↔ s.HasQueued i p ∧ i ≠ s.lsq.head := by
    intro i p
    unfold State.HasQueued
    rw [h2, Fifo.pop_slots]
    constructor
    · rintro ⟨k1, k2⟩
      obtain ⟨k3, k4⟩ := (Fifo.live_pop h.lsqIn (Fifo.lt_of_slot k2)).mp k1
      exact ⟨⟨k3, k2⟩, k4⟩
    · rintro ⟨⟨k1, k2⟩, k3⟩
      exact ⟨(Fifo.live_pop h.lsqIn (Fifo.lt_of_slot k2)).mpr ⟨k1, k3⟩, k2⟩
  -- nothing has reported and waits for its mark
  have no : ∀ i p, s.HasQueued i p → p.reported = true → p.ready = false → False := by
    intro i p k1 k2 k3
    obtain ⟨rfl, ⟨op, k4⟩, _⟩ := h.headOnly i p k1 (Or.inl k2)
    obtain rfl := hf.unique k1
    rcases hk with ⟨op', hk⟩ | hk
    · rw [hk] at k4; cases k4
    · rw [hk] at k3; cases k3
  have unrep : (∃ op, q.op = .load op) → q.reported = false := by
    rintro ⟨op, ho⟩
    cases hr : q.reported with
    | false => rfl
    | true => obtain ⟨_, ⟨op', k⟩, _⟩ := h.headOnly _ _ hf (Or.inl hr); rw [ho] at k; cases k
  refine ⟨by rw [h1]; exact h.robIn, by rw [h2]; exact h.lsqIn.pop, ?_, ?_, by rw [h3]; exact h.stationsApart, ?_, ?_,
    ?_, ?_, ?_, ?_, ?_⟩
  · intro e he hb
    rw [h3] at he
    obtain ⟨k1, k2⟩ := h.station e he hb
    rw [hs]
    refine ⟨k1, ?_⟩
    rintro ⟨⟨op, ho⟩, hr, he⟩
    have k3 := (h.pending _ _ hf hr (unrep ⟨op, ho⟩)).1
    rw [← he] at k3
    obtain ⟨x, ⟨m1, _⟩, m2, _⟩ := (k1.and k3).exists
    rw [m1] at m2; cases m2
  · intro i p hp m1 m2
    obtain ⟨hp, hne⟩ := (hu i p).mp hp
    obtain ⟨k1, k2⟩ := h.pending i p hp m1 m2
    rw [hs]
    refine ⟨k1, ?_⟩
    rintro ⟨hl, hr, he⟩
    exact hne (h.pendingApart i _ p q hp hf m1 hr m2 (unrep hl) he)
  · intro i j p p' k1 k2
    exact h.pendingApart i j p p' ((hu i p).mp k1).1 ((hu j p').mp k2).1
  · intro t ht
    rw [hs] at ht
    rcases h.produced t ht with k | k | ⟨i, p, k1, k2, k3, k4⟩
    · exact k.elim
    · rw [h3]; exact Or.inr (Or.inl k)
    · by_cases hi : i = s.lsq.head
      · subst hi
        obtain rfl := hf.unique k1
        rcases hk with hk | hk
        · exact Or.inl ⟨hk, k2, k4.symm⟩
        · rw [hk] at k2; cases k2
      · exact Or.inr (Or.inr ⟨i, p, (hu i p).mpr ⟨k1, hi⟩, k2, k3, k4⟩)
  · intro i p hp hr
    obtain ⟨hp, hne⟩ := (hu i p).mp hp
    exact absurd (h.headOnly i p hp hr).1 hne
  · intro i p hp m1 m2
    exact (no i p ((hu i p).mp hp).1 m1 m2).elim
  · intro t op ht
    rw [hs] at ht
    obtain ⟨x, hx, hx2⟩ := ht.exists
    by_cases hr : s.HasSlot t fun r => r.op = .mem (.store op) ∧ (r.ready = true ∨ False)
    · obtain ⟨i, p, k1, k2, k3, _⟩ := h.signalled t op hr
      exact (no i p k1 k2 k3).elim
    · exfalso
      obtain ⟨hl, e, m1, m2, m3⟩ := ht
      rcases m3 with m3 | ⟨⟨lo, m3⟩, m4, rfl⟩
      · exact hr ⟨hl, e, m1, m2, Or.inl m3⟩
      · have k3 := (h.pending _ _ hf m4 (unrep ⟨lo, m3⟩)).1
        obtain ⟨y, n1, n2, _⟩ := ((show s.HasSlot q.dest (fun r => r.op = .mem (.store op)) from ⟨hl, e, m1,
            m2⟩).and k3).exists
        rw [n1, m3] at n2; cases n2
  · intro t e op k1 k2
    rw [h4] at k1
    obtain ⟨⟨i, p, m1, m2, m3, _⟩, _⟩ := h.committing t e op k1 k2
    exact (no i p m1 m2 m3).elim
  · rintro t ⟨hl, hr, rfl⟩
    rw [hs]
    exact (h.pending _ _ hf hr (unrep hl)).1.mono fun _ h => h.2

/-- `F` up to equivalence. -/
theorem Links.of_iff {F G : Tag → Prop} {s : State} (h : Links F s) (hFG : ∀ t, F t ↔ G t) : Links G s := by
  obtain rfl : F = G := funext fun t => propext (hFG t)
  exact h

/-- Part 2 of phase (b) keeps the links: what the head hands on is on its way (R145 to R148). -/
theorem Links.lsqAttempt {s b : State} (h : Links (fun _ => False) s) (ho : s.lsqOut = none)
    (hb : s.lsqAttempt = .running b) : Links b.Handed b ∧ OutLinked b := by
  have none_case : ∀ u : State, Links (fun _ => False) u → u.lsqOut = none → Links u.Handed u ∧ OutLinked u := by
    intro u hu hn
    refine ⟨hu.of_iff fun t => ?_, ⟨fun t v k => ?_, fun t k => ?_⟩⟩
    · unfold State.Handed; rw [hn]; simp
    · rw [hn] at k; cases k
    · rw [hn] at k; cases k
  rcases s.lsqAttempt_writes with g | ⟨q, op, base, data, _, _, _, _, _, g⟩ |
      ⟨q, op, base, data, raw, hq, hop, _, _, _, g⟩ | ⟨q, op, base, data, _, _, _, _, _, _, g⟩ |
      ⟨q, op, base, data, m, hq, hop, _, _, hr, hw, g⟩ | ⟨q, op, base, data, hq, hop, hv1, hv2, hr, hp, g⟩ <;>
    rw [g] at hb <;> first | (obtain rfl := Flow.running.inj hb) | cases hb
  · exact none_case _ h ho
  · have hf := State.hasQueued_front h.lsqIn hq
    have hrd : q.ready = false := by
      cases hr : q.ready with
      | false => rfl
      | true => obtain ⟨_, ⟨op', k⟩, _⟩ := h.headOnly _ _ hf (Or.inr hr); rw [hop] at k; cases k
    have hrp : q.reported = false := by
      cases hr : q.reported with
      | false => rfl
      | true => obtain ⟨_, ⟨op', k⟩, _⟩ := h.headOnly _ _ hf (Or.inl hr); rw [hop] at k; cases k
    refine ⟨(h.popHead (u := { s with lsq := s.lsq.pop, lsqOut := some (.loadResult q.dest (op.extend raw)) }) hq
      (Or.inl ⟨op, hop⟩) rfl rfl rfl rfl).of_iff fun t => ?_, ⟨fun t v k => ?_, fun t k => by cases k⟩⟩
    · unfold State.Handed
      constructor
      · rintro ⟨_, _, rfl⟩; exact ⟨_, rfl, rfl⟩
      · rintro ⟨_, k, rfl⟩; obtain rfl := Option.some.inj k; exact ⟨⟨op, hop⟩, hrd, rfl⟩
    · simp only [Option.some.injEq, LsqOut.loadResult.injEq] at k
      rw [← k.1]
      exact (h.pending _ _ hf hrd hrp).1.mono fun _ h => ⟨op, by rw [h.1, hop]⟩
  · exact none_case _ ((h.popHead (u := { s with mem := m, lsq := s.lsq.pop }) hq (Or.inr hr) rfl rfl rfl rfl).of_iff
      fun t => by simp [hr]) ho
  · have hf := State.hasQueued_front h.lsqIn hq
    set u := s.lsqReport q.dest with hu
    have hs : ∀ t p, u.HasSlot t p ↔ s.HasSlot t p := State.hasSlot_congr rfl
    have hd : ∀ t, u.Handed t ↔ t = q.dest := by
      intro t; unfold State.Handed
      constructor
      · rintro ⟨_, k, rfl⟩; obtain rfl := Option.some.inj k; rfl
      · rintro rfl; exact ⟨_, rfl, rfl⟩
    have huq : ∀ i p, u.HasQueued i p ↔ (i ≠ s.lsq.head ∧ s.HasQueued i p) ∨
        (i = s.lsq.head ∧ p = { q with reported := true }) := by
      intro i p
      unfold State.HasQueued
      rw [show u.lsq = s.lsq.modify s.lsq.head fun q => { q with reported := true } from rfl,
        Fifo.live_congr (Fifo.modify_head _ _) (Fifo.modify_count _ _) (Fifo.modify_capacity _ _), Fifo.modify_slot]
      by_cases hi : i = s.lsq.head
      · subst hi
        rw [if_pos rfl, hf.2]
        simp only [Option.map_some, Option.some.injEq, ne_eq, not_true_eq_false, false_and, false_or, true_and]
        exact ⟨fun k => k.2.symm, fun k => ⟨hf.1, k.symm⟩⟩
      · simp [hi]
    have pend := h.pending _ _ hf hr hp
    have no : ∀ i p, s.HasQueued i p → p.reported = true → p.ready = false → False := by
      intro i p k1 k2 k3
      obtain ⟨rfl, _⟩ := h.headOnly i p k1 (Or.inl k2)
      obtain rfl := hf.unique k1
      rw [hp] at k2; cases k2
    refine ⟨?_, ⟨fun t v k => (by cases k), fun t k => ?_⟩⟩
    · refine ⟨h.robIn,
        ⟨by simpa [hu, State.lsqReport] using h.lsqIn.1, by simpa [hu, State.lsqReport] using h.lsqIn.2⟩,
        ?_, ?_, h.stationsApart, ?_, ?_, ?_, ?_, ?_, ?_, ?_⟩
      · intro e he hbz
        obtain ⟨k1, _⟩ := h.station e he hbz
        rw [hs, hd]
        refine ⟨k1, fun hx => ?_⟩
        rw [hx] at k1
        obtain ⟨y, ⟨n1, _⟩, n2, _⟩ := (k1.and pend.1).exists
        rw [n1] at n2; cases n2
      · intro i p hiq m1 m2
        rcases (huq i p).mp hiq with ⟨hne, hiq⟩ | ⟨_, rfl⟩
        · rw [hs, hd]
          refine ⟨(h.pending i p hiq m1 m2).1, fun hx => hne (h.pendingApart i _ p q hiq hf m1 hr m2 hp hx)⟩
        · cases m2
      · intro i j p p' k1 k2 k3 k4 k5 k6
        rcases (huq i p).mp k1 with ⟨_, k1⟩ | ⟨_, rfl⟩
        · rcases (huq j p').mp k2 with ⟨_, k2⟩ | ⟨_, rfl⟩
          · exact h.pendingApart i j p p' k1 k2 k3 k4 k5 k6
          · cases k6
        · cases k5
      · intro t ht
        rw [hs] at ht
        rcases h.produced t ht with k | k | ⟨i, p, k1, k2, k3, k4⟩
        · exact k.elim
        · exact Or.inr (Or.inl k)
        · by_cases hi : i = s.lsq.head
          · subst hi
            obtain rfl := hf.unique k1
            exact Or.inl ((hd t).mpr k4.symm)
          · exact Or.inr (Or.inr ⟨i, p, (huq i p).mpr (Or.inl ⟨hi, k1⟩), k2, k3, k4⟩)
      · intro i p hiq hx
        rcases (huq i p).mp hiq with ⟨hne, hiq⟩ | ⟨hi, rfl⟩
        · exact h.headOnly i p hiq hx
        · exact ⟨hi, ⟨op, hop⟩, base, data, hv1, hv2⟩
      · intro i p hiq m1 m2
        rcases (huq i p).mp hiq with ⟨hne, hiq⟩ | ⟨hi, rfl⟩
        · exact (no i p hiq m1 m2).elim
        · exact Or.inl ((hs _ _).mpr (pend.1.mono fun _ h => ⟨h.1, Or.inr ((hd _).mpr rfl)⟩))
      · intro t op' ht
        rw [hs] at ht
        by_cases htq : t = q.dest
        · exact ⟨_, _, (huq _ _).mpr (Or.inr ⟨rfl, rfl⟩), rfl, hr, htq.symm⟩
        · exfalso
          obtain ⟨i, p, k1, k2, k3, _⟩ := h.signalled t op' (ht.mono fun _ hx => ⟨hx.1,
              by simpa [hd, htq] using hx.2⟩)
          exact no i p k1 k2 k3
      · intro t e op' k1 k2
        obtain ⟨⟨i, p, m1, m2, m3, _⟩, _⟩ := h.committing t e op' k1 k2
        exact (no i p m1 m2 m3).elim
      · intro t ht
        rw [hd] at ht; subst ht
        rw [hs]; exact pend.1.mono fun _ h => h.2
    · obtain rfl := LsqOut.storeReport.inj (Option.some.inj k)
      exact (hs _ _).mpr (pend.1.mono fun _ h => ⟨op, by rw [h.1, hop]⟩)


/-- Part 1 of phase (c) keeps the links. -/
theorem Links.rsCapture {F : Tag → Prop} {s : State} (h : Links F s) : Links F s.rsCapture := by
  have hs : ∀ t p, s.rsCapture.HasSlot t p ↔ s.HasSlot t p := State.hasSlot_congr rfl
  refine ⟨h.robIn, h.lsqIn, ?_, h.pending, ?_, h.pendingApart, ?_, h.headOnly, h.reported, h.signalled, h.committing,
    h.live⟩
  · intro e he hb
    obtain ⟨e, he', rfl⟩ := List.mem_map.mp he
    simp only [RsEntry.capture_busy] at hb
    simp only [RsEntry.capture_dest, RsEntry.capture_op]
    exact h.station e he' hb
  · intro i j d e hd he
    obtain ⟨d, hd', rfl⟩ := Option.map_eq_some_iff.mp ((List.getElem?_map ..).symm.trans hd)
    obtain ⟨e, he', rfl⟩ := Option.map_eq_some_iff.mp ((List.getElem?_map ..).symm.trans he)
    simp only [RsEntry.capture_busy, RsEntry.capture_dest]
    exact h.stationsApart i j d e hd' he'
  · intro t ht
    rcases h.produced t ht with k | ⟨e, he, hb, hd⟩ | k
    · exact Or.inl k
    · exact Or.inr (Or.inl ⟨_, List.mem_map.mpr ⟨e, he, rfl⟩, by simpa using hb, by simpa using hd⟩)
    · exact Or.inr (Or.inr k)

/-- The tag of the launched entry. -/
def State.Launches (s : State) (t : Tag) : Prop := ∃ l, s.execLatch = some l ∧ l.dest = t

/-- The launched entry's slot is of its kind (R141). -/
def ExecLinked (s : State) : Prop := ∀ l, s.execLatch = some l → s.HasSlot l.dest fun r => r.op = .rs l.op

/-- Part 2 of phase (c) keeps the links: what is launched is on its way. -/
theorem Links.rsLaunch {F : Tag → Prop} {s : State} (h : Links F s) :
    Links (fun t => F t ∨ s.rsLaunch.Launches t) s.rsLaunch ∧ ExecLinked s.rsLaunch ∧
      ∀ t, s.rsLaunch.Launches t → ¬ F t := by
  have hs : ∀ t p, s.rsLaunch.HasSlot t p ↔ s.HasSlot t p := State.hasSlot_congr rfl
  cases hL : launchFirst s.rs with
  | mk o l' =>
  have hex : s.rsLaunch.execLatch = o := by unfold State.rsLaunch; rw [hL]
  have hrs : s.rsLaunch.rs = l' := by unfold State.rsLaunch; rw [hL]
  cases o with
  | none =>
    have hl := launchFirst_eq_none hL
    have hn : ∀ t, ¬ s.rsLaunch.Launches t := by
      rintro t ⟨l, h1, _⟩; rw [hex] at h1; cases h1
    refine ⟨Links.of_iff (h.congr rfl rfl
        (by rw [hrs, hl]) rfl) fun t => by simp [hn], ?_, fun t ht => absurd ht (hn t)⟩
    intro l h1; rw [hex] at h1; cases h1
  | some x =>
    obtain ⟨pre, e, post, h1, h2, h3, h4⟩ := launchFirst_eq_some hL
    have hx : e.busy = true ∧ x.dest = e.dest ∧ x.op = e.op := by
      unfold RsEntry.launch? at h3
      split at h3
      · rename_i a b hb _ _
        obtain rfl := Option.some.inj h3
        exact ⟨hb, rfl, rfl⟩
      · cases h3
    have hla : ∀ t, s.rsLaunch.Launches t ↔ t = e.dest := by
      intro t
      constructor
      · rintro ⟨l, k1, k2⟩; rw [hex] at k1; obtain rfl := Option.some.inj k1; rw [← k2, hx.2.1]
      · rintro rfl; exact ⟨x, hex, hx.2.1⟩
    have hi : s.rs[pre.length]? = some e := by rw [h1]; simp
    have hmem : e ∈ s.rs := by rw [h1]; simp
    have hst := h.station e hmem hx.1
    have hset : s.rsLaunch.rs = s.rs.set pre.length { e with busy := false } := by
      rw [hrs, h2, h1]; simp
    have hget : ∀ (i : Nat) (d : RsEntry), s.rsLaunch.rs[i]? = some d → d.busy = true → i ≠ pre.length ∧ s.rs[i]? =
        some d := by
      intro i d hd hb
      rw [hset, List.getElem?_set] at hd
      split at hd
      · split at hd
        · obtain rfl := Option.some.inj hd; cases hb
        · cases hd
      · rename_i hne; exact ⟨Ne.symm hne, hd⟩
    have notStore : ∀ t op p, s.HasSlot t p → (∀ r, p r → r.op = .mem (.store op)) → t ≠ e.dest := by
      rintro t op p hp himp rfl
      obtain ⟨y, n1, n2, _⟩ := (hp.and hst.1).exists
      rw [himp y n1] at n2; cases n2
    refine ⟨⟨h.robIn, h.lsqIn, ?_, ?_, ?_, h.pendingApart, ?_, h.headOnly, ?_, ?_, ?_, ?_⟩, ?_, ?_⟩
    · intro d hd hb
      obtain ⟨i, hid⟩ := List.mem_iff_getElem?.mp hd
      obtain ⟨hne, hid'⟩ := hget i d hid hb
      obtain ⟨k1, k2⟩ := h.station d (List.mem_of_getElem? hid') hb
      refine ⟨k1, ?_⟩
      rintro (k | k)
      · exact k2 k
      · rw [hla] at k
        exact hne (h.stationsApart i _ d e hid' hi hb hx.1 k)
    · intro i q hq k1 k2
      obtain ⟨m1, m2⟩ := h.pending i q hq k1 k2
      refine ⟨m1, ?_⟩
      rintro (k | k)
      · exact m2 k
      · rw [hla] at k; rw [k] at m1
        obtain ⟨y, ⟨n1, _⟩, n2, _⟩ := (m1.and hst.1).exists
        rw [n1] at n2; cases n2
    · intro i j d d' hd hd' hb hb'
      exact h.stationsApart i j d d' (hget i d hd hb).2 (hget j d' hd' hb').2 hb hb'
    · intro t ht
      rcases h.produced t ht with k | ⟨d, hd, hb, hdt⟩ | k
      · exact Or.inl (Or.inl k)
      · obtain ⟨i, hid⟩ := List.mem_iff_getElem?.mp hd
        by_cases hip : i = pre.length
        · subst hip
          rw [hi] at hid; obtain rfl := Option.some.inj hid
          exact Or.inl (Or.inr ((hla t).mpr hdt.symm))
        · refine Or.inr (Or.inl ⟨d, List.mem_of_getElem? (i := i) ?_, hb, hdt⟩)
          rw [hset, List.getElem?_set, if_neg (Ne.symm hip)]; exact hid
      · exact Or.inr (Or.inr k)
    · intro i q hq k1 k2
      rcases h.reported i q hq k1 k2 with k | k
      · exact Or.inl (k.mono fun _ h => ⟨h.1, h.2.imp id Or.inl⟩)
      · exact Or.inr k
    · intro t op ht
      have hne := notStore t op _ ht (fun _ h => h.1)
      exact h.signalled t op (State.HasSlot.mono (s := s) ht fun _ k => ⟨k.1, k.2.imp id fun m => m.resolve_right
        (by rw [hla]; exact hne)⟩)
    · intro t c op k1 k2
      obtain ⟨m1, m2⟩ := h.committing t c op k1 k2
      refine ⟨m1, fun t' op' ht => ?_⟩
      have hne := notStore t' op' _ ht (fun _ h => h.1)
      exact m2 t' op' (State.HasSlot.mono (s := s) ht fun _ k => ⟨k.1, k.2.imp id fun m => m.resolve_right
        (by rw [hla]; exact hne)⟩)
    · rintro t (k | k)
      · exact h.live t k
      · rw [hla] at k; subst k
        exact hst.1.mono fun _ h => h.2
    · intro l k1
      rw [hex] at k1; obtain rfl := Option.some.inj k1
      rw [hx.2.1, hx.2.2]
      exact hst.1.mono fun _ h => h.1
    · intro t k
      rw [hla] at k; subst k
      exact hst.2

/-- The slots live after a push to the reorder buffer (R104, R105). -/
theorem State.hasSlot_push {s u : State} {e : RobEntry} (hb : s.rob.InBounds) (hr : s.rob.count < s.rob.capacity)
    (h : u.rob = s.rob.push e) {t : Tag} {p : RobEntry → Prop} :
    u.HasSlot t p ↔ s.HasSlot t p ∨ (t = s.rob.tail ∧ p e) := by
  unfold State.HasSlot
  rw [h, Fifo.push_slot _ _ (Fifo.tail_lt (by omega))]
  by_cases ht : t = s.rob.tail
  · subst ht
    have hlv : (s.rob.push e).live s.rob.tail = true :=
      (Fifo.live_push hb hr e (Fifo.tail_lt (by omega))).mpr (Or.inr rfl)
    simp [hlv, Fifo.tail_not_live hb hr]
  · simp only [ht, if_false, false_and, or_false]
    constructor
    · rintro ⟨h1, x, h2, h3⟩
      exact ⟨((Fifo.live_push hb hr e (Fifo.lt_of_slot h2)).mp h1).resolve_right ht, x, h2, h3⟩
    · rintro ⟨h1, x, h2, h3⟩
      exact ⟨(Fifo.live_push hb hr e (Fifo.lt_of_slot h2)).mpr (Or.inl h1), x, h2, h3⟩

/-- The entries after a push to the load-store queue (R104). -/
theorem State.hasQueued_push {s u : State} {e : LsqEntry} (hb : s.lsq.InBounds) (hr : s.lsq.count < s.lsq.capacity)
    (h : u.lsq = s.lsq.push e) {i : Nat} {q : LsqEntry} :
    u.HasQueued i q ↔ s.HasQueued i q ∨ (i = s.lsq.tail ∧ q = e) := by
  unfold State.HasQueued
  rw [h, Fifo.push_slot _ _ (Fifo.tail_lt (by omega))]
  by_cases ht : i = s.lsq.tail
  · subst ht
    have hlv : (s.lsq.push e).live s.lsq.tail = true :=
      (Fifo.live_push hb hr e (Fifo.tail_lt (by omega))).mpr (Or.inr rfl)
    simp [hlv, Fifo.tail_not_live hb hr, eq_comm]
  · simp only [ht, if_false, false_and, or_false]
    constructor
    · rintro ⟨h1, h2⟩
      exact ⟨((Fifo.live_push hb hr e (Fifo.lt_of_slot h2)).mp h1).resolve_right ht, h2⟩
    · rintro ⟨h1, h2⟩
      exact ⟨(Fifo.live_push hb hr e (Fifo.lt_of_slot h2)).mpr (Or.inl h1), h2⟩

/-- Phase (h), in two cases (R103, R104). -/
theorem State.phaseH_cases (s : State) :
    s.phaseH = s ∨ ∃ r rest, s.fq = r :: rest ∧ s.rob.count < s.rob.capacity ∧
      (∀ op, r.op = .rs op → ∃ e ∈ s.rs, e.busy = false) ∧ (∀ op, r.op = .mem op → s.lsq.count < s.lsq.capacity) ∧
      s.phaseH = s.dispatch r rest := by
  unfold State.phaseH
  split
  · exact Or.inl rfl
  · rename_i r rest hfq
    split
    · rename_i hcd
      unfold State.canDispatch State.hasSlotFor at hcd
      simp only [Bool.and_eq_true] at hcd
      obtain ⟨h1, h2⟩ := hcd
      refine Or.inr ⟨r, rest, hfq, by simpa [Fifo.hasRoom] using h1, fun op ho => ?_, fun op ho => ?_, rfl⟩
      · rw [ho] at h2; simpa using h2
      · rw [ho] at h2; simpa [Fifo.hasRoom] using h2
    · exact Or.inl rfl

/-- The three ways a record is dispatched (R104). -/
theorem State.dispatch_cases (s : State) (r : Record) (rest : List Record) :
    (s.dispatch r rest).rob = s.rob.push r.robEntry ∧ (s.dispatch r rest).commitLatch = s.commitLatch ∧
    ((∃ op o1 o2, r.op = .rs op ∧ (s.dispatch r rest).lsq = s.lsq ∧ (s.dispatch r rest).rs = fillFirst
        { busy := true, op := op, o1 := o1, o2 := o2, imm := r.imm, dest := s.rob.tail, pc := r.pc } s.rs ∧
        o1 = s.sourceOperand r.op.usesRs1 r.rs1 ∧ o2 = s.sourceOperand r.op.usesRs2 r.rs2) ∨
      (∃ op o1 o2, r.op = .mem op ∧ (s.dispatch r rest).rs = s.rs ∧ (s.dispatch r rest).lsq = s.lsq.push
        { op := op, o1 := o1, o2 := o2, imm := r.imm, dest := s.rob.tail, ready := false, reported := false } ∧
        o1 = s.sourceOperand r.op.usesRs1 r.rs1 ∧ o2 = s.sourceOperand r.op.usesRs2 r.rs2) ∨
      (r.op = .halt ∧ (s.dispatch r rest).rs = s.rs ∧ (s.dispatch r rest).lsq = s.lsq)) := by
  unfold State.dispatch
  cases ho : r.op with
  | rs op => exact ⟨rfl, rfl, Or.inl ⟨op, _, _, rfl, rfl, rfl, rfl, rfl⟩⟩
  | mem op => exact ⟨rfl, rfl, Or.inr (Or.inl ⟨op, _, _, rfl, rfl, rfl, rfl, rfl⟩)⟩
  | halt => exact ⟨rfl, rfl, Or.inr (Or.inr ⟨rfl, rfl, rfl⟩)⟩

/-- Phase (h) keeps the links. -/
theorem Links.phaseH {F : Tag → Prop} {g : State} (h : Links F g) : Links F g.phaseH := by
  rcases g.phaseH_cases with k | ⟨r, rest, _, hroom, hrs, hls, k⟩ <;> rw [k]
  · exact h
  clear k
  obtain ⟨hrob, hcl, hk⟩ := g.dispatch_cases r rest
  set u := g.dispatch r rest with hu
  have hs := fun {t p} => State.hasSlot_push (u := u) h.robIn hroom hrob (t := t) (p := p)
  have tailF : ¬ F g.rob.tail := by
    intro hF; have := (h.live _ hF).1; rw [Fifo.tail_not_live h.robIn hroom] at this; cases this
  have tailS : ∀ p, ¬ g.HasSlot g.rob.tail p := by
    intro p hp; have := hp.1; rw [Fifo.tail_not_live h.robIn hroom] at this; cases this
  have sig : ∀ t op, u.HasSlot t (fun x => x.op = .mem (.store op) ∧ (x.ready = true ∨ F t)) →
      g.HasSlot t (fun x => x.op = .mem (.store op) ∧ (x.ready = true ∨ F t)) := by
    intro t op ht
    rcases hs.mp ht with ht | ⟨rfl, ht1, ht2⟩
    · exact ht
    · exfalso
      rcases ht2 with ht2 | ht2
      · unfold Record.robEntry at ht1 ht2
        simp only at ht1 ht2
        rw [ht1] at ht2; cases ht2
      · exact tailF ht2
  have robIn : u.rob.InBounds := by rw [hrob]; exact h.robIn.push _ (by simpa [Fifo.hasRoom] using hroom)
  -- the parts that do not depend on where the entry goes
  have fin : u.lsq.InBounds → (∀ i q, g.HasQueued i q → u.HasQueued i q) → u.lsq.head = g.lsq.head →
      (∀ i q, u.HasQueued i q → g.HasQueued i q ∨
        (q.ready = false ∧ q.reported = false ∧ q.dest = g.rob.tail ∧ .mem q.op = r.op ∧ i = g.lsq.tail)) →
      (∀ e ∈ u.rs, e.busy = true → e ∈ g.rs ∨ (e.dest = g.rob.tail ∧ .rs e.op = r.op)) →
      (∀ e ∈ g.rs, e.busy = true → e ∈ u.rs) →
      (∀ (i j : Nat) (d e : RsEntry), u.rs[i]? = some d → u.rs[j]? = some e →
        d.busy = true → e.busy = true → d.dest = e.dest → i = j) →
      (r.op ≠ .halt → (∃ e ∈ u.rs, e.busy = true ∧ e.dest = g.rob.tail) ∨
        ∃ i q, u.HasQueued i q ∧ q.ready = false ∧ q.reported = false ∧ q.dest = g.rob.tail) →
      Links F u := by
    intro lsqIn fwd hhead bwd rsb rsf apart made
    refine ⟨robIn, lsqIn, ?_, ?_, apart, ?_, ?_, ?_, ?_, ?_, ?_, ?_⟩
    · intro e he hb
      rcases rsb e he hb with k | ⟨k1, k2⟩
      · obtain ⟨m1, m2⟩ := h.station e k hb
        exact ⟨hs.mpr (Or.inl m1), m2⟩
      · rw [k1]
        exact ⟨hs.mpr (Or.inr ⟨rfl, k2.symm, by simp [Record.robEntry, ← k2]⟩), tailF⟩
    · intro i q hq k1 k2
      rcases bwd i q hq with k | ⟨_, _, k3, k4, _⟩
      · obtain ⟨m1, m2⟩ := h.pending i q k k1 k2
        exact ⟨hs.mpr (Or.inl m1), m2⟩
      · rw [k3]
        exact ⟨hs.mpr (Or.inr ⟨rfl, k4.symm, by simp [Record.robEntry, ← k4]⟩), tailF⟩
    · intro i j p q hp hq k1 k2 k3 k4 k5
      rcases bwd i p hp with m | ⟨_, _, m3, _, m5⟩ <;> rcases bwd j q hq with n | ⟨_, _, n3, _, n5⟩
      · exact h.pendingApart i j p q m n k1 k2 k3 k4 k5
      · exact absurd (h.pending i p m k1 k3).1 (by rw [k5, n3]; exact tailS _)
      · exact absurd (h.pending j q n k2 k4).1 (by rw [← k5, m3]; exact tailS _)
      · rw [m5, n5]
    · intro t ht
      rcases hs.mp ht with ht | ⟨rfl, ht, _⟩
      · rcases h.produced t ht with k | ⟨e, k1, k2, k3⟩ | ⟨i, q, k1, k2⟩
        · exact Or.inl k
        · exact Or.inr (Or.inl ⟨e, rsf e k1 k2, k2, k3⟩)
        · exact Or.inr (Or.inr ⟨i, q, fwd i q k1, k2⟩)
      · exact Or.inr (made ht)
    · intro i q hq hx
      rw [hhead]
      rcases bwd i q hq with k | ⟨k1, k2, _⟩
      · exact h.headOnly i q k hx
      · rw [k1, k2] at hx; simp at hx
    · intro i q hq k1 k2
      rcases bwd i q hq with k | ⟨_, k3, _⟩
      · rcases h.reported i q k k1 k2 with m | m
        · exact Or.inl (hs.mpr (Or.inl m))
        · rw [hcl]; exact Or.inr m
      · rw [k3] at k1; cases k1
    · intro t op ht
      obtain ⟨i, q, k1, k2⟩ := h.signalled t op (sig t op ht)
      exact ⟨i, q, fwd i q k1, k2⟩
    · intro t e op k1 k2
      rw [hcl] at k1
      obtain ⟨⟨i, q, m1, m2⟩, m3⟩ := h.committing t e op k1 k2
      exact ⟨⟨i, q, fwd i q m1, m2⟩, fun t' op' ht => m3 t' op' (sig t' op' ht)⟩
    · intro t ht; exact hs.mpr (Or.inl (h.live t ht))
  rcases hk with ⟨op, o1, o2, ho, hl, hr, _⟩ | ⟨op, o1, o2, ho, hr, hl, _⟩ | ⟨ho, hr, hl⟩
  · have hq : ∀ i q, u.HasQueued i q ↔ g.HasQueued i q := by intro i q; unfold State.HasQueued; rw [hl]
    obtain ⟨n, d, n1, n2, n3, _⟩ := fillFirst_eq_set
      { busy := true, op := op, o1 := o1, o2 := o2, imm := r.imm, dest := g.rob.tail, pc := r.pc } (hrs op ho)
    rw [n3] at hr
    have hlt : n < g.rs.length := (List.getElem?_eq_some_iff.mp n1).1
    have get : ∀ (i : Nat) (e : RsEntry), u.rs[i]? = some e → (i = n ∧ e.dest = g.rob.tail ∧ e.op = op) ∨
        (i ≠ n ∧ g.rs[i]? = some e) := by
      intro i e he
      rw [hr, List.getElem?_set] at he
      split at he
      · rename_i hi
        obtain rfl := Option.some.inj he
        exact Or.inl ⟨hi.symm, rfl, rfl⟩
      · rename_i hi; exact Or.inr ⟨Ne.symm hi, he⟩
    refine fin (by rw [hl]; exact h.lsqIn) (fun i q => (hq i q).mpr) (by rw [hl]) (fun i q k => Or.inl
        ((hq i q).mp k))
      ?_ ?_ ?_ fun _ => Or.inl ⟨_, by rw [hr]; exact List.mem_set hlt _, rfl, rfl⟩
    · intro e he hb
      obtain ⟨i, hi⟩ := List.mem_iff_getElem?.mp he
      rcases get i e hi with ⟨_, k1, k2⟩ | ⟨_, k⟩
      · exact Or.inr ⟨k1, by rw [k2, ho]⟩
      · exact Or.inl (List.mem_of_getElem? k)
    · intro e he hb
      obtain ⟨i, hi⟩ := List.mem_iff_getElem?.mp he
      refine List.mem_of_getElem? (i := i) ?_
      rw [hr, List.getElem?_set, if_neg]
      · exact hi
      · rintro rfl; rw [n1] at hi; obtain rfl := Option.some.inj hi; rw [n2] at hb; cases hb
    · intro i j d e hd he hb hb' hde
      rcases get i d hd with ⟨rfl, k1, _⟩ | ⟨_, k⟩ <;> rcases get j e he with ⟨rfl, m1, _⟩ | ⟨_, m⟩
      · rfl
      · exact absurd (h.station e (List.mem_of_getElem? m) hb').1 (by rw [← hde, k1]; exact tailS _)
      · exact absurd (h.station d (List.mem_of_getElem? k) hb).1 (by rw [hde, m1]; exact tailS _)
      · exact h.stationsApart i j d e k m hb hb' hde
  · have hroomL := hls op ho
    have hq := fun {i q} => State.hasQueued_push (u := u) h.lsqIn hroomL hl (i := i) (q := q)
    refine fin (by rw [hl]; exact h.lsqIn.push _ (by simpa [Fifo.hasRoom] using hroomL))
      (fun i q k => hq.mpr (Or.inl k)) (by rw [hl, Fifo.push_head]) ?_ (fun e he _ => Or.inl (by rwa [hr] at he))
      (fun e he _ => by rw [hr]; exact he) (by rw [hr]; exact h.stationsApart)
      fun _ => Or.inr ⟨_, _, hq.mpr (Or.inr ⟨rfl, rfl⟩), rfl, rfl, rfl⟩
    intro i q k
    rcases hq.mp k with k | ⟨k1, rfl⟩
    · exact Or.inl k
    · exact Or.inr ⟨rfl, rfl, rfl, ho.symm, k1⟩
  · have hq : ∀ i q, u.HasQueued i q ↔ g.HasQueued i q := by intro i q; unfold State.HasQueued; rw [hl]
    exact fin (by rw [hl]; exact h.lsqIn) (fun i q => (hq i q).mpr) (by rw [hl]) (fun i q k => Or.inl ((hq i q).mp k))
      (fun e he _ => Or.inl (by rwa [hr] at he)) (fun e he _ => by rw [hr]; exact he)
          (by rw [hr]; exact h.stationsApart)
      fun hn => absurd ho hn

/-! ### The links at the end of a cycle -/

/-- What the buses carry, as `TagsLinked` says it. -/
structure BusLinked (s : State) : Prop where
  cdbLive : ∀ t ∈ s.cdb.map Prod.fst, s.HasSlot t fun r => r.ready = false ∧ r.op.writesRegister = true
  sigLive : ∀ t ∈ s.robSig.map Prod.fst, s.HasSlot t fun r => r.ready = false ∧
    (r.op.isControlFlow = true ∨ ∃ op, r.op = .mem (.store op)) ∧ (r.op.writesRegister = true →
        t ∈ s.cdb.map Prod.fst)
  cdbDistinct : (s.cdb.map Prod.fst).Nodup
  sigDistinct : (s.robSig.map Prod.fst).Nodup

/-- The links with nothing to commit. -/
theorem Links.tags {s : State} (h : Links s.OnBus s) (hc : s.commitLatch = none)
    (hb : BusLinked s) : TagsLinked s := by
  have rep : ∀ i q, s.HasQueued i q → q.reported = true → q.ready = false →
      s.HasSlot q.dest (fun r => r.op = .mem q.op ∧ (r.ready = true ∨ s.OnBus q.dest)) := by
    intro i q hq h1 h2
    rcases h.reported i q hq h1 h2 with k | ⟨e, k, _⟩
    · exact k
    · rw [hc] at k; cases k
  have notboth : ∀ i j p q, s.HasQueued i p → s.HasQueued j q → p.ready = false → q.ready = false →
      p.reported = true → q.reported = false → p.dest = q.dest → False := by
    intro i j p q hp hq h1 h2 h3 h4 h5
    have k1 := rep i p hp h3 h1
    obtain ⟨k2, k3⟩ := h.pending j q hq h2 h4
    rw [h5] at k1
    obtain ⟨x, ⟨_, m1⟩, _, m2⟩ := (k1.and k2).exists
    rcases m1 with m1 | m1
    · rw [m2] at m1; cases m1
    · exact k3 m1
  refine ⟨h.station, ?_, ?_, h.stationsApart, ?_, h.produced, h.headOnly, ?_, h.signalled, hb.cdbLive, hb.sigLive,
    hb.cdbDistinct, hb.sigDistinct⟩
  · intro i q hq h1
    cases hr : q.reported with
    | true => exact (rep i q hq hr h1).mono fun _ h => h.1
    | false => exact (h.pending i q hq h1 hr).1.mono fun _ h => h.1
  · intro i q hq h1 h2
    obtain ⟨k1, k2⟩ := h.pending i q hq h1 h2
    exact ⟨k1.mono fun _ h => h.2, k2⟩
  · intro i j p q hp hq h1 h2 h3
    cases hr : p.reported with
    | true =>
      cases hr' : q.reported with
      | true => rw [(h.headOnly i p hp (Or.inl hr)).1, (h.headOnly j q hq (Or.inl hr')).1]
      | false => exact (notboth i j p q hp hq h1 h2 hr hr' h3).elim
    | false =>
      cases hr' : q.reported with
      | true => exact (notboth j i q p hq hp h2 h1 hr' hr h3.symm).elim
      | false => exact h.pendingApart i j p q hp hq h1 h2 hr hr' h3
  · intro i q hq h1 h2
    have k := rep i q hq h1 h2
    obtain ⟨x, _, m⟩ := k.exists
    obtain ⟨_, ⟨op, ho⟩, _⟩ := h.headOnly i q hq (Or.inl h1)
    by_cases hx : s.OnBus q.dest
    · rcases hx with hx | hx
      · obtain ⟨y, ⟨n1, _⟩, _, n2⟩ := (k.and (hb.cdbLive _ hx)).exists
        rw [n1, ho] at n2; cases n2
      · exact Or.inr hx
    · exact Or.inl (k.mono fun _ h => h.2.resolve_right hx)

/-- A state in which nothing is in flight has every link. -/
theorem tagsLinked_of_empty {s : State} (h1 : s.rob.count = 0) (h2 : s.lsq.count = 0)
    (h3 : ∀ e ∈ s.rs, e.busy = false)
    (h4 : s.cdb = []) (h5 : s.robSig = []) : TagsLinked s := by
  have hs : ∀ t p, ¬ s.HasSlot t p := by intro t p h; have := h.1; rw [Fifo.live_of_empty h1] at this; cases this
  have hq : ∀ i q, ¬ s.HasQueued i q := by intro t p h; have := h.1; rw [Fifo.live_of_empty h2] at this; cases this
  have ha : ∀ e ∈ s.rs, ¬ e.busy = true := by intro e he hb; rw [h3 e he] at hb; cases hb
  refine ⟨fun e he hb => absurd hb (ha e he), fun i q h => absurd h (hq i q), fun i q h => absurd h (hq i q), ?_,
    fun i j p q h => absurd h (hq i p), fun t h => absurd h (hs _ _), fun i q h => absurd h (hq i q),
    fun i q h => absurd h (hq i q), fun t op h => absurd h (hs _ _),
        by simp [h4], by simp [h5], by simp [h4], by simp [h5]⟩
  intro i j d e hd _ hb
  exact absurd hb (ha d (List.mem_of_getElem? hd))

/-- The links read only these parts of the state. -/
theorem TagsLinked.congr {s u : State} (h : TagsLinked s) (h1 : u.rob = s.rob) (h2 : u.lsq = s.lsq) (h3 : u.rs = s.rs)
    (h4 : u.cdb = s.cdb) (h5 : u.robSig = s.robSig) : TagsLinked u := by
  cases s; cases u; simp only at h1 h2 h3 h4 h5; subst h1 h2 h3 h4 h5
  exact ⟨h.station, h.queued, h.pending, h.stationsApart, h.queuedApart, h.produced, h.headOnly, h.reported,
      h.signalled,
    h.cdbLive, h.sigLive, h.cdbDistinct, h.sigDistinct⟩


/-- Phases (f) and (g): what is on its way is on the buses, and names live slots, each once (R151, R153). -/
theorem Links.arbiter {m : State} (h : Links (fun t => m.Handed t ∨ m.Launches t) m) (ho : OutLinked m)
    (he : ExecLinked m) :
    Links m.phaseF.phaseG.OnBus m.phaseF.phaseG ∧ BusLinked m.phaseF.phaseG := by
  set g := m.phaseF.phaseG with hg
  have hs : ∀ t p, g.HasSlot t p ↔ m.HasSlot t p := State.hasSlot_congr rfl
  have apart : ∀ l o, m.execLatch = some l → m.lsqOut = some o → l.dest ≠ o.tag := by
    intro l o h1 h2 h3
    have k1 := he l h1
    cases o with
    | loadResult t v =>
      obtain ⟨y, n1, op, n2⟩ := (k1.and (show m.HasSlot l.dest _ by rw [h3]; exact ho.load t v h2)).exists
      rw [n1] at n2; cases n2
    | storeReport t =>
      obtain ⟨y, n1, op, n2⟩ := (k1.and (show m.HasSlot l.dest _ by rw [h3]; exact ho.store t h2)).exists
      rw [n1] at n2; cases n2
  have lL : ∀ l, m.execLatch = some l → m.HasSlot l.dest (fun r => r.ready = false) :=
    fun l hl => h.live _ (Or.inr ⟨l, hl, rfl⟩)
  have lO : ∀ o, m.lsqOut = some o → m.HasSlot o.tag (fun r => r.ready = false) :=
    fun o h1 => h.live _ (Or.inl ⟨o, h1, rfl⟩)
  have cdb : g.cdb.map Prod.fst =
      (m.execLatch.toList.flatMap fun l => if (OpKind.rs l.op).writesRegister then [l.dest] else []) ++
      (m.lsqOut.toList.flatMap fun o => match o with | .loadResult t _ => [t] | .storeReport _ => []) := by
    rw [hg]; unfold State.phaseG State.phaseF
    simp only [List.nil_append, List.map_append]
    congr 1
    · cases hx : m.execLatch with
      | none => rfl
      | some l =>
        simp only [Option.toList_some, List.flatMap_cons, List.flatMap_nil, List.append_nil]
        unfold Launched.broadcasts Launched.value
        cases l.op <;> rfl
    · cases hx : m.lsqOut with
      | none => rfl
      | some o => cases o <;> rfl
  have sig : g.robSig.map Prod.fst =
      (m.execLatch.toList.flatMap fun l => if (OpKind.rs l.op).isControlFlow then [l.dest] else []) ++
      (m.lsqOut.toList.flatMap fun o => match o with | .loadResult _ _ => [] | .storeReport t => [t]) := by
    rw [hg]; unfold State.phaseG State.phaseF
    simp only [List.nil_append, List.map_append]
    congr 1
    · cases hx : m.execLatch with
      | none => rfl
      | some l =>
        simp only [Option.toList_some, List.flatMap_cons, List.flatMap_nil, List.append_nil]
        unfold Launched.signals Launched.redirect
        cases l.op <;> rfl
    · cases hx : m.lsqOut with
      | none => rfl
      | some o => cases o <;> rfl
  have memC : ∀ t, t ∈ g.cdb.map Prod.fst ↔
      (∃ l, m.execLatch = some l ∧ (OpKind.rs l.op).writesRegister = true ∧ t = l.dest) ∨
      ∃ v, m.lsqOut = some (.loadResult t v) := by
    intro t
    rw [cdb]
    cases m.execLatch with
    | none => cases m.lsqOut with
      | none => simp
      | some o => cases o <;> simp [@eq_comm _ t]
    | some l =>
      by_cases hw : (OpKind.rs l.op).writesRegister = true <;> cases m.lsqOut with
      | none => simp [hw]
      | some o => cases o <;> simp [hw, @eq_comm _ t]
  have memS : ∀ t, t ∈ g.robSig.map Prod.fst ↔
      (∃ l, m.execLatch = some l ∧ (OpKind.rs l.op).isControlFlow = true ∧ t = l.dest) ∨
      m.lsqOut = some (.storeReport t) := by
    intro t
    rw [sig]
    cases m.execLatch with
    | none => cases m.lsqOut with
      | none => simp
      | some o => cases o <;> simp [@eq_comm _ t]
    | some l =>
      by_cases hw : (OpKind.rs l.op).isControlFlow = true <;> cases m.lsqOut with
      | none => simp [hw]
      | some o => cases o <;> simp [hw, @eq_comm _ t]
  have kinds : ∀ op : RsOp, (OpKind.rs op).writesRegister = true ∨ (OpKind.rs op).isControlFlow = true := by
    intro op; cases op <;> simp [OpKind.writesRegister, OpKind.isControlFlow]
  have on : ∀ t, (m.Handed t ∨ m.Launches t) ↔ g.OnBus t := by
    intro t
    unfold State.OnBus State.Handed State.Launches
    rw [memC, memS]
    constructor
    · rintro (⟨o, h1, rfl⟩ | ⟨l, h1, rfl⟩)
      · cases o with
        | loadResult t v => exact Or.inl (Or.inr ⟨v, h1⟩)
        | storeReport t => exact Or.inr (Or.inr h1)
      · rcases kinds l.op with k | k
        · exact Or.inl (Or.inl ⟨l, h1, k, rfl⟩)
        · exact Or.inr (Or.inl ⟨l, h1, k, rfl⟩)
    · rintro ((⟨l, h1, _, rfl⟩ | ⟨v, h1⟩) | (⟨l, h1, _, rfl⟩ | h1))
      · exact Or.inr ⟨l, h1, rfl⟩
      · exact Or.inl ⟨_, h1, rfl⟩
      · exact Or.inr ⟨l, h1, rfl⟩
      · exact Or.inl ⟨_, h1, rfl⟩
  refine ⟨(Links.of_iff h on).congr rfl rfl rfl rfl, ?_, ?_, ?_, ?_⟩
  · intro t ht
    rw [hs]
    rcases (memC t).mp ht with ⟨l, h1, h2, rfl⟩ | ⟨v, h1⟩
    · exact ((lL l h1).and (he l h1)).mono fun r k => ⟨k.1, by rw [k.2]; exact h2⟩
    · refine ((lO _ h1).and (ho.load t v h1)).mono fun r k => ⟨k.1, ?_⟩
      obtain ⟨op, k2⟩ := k.2; rw [k2]; rfl
  · intro t ht
    rw [hs]
    rcases (memS t).mp ht with ⟨l, h1, h2, rfl⟩ | h1
    · refine ((lL l h1).and (he l h1)).mono fun r k => ⟨k.1, Or.inl (by rw [k.2]; exact h2), fun hw => ?_⟩
      rw [k.2] at hw
      exact (memC _).mpr (Or.inl ⟨l, h1, hw, rfl⟩)
    · refine ((lO _ h1).and (ho.store t h1)).mono fun r k => ⟨k.1, Or.inr k.2, fun hw => ?_⟩
      obtain ⟨op, k2⟩ := k.2; rw [k2] at hw; cases hw
  · rw [cdb]
    cases hx : m.execLatch with
    | none => cases m.lsqOut with
      | none => simp
      | some o => cases o <;> simp
    | some l => cases hy : m.lsqOut with
      | none => by_cases hw : (OpKind.rs l.op).writesRegister = true <;> simp [hw]
      | some o =>
        have := apart l o hx hy
        by_cases hw : (OpKind.rs l.op).writesRegister = true <;> cases o <;> simp_all [LsqOut.tag]
  · rw [sig]
    cases hx : m.execLatch with
    | none => cases m.lsqOut with
      | none => simp
      | some o => cases o <;> simp
    | some l => cases hy : m.lsqOut with
      | none => by_cases hw : (OpKind.rs l.op).isControlFlow = true <;> simp [hw]
      | some o =>
        have := apart l o hx hy
        by_cases hw : (OpKind.rs l.op).isControlFlow = true <;> cases o <;> simp_all [LsqOut.tag]

/-- Phase (h) leaves the buses alone, and their slots live. -/
theorem BusLinked.phaseH {g : State} (h : BusLinked g) (hb : g.rob.InBounds) :
    BusLinked g.phaseH ∧ g.phaseH.cdb = g.cdb ∧ g.phaseH.robSig = g.robSig := by
  rcases g.phaseH_cases with k | ⟨r, rest, _, hroom, _, _, k⟩ <;> rw [k]
  · exact ⟨h, rfl, rfl⟩
  have hs := fun {t p} => State.hasSlot_push (u := g.dispatch r rest) hb hroom (g.dispatch_cases r rest).1 (t := t)
      (p := p)
  have h1 : (g.dispatch r rest).cdb = g.cdb := by unfold State.dispatch; cases r.op <;> rfl
  have h2 : (g.dispatch r rest).robSig = g.robSig := by unfold State.dispatch; cases r.op <;> rfl
  refine ⟨⟨?_, ?_, by rw [h1]; exact h.cdbDistinct, by rw [h2]; exact h.sigDistinct⟩, h1, h2⟩
  · rw [h1]; exact fun t ht => hs.mpr (Or.inl (h.cdbLive t ht))
  · rw [h1, h2]; exact fun t ht => hs.mpr (Or.inl (h.sigLive t ht))

/-- Phase (i) turns the links of a cycle in progress into those between cycles (R123 to R131). -/
theorem Links.phaseI {g v : State} (h : Links g.OnBus g) (hb : BusLinked g)
    (hv : g.phaseI = .next v) : TagsLinked v := by
  rcases g.phaseI_cases with ⟨k1, k2⟩ | ⟨t, e, k1, ⟨u, k2, k3⟩ | ⟨op, ho, k2, k3⟩⟩
  · rw [k2] at hv; obtain rfl := Host.Outcome.next.inj hv
    exact h.tags k1 hb
  · rw [k3] at hv; obtain rfl := Host.Outcome.next.inj hv
    suffices hT : TagsLinked u from hT.congr rfl rfl rfl rfl rfl
    -- a committed entry that is no store: its slot is gone, the links stay
    have plain : (∀ op, e.op ≠ .mem (.store op)) → TagsLinked g := by
      intro hn
      have : Links g.OnBus { g with commitLatch := none } := by
        refine ⟨h.robIn, h.lsqIn, h.station, h.pending, h.stationsApart, h.pendingApart, h.produced, h.headOnly, ?_,
          h.signalled, fun t e op hx => (by cases hx), h.live⟩
        intro i q hq m1 m2
        rcases h.reported i q hq m1 m2 with m | ⟨e', m3, m4⟩
        · exact Or.inl m
        · exfalso
          rw [k1] at m3
          obtain rfl := (Prod.mk.inj (Option.some.inj m3)).2
          obtain ⟨_, ⟨op, ho⟩, _⟩ := h.headOnly i q hq (Or.inl m1)
          rw [ho] at m4
          exact hn op m4
      exact (Links.tags (s := { g with commitLatch := none }) this rfl
        ⟨hb.cdbLive, hb.sigLive, hb.cdbDistinct, hb.sigDistinct⟩).congr rfl rfl rfl rfl rfl
    have ret : ∀ (x : State) (rd : RegIdx) (w : Word), TagsLinked x → TagsLinked (x.retireRegister t rd w) := by
      intro x rd w hx
      unfold State.retireRegister
      split
      · exact hx
      · exact hx.congr rfl rfl rfl rfl rfl
    have redir : ∀ x : State, TagsLinked x → TagsLinked (x.commitRedirect e) := by
      intro x hx
      unfold State.commitRedirect
      split
      · exact hx
      · refine tagsLinked_of_empty rfl rfl ?_ rfl rfl
        intro d hd
        obtain ⟨d', _, rfl⟩ := List.mem_map.mp hd
        rfl
    unfold State.commitEntry at k2
    cases ho : e.op with
    | halt =>
      simp only [ho, Host.Outcome.next.injEq] at k2; subst k2
      exact (plain (by simp [ho])).congr rfl rfl rfl rfl rfl
    | rs op =>
      have hx : TagsLinked { g with commitLatch := none } := (plain (by simp [ho])).congr rfl rfl rfl rfl rfl
      cases op with
      | compute op => simp only [ho, Host.Outcome.next.injEq] at k2; subst k2; exact ret _ _ _ hx
      | branch op => simp only [ho, Host.Outcome.next.injEq] at k2; subst k2; exact redir _ hx
      | jump op => simp only [ho, Host.Outcome.next.injEq] at k2; subst k2; exact redir _ (ret _ _ _ hx)
    | mem op =>
      cases op with
      | load op =>
        have hx : TagsLinked { g with commitLatch := none } := (plain (by simp [ho])).congr rfl rfl rfl rfl rfl
        simp only [ho, Host.Outcome.next.injEq] at k2; subst k2; exact ret _ _ _ hx
      | store op =>
        obtain ⟨⟨i, q, m1, m2, m3, m4⟩, m5⟩ := h.committing t e op k1 ho
        obtain ⟨rfl, ⟨sop, mo⟩, mv⟩ := h.headOnly i q m1 (Or.inl m2)
        have hc : g.lsq.count ≠ 0 := by
          intro h0; have := m1.1; rw [Fifo.live_of_empty h0] at this; cases this
        have hf : g.lsq.findLive? (LsqEntry.awaitsMark t) = some g.lsq.head :=
          Fifo.findLive?_head h.lsqIn hc m1.2 (by simp [LsqEntry.awaitsMark, mo, m3, m4])
        simp only [ho, State.markStore, hf, Host.Outcome.next.injEq] at k2
        subst k2
        set u : State :=
            { g with commitLatch := none, lsq := g.lsq.modify g.lsq.head fun q => { q with ready := true } } with hu
        have hs : ∀ t p, u.HasSlot t p ↔ g.HasSlot t p := State.hasSlot_congr rfl
        have huq : ∀ i p, u.HasQueued i p ↔ (i ≠ g.lsq.head ∧ g.HasQueued i p) ∨
            (i = g.lsq.head ∧ p = { q with ready := true }) := by
          intro i p
          unfold State.HasQueued
          rw [show u.lsq = g.lsq.modify g.lsq.head fun q => { q with ready := true } from rfl,
            Fifo.live_congr (Fifo.modify_head _ _) (Fifo.modify_count _ _) (Fifo.modify_capacity _ _),
                Fifo.modify_slot]
          by_cases hi : i = g.lsq.head
          · subst hi
            rw [if_pos rfl, m1.2]
            simp only [Option.map_some, Option.some.injEq, ne_eq, not_true_eq_false, false_and, false_or, true_and]
            exact ⟨fun k => k.2.symm, fun k => ⟨m1.1, k.symm⟩⟩
          · simp [hi]
        have old : ∀ i p, u.HasQueued i p → p.ready = false → i ≠ g.lsq.head ∧ g.HasQueued i p := by
          intro i p hp hr
          rcases (huq i p).mp hp with k | ⟨_, rfl⟩
          · exact k
          · cases hr
        have norep : ∀ i p, u.HasQueued i p → p.ready = false → p.reported = true → False := by
          intro i p hp hr hr'
          obtain ⟨n1, n2⟩ := old i p hp hr
          exact n1 (h.headOnly i p n2 (Or.inl hr')).1
        refine Links.tags (s := u) ⟨h.robIn, ⟨by simpa [hu] using h.lsqIn.1, by simpa [hu] using h.lsqIn.2⟩,
            h.station,
          ?_, h.stationsApart, ?_, ?_, ?_, ?_, ?_, fun t e op hx => (by cases hx), h.live⟩ rfl
          ⟨hb.cdbLive, hb.sigLive, hb.cdbDistinct, hb.sigDistinct⟩
        · intro i p hp r1 r2
          exact h.pending i p (old i p hp r1).2 r1 r2
        · intro i j p p' hp hp' r1 r2
          exact h.pendingApart i j p p' (old i p hp r1).2 (old j p' hp' r2).2 r1 r2
        · intro t' ht
          rcases h.produced t' ht with n | n | ⟨i, p, n1, n2, n3, n4⟩
          · exact Or.inl n
          · exact Or.inr (Or.inl n)
          · refine Or.inr (Or.inr ⟨i, p, (huq i p).mpr (Or.inl ⟨?_, n1⟩), n2, n3, n4⟩)
            rintro rfl
            obtain rfl := m1.unique n1
            rw [m2] at n3; cases n3
        · intro i p hp hx
          rcases (huq i p).mp hp with ⟨n1, n2⟩ | ⟨n1, rfl⟩
          · exact h.headOnly i p n2 hx
          · exact ⟨n1, ⟨sop, mo⟩, mv⟩
        · intro i p hp r1 r2
          exact (norep i p hp r2 r1).elim
        · intro t' op' ht
          exact (m5 t' op' ht).elim
  · rw [k3] at hv; cases hv

/-- The links of a cycle that has reached its fetch: what is launched or handed on is on its way. -/
structure InFlight (m : State) : Prop where
  links : Links (fun t => m.Handed t ∨ m.Launches t) m
  out : OutLinked m
  exec : ExecLinked m

/-- The links read only these parts of the state. -/
theorem InFlight.congr {s u : State} (h : InFlight s) (h1 : u.rob = s.rob) (h2 : u.lsq = s.lsq)
    (h3 : u.rs = s.rs) (h4 : u.commitLatch = s.commitLatch) (h5 : u.lsqOut = s.lsqOut)
        (h6 : u.execLatch = s.execLatch) : InFlight u := by
  cases s; cases u; simp only at h1 h2 h3 h4 h5 h6; subst h1 h2 h3 h4 h5 h6
  exact ⟨h.links.congr rfl rfl rfl rfl, ⟨h.out.load, h.out.store⟩, h.exec⟩

/-- Phases (a) to (d) turn the links between cycles into those of a cycle that has reached its fetch. -/
theorem TagsLinked.beforeFetch {s b : State} (hsh : Shape s) (h : TagsLinked s)
    (hb : s.atAttempt.lsqAttempt = .running b) :
    InFlight b.phaseC.phaseD := by
  have h0 := h.links hsh
  have h1 : Links (fun _ => False) (State.phaseA { s with cycles := s.cycles + 1 }) :=
    Links.phaseA (s := { s with cycles := s.cycles + 1 }) (h0.congr rfl rfl rfl rfl) hsh.commitLatch
  have h2 : Links (fun _ => False) s.atAttempt := h1.lsqCapture.congr rfl rfl rfl rfl
  obtain ⟨h3, h4⟩ := h2.lsqAttempt rfl hb
  obtain ⟨h5, h6, _⟩ := h3.rsCapture.rsLaunch
  have : InFlight b.phaseC := ⟨h5, ⟨h4.load, h4.store⟩, h6⟩
  exact this.congr (State.phaseD_rob _) (State.phaseD_lsq _) (State.phaseD_rs _) (State.phaseD_commitLatch _)
      (State.phaseD_lsqOut _) (State.phaseD_execLatch _)

/-- Taking a record in keeps them (R101). -/
theorem InFlight.enqueue {m : State} (h : InFlight m) (r : Record) : InFlight (m.enqueue r) := by
  unfold State.enqueue
  split
  · exact h.congr rfl rfl rfl rfl rfl rfl
  · exact h

end Sys2Proof.Machine
end

