-- ==== Sys2Proof/Laws/OperandLinks.lean ====
section
/-! SUPPORT. How the links of `OperandsLinked` (spec/10_state.md R32 items 3 and 4, spec/43_rs_lsq_cdb_execute.md R152)
pass through the phases of a cycle. -/

namespace Sys2Proof.Machine

/-- The tag names an instruction in flight that writes a register and has produced nothing yet. -/
def State.Awaited (s : State) (t : Tag) : Prop := s.HasSlot t fun r => r.ready = false ∧ r.op.writesRegister = true

/-- The operand halves of `OperandsLinked`. -/
structure Waits (s : State) : Prop where
  stations : ∀ e ∈ s.rs, e.busy = true → ∀ t, e.o1 = .tag t ∨ e.o2 = .tag t → s.Awaited t
  queued : ∀ i q, s.HasQueued i q → ∀ t, q.o1 = .tag t ∨ q.o2 = .tag t → s.Awaited t

/-- The renaming table in the middle of a cycle: a busy register's producer is in flight, or is being committed. -/
def Renamed (s : State) : Prop := ∀ r, (s.readRst r).busy = true →
  s.HasSlot (s.readRst r).tag (fun e => e.rd = r ∧ e.op.writesRegister = true) ∨
    ∃ e, s.commitLatch = some ((s.readRst r).tag, e) ∧ e.rd = r ∧ e.op.writesRegister = true

/-- What phase (b)'s attempt leaves alone (R144 to R148). -/
theorem State.lsqAttempt_fields {s b : State} (h : s.lsqAttempt = .running b) :
    b.rob = s.rob ∧ b.rs = s.rs ∧ b.cdb = s.cdb ∧ b.rst = s.rst ∧ b.commitLatch = s.commitLatch ∧ b.lockReq =
        s.lockReq ∧ b.unlockReq = s.unlockReq := by
  rcases s.lsqAttempt_writes with g | ⟨q, op, base, data, _, _, _, _, _, g⟩ |
        ⟨q, op, base, data, raw, _, _, _, _, _, g⟩ | ⟨q, op, base, data, _, _, _, _, _, _, g⟩ |
        ⟨q, op, base, data, m, _, _, _, _, _, hw, g⟩ | ⟨q, op, base, data, _, _, _, _, _, _, g⟩ <;> rw [g] at h <;>
    first | (obtain rfl := Flow.running.inj h) | cases h
  all_goals exact ⟨rfl, rfl, rfl, rfl, rfl, rfl, rfl⟩

/-- An entry of the queue after the attempt was there, with the same operands. -/
theorem State.lsqAttempt_hasQueued {s b : State} (hb : s.lsq.InBounds)
    (h : s.lsqAttempt = .running b) {i : Nat} {q : LsqEntry} (hq : b.HasQueued i q) :
    ∃ p, s.HasQueued i p ∧ p.o1 = q.o1 ∧ p.o2 = q.o2 := by
  have pop : ∀ u : State, u.lsq = s.lsq.pop → u.HasQueued i q → ∃ p, s.HasQueued i p ∧ p.o1 = q.o1 ∧ p.o2 = q.o2 := by
    rintro u hu ⟨h1, h2⟩
    rw [hu] at h1 h2
    exact ⟨q, ⟨((Fifo.live_pop hb (Fifo.lt_of_slot h2)).mp h1).1, h2⟩, rfl, rfl⟩
  rcases s.lsqAttempt_writes with g | ⟨q, op, base, data, _, _, _, _, _, g⟩ |
        ⟨q, op, base, data, raw, _, _, _, _, _, g⟩ | ⟨q, op, base, data, _, _, _, _, _, _, g⟩ |
        ⟨q, op, base, data, m, _, _, _, _, _, hw, g⟩ | ⟨q, op, base, data, _, _, _, _, _, _, g⟩ <;> rw [g] at h <;>
    first | (obtain rfl := Flow.running.inj h) | cases h
  · exact ⟨_, hq, rfl, rfl⟩
  · exact pop _ rfl hq
  · exact pop _ rfl hq
  · obtain ⟨h1, h2⟩ := hq
    rw [show (s.lsqReport _).lsq = s.lsq.modify s.lsq.head fun q => { q with reported := true } from rfl] at h1 h2
    rw [Fifo.live_congr (Fifo.modify_head _ _) (Fifo.modify_count _ _) (Fifo.modify_capacity _ _)] at h1
    rw [Fifo.modify_slot] at h2
    split at h2
    · obtain ⟨p, h3, rfl⟩ := Option.map_eq_some_iff.mp h2
      exact ⟨p, ⟨h1, h3⟩, rfl, rfl⟩
    · exact ⟨_, ⟨h1, h2⟩, rfl, rfl⟩

/-- Phases (a) to (c): an operand whose broadcast has come has captured it (R140, R143, R152). -/
theorem OperandsLinked.waits {s b : State} (hsh : Shape s) (ht : TagsLinked s) (ho : OperandsLinked s)
    (hb : s.atAttempt.lsqAttempt = .running b) : Waits b.phaseC := by
  have hin : ({ s with cycles := s.cycles + 1 } : State).rob.InBounds := ⟨hsh.robHead, hsh.robCount⟩
  -- what is awaited and not on cdb stays awaited
  have key : ∀ t, s.Awaited t → t ∉ s.cdb.map Prod.fst → (State.phaseA { s with cycles := s.cycles + 1 }).Awaited t :=
      by
    intro t hw hc
    have hn : ¬ s.OnBus t := by
      rintro (k | k)
      · exact hc k
      · obtain ⟨y, ⟨_, n1⟩, _, _, n2⟩ := (hw.and (ht.sigLive t k)).exists
        exact hc (n2 n1)
    have := State.phaseA_keeps (s := { s with cycles := s.cycles + 1 }) hin (t := t) (p :=
        fun r => r.op.writesRegister = true)
      (fun e e' h k => by rw [h.1]; exact k) (hw.mono fun _ h => ⟨h.2, h.1⟩) hn
    exact this.mono fun _ h => ⟨h.2, h.1⟩
  obtain ⟨f1, f2, f3, _⟩ := State.lsqAttempt_fields hb
  have aw : ∀ t, (State.phaseA { s with cycles := s.cycles + 1 }).Awaited t → b.phaseC.Awaited t := by
    intro t h
    exact (State.hasSlot_congr (s := State.phaseA { s with cycles := s.cycles + 1 }) (u := b.phaseC) f1 _ _).mpr h
  have hrs : s.atAttempt.rs = s.rs := State.phaseA_rs _
  have hcdb : s.atAttempt.cdb = s.cdb := State.phaseA_cdb _
  have hlsq : (State.phaseA { s with cycles := s.cycles + 1 }).lsq = s.lsq := State.phaseA_lsq _
  have hcdb' : (State.phaseA { s with cycles := s.cycles + 1 }).cdb = s.cdb := State.phaseA_cdb _
  constructor
  · intro e he hbz t hot
    -- the entry after launch comes from a captured one
    have : ∃ d ∈ s.rs, e.o1 = (d.capture s.cdb).o1 ∧ e.o2 = (d.capture s.cdb).o2 ∧ d.busy = true := by
      have hL : e ∈ b.rsCapture.rsLaunch.rs := he
      have hcap : b.rsCapture.rs = s.rs.map (RsEntry.capture s.cdb) := by
        unfold State.rsCapture; simp only; rw [f2, f3, hrs, hcdb]
      have : e ∈ s.rs.map (RsEntry.capture s.cdb) := by
        rw [← hcap]
        unfold State.rsLaunch at hL
        simp only at hL
        cases hl : launchFirst b.rsCapture.rs with
        | mk o l' =>
          rw [hl] at hL
          cases o with
          | none => rw [launchFirst_eq_none hl] at hL; exact hL
          | some x =>
            obtain ⟨pre, d, post, h1, h2, _⟩ := launchFirst_eq_some hl
            simp only at hL
            rw [h2] at hL; rw [h1]
            simp only [List.mem_append, List.mem_cons] at hL ⊢
            rcases hL with k | rfl | k
            · exact Or.inl k
            · cases hbz
            · exact Or.inr (Or.inr k)
      obtain ⟨d, hd, rfl⟩ := List.mem_map.mp this
      exact ⟨d, hd, rfl, rfl, by simpa using hbz⟩
    obtain ⟨d, hd, h1, h2, h3⟩ := this
    rw [h1, h2] at hot
    unfold RsEntry.capture at hot
    rw [if_pos h3] at hot
    rcases hot with hot | hot
    · obtain ⟨k1, k2⟩ := Operand.captureAll_eq_tag hot
      exact aw t (key t (ho.stations d hd h3 t (Or.inl k1)) k2)
    · obtain ⟨k1, k2⟩ := Operand.captureAll_eq_tag hot
      exact aw t (key t (ho.stations d hd h3 t (Or.inr k1)) k2)
  · intro i q hq t hot
    have hin2 : s.atAttempt.lsq.InBounds := by
      unfold State.atAttempt State.lsqCapture
      simp only; rw [hlsq]
      exact ⟨by simpa using hsh.lsqHead, by simpa using hsh.lsqCount⟩
    obtain ⟨p, hp, h1, h2⟩ := State.lsqAttempt_hasQueued hin2 hb (i := i) (q := q) hq
    obtain ⟨p, hp', rfl⟩ := State.lsqCapture_hasQueued.mp (show
        (State.phaseA { s with cycles := s.cycles + 1 }).lsqCapture.HasQueued i p from hp)
    have hp'' : s.HasQueued i p := by unfold State.HasQueued at hp' ⊢; rw [hlsq] at hp'; exact hp'
    rw [← h1, ← h2] at hot
    unfold LsqEntry.capture at hot
    simp only at hot
    rw [hcdb'] at hot
    rcases hot with hot | hot
    · obtain ⟨k1, k2⟩ := Operand.captureAll_eq_tag hot
      exact aw t (key t (ho.queued i p hp'' t (Or.inl k1)) k2)
    · obtain ⟨k1, k2⟩ := Operand.captureAll_eq_tag hot
      exact aw t (key t (ho.queued i p hp'' t (Or.inr k1)) k2)

/-- A register busy after an unlock was so before, and the unlock did not match (R109). -/
theorem State.readRst_unlock (s : State) (r q : RegIdx) (t : Tag) : ((s.unlock r t).readRst q).busy = true →
    (s.unlock r t).readRst q = s.readRst q ∧ ¬ (q = r ∧ (s.readRst q).tag = t) := by
  unfold State.unlock
  split
  · rename_i h
    rw [State.readRst_writeRst]
    split
    · intro h; cases h
    · rename_i hn; intro _; exact ⟨rfl, fun h => hn h.1⟩
  · rename_i h
    intro hb
    refine ⟨rfl, ?_⟩
    rintro ⟨rfl, rfl⟩
    exact h ⟨hb, rfl⟩

/-- Phases (a) to (d): a renamed register's producer is in flight or is being committed, and the commit latch holds a
copy of a ready slot (R108, R121). -/
theorem OperandsLinked.renamedBefore {s b : State} (hsh : Shape s) (ho : OperandsLinked s)
    (hb : s.atAttempt.lsqAttempt = .running b) :
    Renamed b.phaseC.phaseD ∧ ∀ t e, b.phaseC.phaseD.commitLatch = some (t, e) →
      b.phaseC.phaseD.rob.slots[t]? = some e ∧ e.ready = true := by
  have hin : ({ s with cycles := s.cycles + 1 } : State).rob.InBounds := ⟨hsh.robHead, hsh.robCount⟩
  obtain ⟨f1, f2, f3, f4, f5, f6, f7⟩ := State.lsqAttempt_fields hb
  set A := State.phaseA { s with cycles := s.cycles + 1 } with hA
  have c1 : b.phaseC.commitLatch = A.commitLatch := f5
  have c2 : b.phaseC.rst = s.rst := f4.trans (State.phaseA_rst _)
  have c3 : b.phaseC.unlockReq = s.unlockReq := f7.trans (State.phaseA_unlockReq _)
  have c4 : b.phaseC.lockReq = s.lockReq := f6.trans (State.phaseA_lockReq _)
  have c5 : b.phaseC.rob = A.rob := f1
  have hsl : ∀ t p, b.phaseC.phaseD.HasSlot t p ↔ A.HasSlot t p :=
    State.hasSlot_congr ((State.phaseD_rob _).trans c5)
  have hcl : b.phaseC.phaseD.commitLatch = A.commitLatch := (State.phaseD_commitLatch _).trans c1
  refine ⟨?_, ?_⟩
  · intro r hr
    -- a live slot that writes r stays, or is being committed
    have slot : ∀ t, s.HasSlot t (fun e => e.rd = r ∧ e.op.writesRegister = true) →
        A.HasSlot t (fun e => e.rd = r ∧ e.op.writesRegister = true) ∨
        ∃ e, A.commitLatch = some (t, e) ∧ e.rd = r ∧ e.op.writesRegister = true := by
      intro t h
      obtain ⟨e, e', h1, h2, ⟨h3, h3'⟩, h4, h5⟩ := State.robCapture_of_hasSlot (s :=
          { s with cycles := s.cycles + 1 }) h
      have h6 : e'.rd = r ∧ e'.op.writesRegister = true := ⟨h4.2.1.trans h3, by rw [h4.1]; exact h3'⟩
      by_cases hx : ∃ x, A.commitLatch = some (t, x)
      · obtain ⟨x, hx⟩ := hx
        obtain ⟨⟨_, y, k1, rfl, k2⟩, _⟩ := State.phaseA_commitLatch hin hx
        rw [h1] at k1; obtain rfl := Option.some.inj k1
        exact Or.inr ⟨_, hx, h6⟩
      · exact Or.inl ((State.phaseA_hasSlot hin).mpr ⟨⟨h5, e', h1, h6⟩, fun x hxx => hx ⟨x, hxx⟩⟩)
    have lockd : ∀ t, s.lockReq = some (r, t) → A.HasSlot t (fun e => e.rd = r ∧ e.op.writesRegister = true) := by
      intro t h
      obtain ⟨k1, k2⟩ := ho.locked r t h
      exact (State.phaseA_keeps hin (p := fun e => e.rd = r ∧ e.op.writesRegister = true)
        (fun e e' h k => by rw [h.1, h.2.1]; exact k) (k1.mono fun _ h => ⟨h.2, h.1⟩) k2).mono fun _ h => h.1
    rw [hsl, hcl]
    -- the table after phase (d)
    have hD : (b.phaseC.phaseD.readRst r = { busy := true, tag := (b.phaseC.phaseD.readRst r).tag } ∧ s.lockReq = some
        (r, (b.phaseC.phaseD.readRst r).tag)) ∨
        (b.phaseC.phaseD.readRst r = s.readRst r ∧ s.unlockReq ≠ some (r, (s.readRst r).tag)) := by
      have hU : ∀ q, (b.phaseC.applyUnlock.readRst q).busy = true →
          b.phaseC.applyUnlock.readRst q = s.readRst q ∧ s.unlockReq ≠ some (q, (s.readRst q).tag) := by
        intro q
        have e0 : b.phaseC.readRst q = s.readRst q := State.readRst_congr c2 q
        unfold State.applyUnlock
        rw [c3]
        cases hu : s.unlockReq with
        | none => exact fun _ => ⟨e0, by simp⟩
        | some p =>
          obtain ⟨r', t'⟩ := p
          intro hbz
          obtain ⟨k1, k2⟩ := State.readRst_unlock _ _ _ _ hbz
          refine ⟨k1.trans e0, ?_⟩
          rw [e0] at k2
          intro hx
          obtain ⟨rfl, rfl⟩ := Prod.mk.inj (Option.some.inj hx)
          exact k2 ⟨rfl, rfl⟩
      have hl : b.phaseC.applyUnlock.lockReq = s.lockReq := by
        refine Eq.trans ?_ c4
        unfold State.applyUnlock State.unlock
        split
        · split <;> rfl
        · rfl
      change (b.phaseC.applyUnlock.applyLock.readRst r).busy = true at hr
      rw [show b.phaseC.phaseD = b.phaseC.applyUnlock.applyLock from rfl]
      unfold State.applyLock at hr ⊢
      rw [hl] at hr ⊢
      cases hq : s.lockReq with
      | none => rw [hq] at hr; exact Or.inr (hU r hr)
      | some p =>
        obtain ⟨r', t'⟩ := p
        rw [hq] at hr
        simp only [State.lock, State.readRst_writeRst] at hr ⊢
        by_cases hrr : r = r'
        · subst hrr; exact Or.inl (by simp)
        · rw [if_neg hrr] at hr ⊢; exact Or.inr (hU r hr)
    rcases hD with ⟨h1, h2⟩ | ⟨h1, h2⟩
    · exact Or.inl (lockd _ h2)
    · rw [h1] at hr ⊢
      rcases ho.renamed r hr with k | k
      · exact slot _ k
      · exact absurd k h2
  · intro t e h
    rw [hcl] at h
    rw [State.phaseD_rob, c5]
    obtain ⟨⟨_, y, _, rfl, k2⟩, k3⟩ := State.phaseA_commitLatch hin h
    exact ⟨k3, k2⟩

/-- The operand links of a cycle that has reached its fetch. -/
structure OperandsInFlight (m : State) : Prop where
  waits : Waits m
  renamed : Renamed m
  latch : ∀ t e, m.commitLatch = some (t, e) → m.rob.slots[t]? = some e ∧ e.ready = true

/-- They read only these parts of the state. -/
theorem OperandsInFlight.congr {s u : State} (h : OperandsInFlight s) (h1 : u.rob = s.rob) (h2 : u.lsq = s.lsq)
    (h3 : u.rs = s.rs) (h4 : u.commitLatch = s.commitLatch) (h5 : u.rst = s.rst) : OperandsInFlight u := by
  cases s; cases u; simp only at h1 h2 h3 h4 h5; subst h1 h2 h3 h4 h5
  exact ⟨⟨h.waits.stations, h.waits.queued⟩, h.renamed, h.latch⟩

/-- The lock staged in phase (h). -/
def Locked (g : State) : Prop := ∀ r t, g.lockReq = some (r, t) →
    g.HasSlot t (fun e => e.ready = false ∧ e.rd = r ∧ e.op.writesRegister = true) ∧ ¬ g.OnBus t

/-- The resolver answers only tags that are awaited (R106). -/
theorem OperandsInFlight.resolve {g : State} (h : OperandsInFlight g) {r : RegIdx} {t : Tag}
    (hr : g.resolve r = .tag t) : g.Awaited t := by
  unfold State.resolve at hr
  split at hr
  · cases hr
  · split at hr
    · rename_i hb
      rcases h.renamed r hb with k | ⟨e, k1, _⟩
      · obtain ⟨hl, e, h2, _, h3⟩ := k
        rw [h2] at hr
        dsimp only at hr
        split at hr
        · cases hr
        · rename_i hre
          obtain rfl := Operand.tag.inj hr
          exact ⟨hl, e, h2, by simpa using hre, h3⟩
      · obtain ⟨k2, k3⟩ := h.latch _ _ k1
        rw [k2] at hr
        dsimp only at hr
        rw [if_pos k3] at hr; cases hr
    · cases hr

/-- Phase (h): new operands wait for what is awaited, the new lock names the new slot (R104, R107, R110). -/
theorem OperandsInFlight.phaseH {g : State} (h : OperandsInFlight g) (hin : g.rob.InBounds) (hlin : g.lsq.InBounds)
    (hlk : g.lockReq = none) (hbus : BusLinked g) :
    Waits g.phaseH ∧ Renamed g.phaseH ∧ Locked g.phaseH := by
  rcases g.phaseH_cases with k | ⟨r, rest, _, hroom, hrs, hls, k⟩ <;> rw [k]
  · exact ⟨h.waits, h.renamed, fun r t ht => by rw [hlk] at ht; cases ht⟩
  clear k
  obtain ⟨hrob, hcl, hk⟩ := g.dispatch_cases r rest
  have hlock : (g.dispatch r rest).lockReq = (r.lock g.rob.tail).or none := by
    unfold State.dispatch; rw [← hlk]; cases r.op <;> rfl
  have hrst : (g.dispatch r rest).rst = g.rst := by unfold State.dispatch; cases r.op <;> rfl
  have hc : (g.dispatch r rest).cdb = g.cdb := by unfold State.dispatch; cases r.op <;> rfl
  have hs' : (g.dispatch r rest).robSig = g.robSig := by unfold State.dispatch; cases r.op <;> rfl
  set u := g.dispatch r rest with hu
  have hs := fun {t p} => State.hasSlot_push (u := u) hin hroom hrob (t := t) (p := p)
  have aw : ∀ t, g.Awaited t → u.Awaited t := fun t k => hs.mpr (Or.inl k)
  have src : ∀ b q t, g.sourceOperand b q = .tag t → u.Awaited t := by
    intro b q t ht
    unfold State.sourceOperand at ht
    split at ht
    · exact aw t (OperandsInFlight.resolve h ht)
    · cases ht
  refine ⟨?_, ?_, ?_⟩
  · rcases hk with ⟨op, o1, o2, ho, hl, hr, e1, e2⟩ | ⟨op, o1, o2, ho, hr, hl, e1, e2⟩ | ⟨ho, hr, hl⟩
    · constructor
      · intro e he hb t ht
        obtain ⟨n, d, n1, n2, n3, _⟩ := fillFirst_eq_set
          { busy := true, op := op, o1 := o1, o2 := o2, imm := r.imm, dest := g.rob.tail, pc := r.pc } (hrs op ho)
        rw [n3] at hr
        rw [hr] at he
        rcases List.mem_or_eq_of_mem_set he with he | rfl
        · exact aw t (h.waits.stations e he hb t ht)
        · rcases ht with ht | ht
          · exact src _ _ _ (e1.symm.trans ht)
          · exact src _ _ _ (e2.symm.trans ht)
      · intro i q hq t ht
        exact aw t (h.waits.queued i q (by unfold State.HasQueued at hq ⊢; rw [hl] at hq; exact hq) t ht)
    · constructor
      · intro e he hb t ht
        rw [hr] at he
        exact aw t (h.waits.stations e he hb t ht)
      · intro i q hq t ht
        rcases (State.hasQueued_push (u := u) hlin (hls op ho) hl).mp hq with k | ⟨_, rfl⟩
        · exact aw t (h.waits.queued i q k t ht)
        · rcases ht with ht | ht
          · exact src _ _ _ (e1.symm.trans ht)
          · exact src _ _ _ (e2.symm.trans ht)
    · constructor
      · intro e he hb t ht
        rw [hr] at he
        exact aw t (h.waits.stations e he hb t ht)
      · intro i q hq t ht
        exact aw t (h.waits.queued i q (by unfold State.HasQueued at hq ⊢; rw [hl] at hq; exact hq) t ht)
  · intro q hq
    have e0 : u.readRst q = g.readRst q := State.readRst_congr hrst q
    rw [e0] at hq ⊢
    rcases h.renamed q hq with k | k
    · exact Or.inl (hs.mpr (Or.inl k))
    · rw [hcl]; exact Or.inr k
  · intro q t ht
    rw [hlock] at ht
    unfold Record.lock at ht
    split at ht
    · rename_i hw
      obtain ⟨rfl, rfl⟩ := Prod.mk.inj (Option.some.inj ht)
      have hn : (r.op == OpKind.halt) = false := by
        cases ho : r.op with
        | halt => rw [ho] at hw; exact absurd hw.1 (by simp [OpKind.writesRegister])
        | rs op => rfl
        | mem op => rfl
      refine ⟨hs.mpr (Or.inr ⟨rfl, hn, rfl, hw.1⟩), ?_⟩
      unfold State.OnBus
      rw [hc, hs']
      rintro (k | k)
      · have := (hbus.cdbLive _ k).1; rw [Fifo.tail_not_live hin hroom] at this; cases this
      · have := (hbus.sigLive _ k).1; rw [Fifo.tail_not_live hin hroom] at this; cases this
    · cases ht

/-- Phase (i): the producer that commits stages its unlock (R127, R128), a Rollback empties everything (R131). -/
theorem OperandsLinked.ofPhaseI {g v : State} (h1 : Waits g) (h2 : Renamed g) (h3 : Locked g)
    (hz : (g.readRst 0).busy = false) (hv : g.phaseI = .next v) : OperandsLinked v := by
  -- with the commit latch emptied and its unlock staged
  have base : ∀ u : State, u.rob = g.rob → u.lsq = g.lsq → u.rs = g.rs → u.rst = g.rst → u.lockReq = g.lockReq →
      u.cdb = g.cdb → u.robSig = g.robSig →
      (∀ r t e, g.commitLatch = some (t, e) → e.rd = r → e.op.writesRegister = true → r ≠ 0 → u.unlockReq = some (r,
          t)) → OperandsLinked u := by
    intro u e1 e2 e3 e4 e5 e6 e7 e8
    have hs : ∀ t p, u.HasSlot t p ↔ g.HasSlot t p := State.hasSlot_congr e1
    refine ⟨?_, ?_, ?_, ?_⟩
    · intro r hr
      have e0 : u.readRst r = g.readRst r := State.readRst_congr e4 r
      rw [e0] at hr ⊢
      rw [hs]
      rcases h2 r hr with k | ⟨e, k1, k2, k3⟩
      · exact Or.inl k
      · exact Or.inr (e8 r _ e k1 k2 k3 (by rintro rfl; rw [hz] at hr; cases hr))
    · intro r t ht
      rw [e5] at ht
      unfold State.OnBus
      rw [hs, e6, e7]; exact h3 r t ht
    · intro e he hb t ht
      rw [e3] at he; rw [hs]; exact h1.stations e he hb t ht
    · intro i q hq t ht
      rw [hs]; exact h1.queued i q (by unfold State.HasQueued at hq ⊢; rw [e2] at hq; exact hq) t ht
  have empty : ∀ u : State, (∀ r, (u.readRst r).busy = false) → u.lockReq = none → (∀ e ∈ u.rs, e.busy = false) →
      u.lsq.count = 0 → OperandsLinked u := by
    intro u a1 a2 a3 a4
    refine ⟨fun r hr => (by rw [a1] at hr; cases hr), fun r t ht => (by rw [a2] at ht; cases ht), fun e he hb =>
        (by rw [a3 e he] at hb; cases hb), ?_⟩
    intro i q hq
    have := hq.1; rw [Fifo.live_of_empty a4] at this; cases this
  have frz : ∀ u : State, OperandsLinked u → OperandsLinked u.forceZero := by
    intro u hu; exact ⟨hu.renamed, hu.locked, hu.stations, hu.queued⟩
  rcases g.phaseI_cases with ⟨k1, k2⟩ | ⟨t, e, k1, ⟨u, k2, k3⟩ | ⟨op, ho, k2, k3⟩⟩
  · rw [k2] at hv; obtain rfl := Host.Outcome.next.inj hv
    exact base _ rfl rfl rfl rfl rfl rfl rfl (by rw [k1]; intro r t e h; cases h)
  · rw [k3] at hv; obtain rfl := Host.Outcome.next.inj hv
    apply frz
    have roll : ∀ (x : State) (w : Word), OperandsLinked (x.rollback w) := by
      intro x w
      refine empty _ ?_ rfl ?_ rfl
      · intro r; unfold State.readRst State.rollback; simp
      · intro d hd; obtain ⟨d', _, rfl⟩ := List.mem_map.mp hd; rfl
    have ret : ∀ (w : Word), OperandsLinked (State.retireRegister { g with commitLatch := none } t e.rd w) := by
      intro w
      unfold State.retireRegister
      split
      · rename_i hr
        refine base _ rfl rfl rfl rfl rfl rfl rfl ?_
        intro r t' e' a1 a2 a3 a4
        rw [k1] at a1; obtain ⟨rfl, rfl⟩ := Prod.mk.inj (Option.some.inj a1)
        exact absurd (a2.symm.trans hr) a4
      · refine base _ rfl rfl rfl rfl rfl rfl rfl ?_
        intro r t' e' a1 a2 a3 a4
        rw [k1] at a1; obtain ⟨rfl, rfl⟩ := Prod.mk.inj (Option.some.inj a1)
        rw [← a2]
    have nowr : e.op.writesRegister = false → ∀ u : State, u.rob = g.rob → u.lsq = g.lsq → u.rs = g.rs → u.rst =
        g.rst → u.lockReq = g.lockReq → u.cdb = g.cdb → u.robSig = g.robSig → OperandsLinked u := by
      intro hw u e1 e2 e3 e4 e5 e6 e7
      refine base u e1 e2 e3 e4 e5 e6 e7 ?_
      intro r t' e' a1 a2 a3 a4
      rw [k1] at a1; obtain ⟨rfl, rfl⟩ := Prod.mk.inj (Option.some.inj a1)
      rw [hw] at a3; cases a3
    have redir : ∀ x : State, OperandsLinked x → OperandsLinked (x.commitRedirect e) := by
      intro x hx
      unfold State.commitRedirect
      split
      · exact hx
      · exact roll _ _
    unfold State.commitEntry at k2
    cases ho : e.op with
    | halt =>
      simp only [ho, Host.Outcome.next.injEq] at k2; subst k2
      exact nowr (by rw [ho]; rfl) _ rfl rfl rfl rfl rfl rfl rfl
    | rs op =>
      cases op with
      | compute op => simp only [ho, Host.Outcome.next.injEq] at k2; subst k2; exact ret _
      | branch op =>
        simp only [ho, Host.Outcome.next.injEq] at k2; subst k2
        exact redir _ (nowr (by rw [ho]; rfl) _ rfl rfl rfl rfl rfl rfl rfl)
      | jump op => simp only [ho, Host.Outcome.next.injEq] at k2; subst k2; exact redir _ (ret _)
    | mem op =>
      cases op with
      | load op => simp only [ho, Host.Outcome.next.injEq] at k2; subst k2; exact ret _
      | store op =>
        simp only [ho, State.markStore] at k2
        split at k2
        · rename_i i hfi
          simp only [Host.Outcome.next.injEq] at k2; subst k2
          have hx := nowr (by rw [ho]; rfl) { g with commitLatch := none } rfl rfl rfl rfl rfl rfl rfl
          refine ⟨hx.renamed, hx.locked, hx.stations, ?_⟩
          rintro j q ⟨hq1, hq2⟩ t ht
          simp only at hq1 hq2
          rw [Fifo.live_congr (Fifo.modify_head _ _) (Fifo.modify_count _ _) (Fifo.modify_capacity _ _)] at hq1
          rw [Fifo.modify_slot] at hq2
          split at hq2
          · obtain ⟨p, h5, rfl⟩ := Option.map_eq_some_iff.mp hq2
            exact hx.queued j p ⟨hq1, h5⟩ t ht
          · exact hx.queued j q ⟨hq1, hq2⟩ t ht
        · cases k2
  · rw [k3] at hv; cases hv

end Sys2Proof.Machine
end

