-- ==== Sys2Proof/Laws/PerInstr.lean ====
section
/-! SUPPORT. A statement made per instruction: the encoder's word has exactly the fixed bits that the instruction's row
of spec/opcode_table.json gives, on the row's mask. Mask and match are copied from the table. -/

namespace Sys2Proof.Laws

/-- Mask and match of an instruction's row. -/
def tableRow : Instr → Word × Word
  | .halt => (0xFFFFFFFF, 0x0FF00513)
  | .lui _ _ => (0x0000007F, 0x00000037)
  | .auipc _ _ => (0x0000007F, 0x00000017)
  | .jal _ _ => (0x0000007F, 0x0000006F)
  | .jalr _ _ _ => (0x0000707F, 0x00000067)
  | .beq _ _ _ => (0x0000707F, 0x00000063)
  | .bne _ _ _ => (0x0000707F, 0x00001063)
  | .blt _ _ _ => (0x0000707F, 0x00004063)
  | .bge _ _ _ => (0x0000707F, 0x00005063)
  | .bltu _ _ _ => (0x0000707F, 0x00006063)
  | .bgeu _ _ _ => (0x0000707F, 0x00007063)
  | .lb _ _ _ => (0x0000707F, 0x00000003)
  | .lh _ _ _ => (0x0000707F, 0x00001003)
  | .lw _ _ _ => (0x0000707F, 0x00002003)
  | .lbu _ _ _ => (0x0000707F, 0x00004003)
  | .lhu _ _ _ => (0x0000707F, 0x00005003)
  | .sb _ _ _ => (0x0000707F, 0x00000023)
  | .sh _ _ _ => (0x0000707F, 0x00001023)
  | .sw _ _ _ => (0x0000707F, 0x00002023)
  | .addi _ _ _ => (0x0000707F, 0x00000013)
  | .slti _ _ _ => (0x0000707F, 0x00002013)
  | .sltiu _ _ _ => (0x0000707F, 0x00003013)
  | .xori _ _ _ => (0x0000707F, 0x00004013)
  | .ori _ _ _ => (0x0000707F, 0x00006013)
  | .andi _ _ _ => (0x0000707F, 0x00007013)
  | .slli _ _ _ => (0x0000707F, 0x00001013)
  | .srli _ _ _ => (0x4000707F, 0x00005013)
  | .srai _ _ _ => (0x4000707F, 0x40005013)
  | .add _ _ _ => (0x4000707F, 0x00000033)
  | .sub _ _ _ => (0x4000707F, 0x40000033)
  | .sll _ _ _ => (0x0000707F, 0x00001033)
  | .slt _ _ _ => (0x0000707F, 0x00002033)
  | .sltu _ _ _ => (0x0000707F, 0x00003033)
  | .xor _ _ _ => (0x0000707F, 0x00004033)
  | .srl _ _ _ => (0x4000707F, 0x00005033)
  | .sra _ _ _ => (0x4000707F, 0x40005033)
  | .or _ _ _ => (0x0000707F, 0x00006033)
  | .and _ _ _ => (0x0000707F, 0x00007033)

/-- The word of `i` matches the row of `i`. -/
def RowMatch.Statement (i : Instr) : Prop := encode i &&& (tableRow i).1 = (tableRow i).2

/-! ### What a mask leaves of a format (R63) -/

theorem formatI_masked (imm : BitVec 12) (rs1 : RegIdx) (f3 : BitVec 3) (rd : RegIdx) (opcode : BitVec 7) :
    encodeI imm rs1 f3 rd opcode &&& 0x707F#32 = encodeI 0 0 f3 0 opcode := by
  apply BitVec.eq_of_getLsbD_eq
  intro i hi
  unfold encodeI
  simp only [BitVec.getLsbD_and, BitVec.getLsbD_append]
  interval_cases i <;> simp

theorem formatS_masked (imm : BitVec 12) (rs2 rs1 : RegIdx) (f3 : BitVec 3) (opcode : BitVec 7) :
    encodeS imm rs2 rs1 f3 opcode &&& 0x707F#32 = encodeS 0 0 0 f3 opcode := by
  apply BitVec.eq_of_getLsbD_eq
  intro i hi
  unfold encodeS
  simp only [BitVec.getLsbD_and, BitVec.getLsbD_append]
  interval_cases i <;> simp

theorem formatB_masked (offset : BitVec 13) (rs2 rs1 : RegIdx) (f3 : BitVec 3) (opcode : BitVec 7) :
    encodeB offset rs2 rs1 f3 opcode &&& 0x707F#32 = encodeB 0 0 0 f3 opcode := by
  apply BitVec.eq_of_getLsbD_eq
  intro i hi
  unfold encodeB
  simp only [BitVec.getLsbD_and, BitVec.getLsbD_append]
  interval_cases i <;> simp

theorem formatU_masked (imm : BitVec 20) (rd : RegIdx) (opcode : BitVec 7) :
    encodeU imm rd opcode &&& 0x7F#32 = encodeU 0 0 opcode := by
  apply BitVec.eq_of_getLsbD_eq
  intro i hi
  unfold encodeU
  simp only [BitVec.getLsbD_and, BitVec.getLsbD_append]
  interval_cases i <;> simp

theorem formatJ_masked (offset : BitVec 21) (rd : RegIdx) (opcode : BitVec 7) :
    encodeJ offset rd opcode &&& 0x7F#32 = encodeJ 0 0 opcode := by
  apply BitVec.eq_of_getLsbD_eq
  intro i hi
  unfold encodeJ
  simp only [BitVec.getLsbD_and, BitVec.getLsbD_append]
  interval_cases i <;> simp

theorem formatR_masked (f7 : BitVec 7) (rs2 rs1 : RegIdx) (f3 : BitVec 3) (rd : RegIdx) (opcode : BitVec 7) :
    encodeR f7 rs2 rs1 f3 rd opcode &&& 0x707F#32 = encodeR 0 0 0 f3 0 opcode := by
  apply BitVec.eq_of_getLsbD_eq
  intro i hi
  unfold encodeR
  simp only [BitVec.getLsbD_and, BitVec.getLsbD_append]
  interval_cases i <;> simp

theorem formatR30_masked (f7 : BitVec 7) (rs2 rs1 : RegIdx) (f3 : BitVec 3) (rd : RegIdx) (opcode : BitVec 7) :
    encodeR f7 rs2 rs1 f3 rd opcode &&& 0x4000707F#32 = encodeR (f7 &&& 0b0100000#7) 0 0 f3 0 opcode := by
  apply BitVec.eq_of_getLsbD_eq
  intro i hi
  unfold encodeR
  simp only [BitVec.getLsbD_and, BitVec.getLsbD_append]
  interval_cases i <;> simp

/-! ### One lemma per instruction -/

theorem RowMatch.halt : RowMatch.Statement .halt := rfl
theorem RowMatch.lui : ∀ rd imm, RowMatch.Statement (.lui rd imm) :=
  fun _ _ => (formatU_masked _ _ _).trans rfl
theorem RowMatch.auipc : ∀ rd imm, RowMatch.Statement (.auipc rd imm) :=
  fun _ _ => (formatU_masked _ _ _).trans rfl
theorem RowMatch.jal : ∀ rd offset, RowMatch.Statement (.jal rd offset) :=
  fun _ _ => (formatJ_masked _ _ _).trans rfl
theorem RowMatch.jalr : ∀ rd rs1 imm, RowMatch.Statement (.jalr rd rs1 imm) :=
  fun _ _ _ => (formatI_masked _ _ _ _ _).trans rfl
theorem RowMatch.beq : ∀ rs1 rs2 offset, RowMatch.Statement (.beq rs1 rs2 offset) :=
  fun _ _ _ => (formatB_masked _ _ _ _ _).trans rfl
theorem RowMatch.bne : ∀ rs1 rs2 offset, RowMatch.Statement (.bne rs1 rs2 offset) :=
  fun _ _ _ => (formatB_masked _ _ _ _ _).trans rfl
theorem RowMatch.blt : ∀ rs1 rs2 offset, RowMatch.Statement (.blt rs1 rs2 offset) :=
  fun _ _ _ => (formatB_masked _ _ _ _ _).trans rfl
theorem RowMatch.bge : ∀ rs1 rs2 offset, RowMatch.Statement (.bge rs1 rs2 offset) :=
  fun _ _ _ => (formatB_masked _ _ _ _ _).trans rfl
theorem RowMatch.bltu : ∀ rs1 rs2 offset, RowMatch.Statement (.bltu rs1 rs2 offset) :=
  fun _ _ _ => (formatB_masked _ _ _ _ _).trans rfl
theorem RowMatch.bgeu : ∀ rs1 rs2 offset, RowMatch.Statement (.bgeu rs1 rs2 offset) :=
  fun _ _ _ => (formatB_masked _ _ _ _ _).trans rfl
theorem RowMatch.lb : ∀ rd rs1 imm, RowMatch.Statement (.lb rd rs1 imm) :=
  fun _ _ _ => (formatI_masked _ _ _ _ _).trans rfl
theorem RowMatch.lh : ∀ rd rs1 imm, RowMatch.Statement (.lh rd rs1 imm) :=
  fun _ _ _ => (formatI_masked _ _ _ _ _).trans rfl
theorem RowMatch.lw : ∀ rd rs1 imm, RowMatch.Statement (.lw rd rs1 imm) :=
  fun _ _ _ => (formatI_masked _ _ _ _ _).trans rfl
theorem RowMatch.lbu : ∀ rd rs1 imm, RowMatch.Statement (.lbu rd rs1 imm) :=
  fun _ _ _ => (formatI_masked _ _ _ _ _).trans rfl
theorem RowMatch.lhu : ∀ rd rs1 imm, RowMatch.Statement (.lhu rd rs1 imm) :=
  fun _ _ _ => (formatI_masked _ _ _ _ _).trans rfl
theorem RowMatch.sb : ∀ rs2 rs1 imm, RowMatch.Statement (.sb rs2 rs1 imm) :=
  fun _ _ _ => (formatS_masked _ _ _ _ _).trans rfl
theorem RowMatch.sh : ∀ rs2 rs1 imm, RowMatch.Statement (.sh rs2 rs1 imm) :=
  fun _ _ _ => (formatS_masked _ _ _ _ _).trans rfl
theorem RowMatch.sw : ∀ rs2 rs1 imm, RowMatch.Statement (.sw rs2 rs1 imm) :=
  fun _ _ _ => (formatS_masked _ _ _ _ _).trans rfl
theorem RowMatch.addi : ∀ rd rs1 imm, RowMatch.Statement (.addi rd rs1 imm) :=
  fun _ _ _ => (formatI_masked _ _ _ _ _).trans rfl
theorem RowMatch.slti : ∀ rd rs1 imm, RowMatch.Statement (.slti rd rs1 imm) :=
  fun _ _ _ => (formatI_masked _ _ _ _ _).trans rfl
theorem RowMatch.sltiu : ∀ rd rs1 imm, RowMatch.Statement (.sltiu rd rs1 imm) :=
  fun _ _ _ => (formatI_masked _ _ _ _ _).trans rfl
theorem RowMatch.xori : ∀ rd rs1 imm, RowMatch.Statement (.xori rd rs1 imm) :=
  fun _ _ _ => (formatI_masked _ _ _ _ _).trans rfl
theorem RowMatch.ori : ∀ rd rs1 imm, RowMatch.Statement (.ori rd rs1 imm) :=
  fun _ _ _ => (formatI_masked _ _ _ _ _).trans rfl
theorem RowMatch.andi : ∀ rd rs1 imm, RowMatch.Statement (.andi rd rs1 imm) :=
  fun _ _ _ => (formatI_masked _ _ _ _ _).trans rfl
theorem RowMatch.slli : ∀ rd rs1 shamt, RowMatch.Statement (.slli rd rs1 shamt) :=
  fun _ _ _ => (formatR_masked _ _ _ _ _ _).trans rfl
theorem RowMatch.srli : ∀ rd rs1 shamt, RowMatch.Statement (.srli rd rs1 shamt) :=
  fun _ _ _ => (formatR30_masked _ _ _ _ _ _).trans rfl
theorem RowMatch.srai : ∀ rd rs1 shamt, RowMatch.Statement (.srai rd rs1 shamt) :=
  fun _ _ _ => (formatR30_masked _ _ _ _ _ _).trans rfl
theorem RowMatch.add : ∀ rd rs1 rs2, RowMatch.Statement (.add rd rs1 rs2) :=
  fun _ _ _ => (formatR30_masked _ _ _ _ _ _).trans rfl
theorem RowMatch.sub : ∀ rd rs1 rs2, RowMatch.Statement (.sub rd rs1 rs2) :=
  fun _ _ _ => (formatR30_masked _ _ _ _ _ _).trans rfl
theorem RowMatch.sll : ∀ rd rs1 rs2, RowMatch.Statement (.sll rd rs1 rs2) :=
  fun _ _ _ => (formatR_masked _ _ _ _ _ _).trans rfl
theorem RowMatch.slt : ∀ rd rs1 rs2, RowMatch.Statement (.slt rd rs1 rs2) :=
  fun _ _ _ => (formatR_masked _ _ _ _ _ _).trans rfl
theorem RowMatch.sltu : ∀ rd rs1 rs2, RowMatch.Statement (.sltu rd rs1 rs2) :=
  fun _ _ _ => (formatR_masked _ _ _ _ _ _).trans rfl
theorem RowMatch.xor : ∀ rd rs1 rs2, RowMatch.Statement (.xor rd rs1 rs2) :=
  fun _ _ _ => (formatR_masked _ _ _ _ _ _).trans rfl
theorem RowMatch.srl : ∀ rd rs1 rs2, RowMatch.Statement (.srl rd rs1 rs2) :=
  fun _ _ _ => (formatR30_masked _ _ _ _ _ _).trans rfl
theorem RowMatch.sra : ∀ rd rs1 rs2, RowMatch.Statement (.sra rd rs1 rs2) :=
  fun _ _ _ => (formatR30_masked _ _ _ _ _ _).trans rfl
theorem RowMatch.or : ∀ rd rs1 rs2, RowMatch.Statement (.or rd rs1 rs2) :=
  fun _ _ _ => (formatR_masked _ _ _ _ _ _).trans rfl
theorem RowMatch.and : ∀ rd rs1 rs2, RowMatch.Statement (.and rd rs1 rs2) :=
  fun _ _ _ => (formatR_masked _ _ _ _ _ _).trans rfl

end Sys2Proof.Laws
end

