-- ==== Sys2Proof/Tests/Slice0.lean ====
section
/-! SUPPORT. The model's own tests: ill-formed terms are refused, words written out from the encoding of
spec/30_encoding.md decode, one-step results from the vectors of spec/95_test_vectors.md, and for every statement of
Certificates/Slice0/Obligations.lean with hypotheses a state that meets them. -/

namespace Sys2Proof.Tests

open Sys2Proof Sys2Proof.Machine

/-! ### Ill-formed terms (WellFormed.lean) -/

theorem test_wellFormed_refuses_odd_jal : (Instr.jal 1 3).wellFormed = false := by decide
theorem test_wellFormed_refuses_odd_branch :
    (Instr.beq 1 2 1).wellFormed = false ∧ (Instr.bne 1 2 (-1)).wellFormed = false ∧
    (Instr.blt 1 2 5).wellFormed = false ∧ (Instr.bge 1 2 7).wellFormed = false ∧
    (Instr.bltu 1 2 9).wellFormed = false ∧ (Instr.bgeu 1 2 11).wellFormed = false := by decide
theorem test_wellFormed_refuses_halt_pattern :
    (Instr.addi 10 0 255).wellFormed = false ∧ (Instr.addi 11 0 255).wellFormed = true ∧
    (Instr.addi 10 1 255).wellFormed = true ∧ (Instr.addi 10 0 254).wellFormed = true := by decide

/-! ### Decoding: words written out field by field from R63 to R73 -/

theorem test_decode_halt : decode 0x0FF00513 = .ok .halt := by decide
/-- U: `imm[31:12] | rd | opcode`. -/
theorem test_decode_upper :
    decode (0b00010010001101000101#20 ++ 0b00101#5 ++ 0b0110111#7) = .ok (.lui 5 0x12345) ∧
    decode (0b11111111111111111111#20 ++ 0b00101#5 ++ 0b0010111#7) = .ok (.auipc 5 0xFFFFF) := by decide
/-- J: `imm[20] | imm[10:1] | imm[11] | imm[19:12] | rd | opcode`, the offset 2 + 2^11 + 2^12 and -12. -/
theorem test_decode_jal :
    decode (0#1 ++ 0b0000000001#10 ++ 1#1 ++ 0b00000001#8 ++ 0b00001#5 ++ 0b1101111#7) = .ok (.jal 1 6146) ∧
    decode (1#1 ++ 0b1111111010#10 ++ 1#1 ++ 0b11111111#8 ++ 0b00000#5 ++ 0b1101111#7) = .ok (.jal 0 (-12)) := by decide
/-- I: `imm[11:0] | rs1 | f3 | rd | opcode`. -/
theorem test_decode_jalr :
    decode (0b111111111100#12 ++ 0b00101#5 ++ 0b000#3 ++ 0b00001#5 ++ 0b1100111#7) = .ok (.jalr 1 5 (-4)) := by decide
/-- B: `imm[12] | imm[10:5] | rs2 | rs1 | f3 | imm[4:1] | imm[11] | opcode`. -/
theorem test_decode_branches :
    decode (0#1 ++ 0b000000#6 ++ 0b00110#5 ++ 0b00101#5 ++ 0b000#3 ++ 0b1000#4 ++ 0#1 ++ 0b1100011#7) =
      .ok (.beq 5 6 16) ∧
    decode (0#1 ++ 0b000000#6 ++ 0b00110#5 ++ 0b00101#5 ++ 0b001#3 ++ 0b0000#4 ++ 1#1 ++ 0b1100011#7) =
      .ok (.bne 5 6 2048) ∧
    decode (1#1 ++ 0b111111#6 ++ 0b00110#5 ++ 0b00101#5 ++ 0b100#3 ++ 0b1110#4 ++ 1#1 ++ 0b1100011#7) =
      .ok (.blt 5 6 (-4)) ∧
    decode (0#1 ++ 0b000001#6 ++ 0b00110#5 ++ 0b00101#5 ++ 0b101#3 ++ 0b0110#4 ++ 0#1 ++ 0b1100011#7) =
      .ok (.bge 5 6 44) ∧
    decode (0#1 ++ 0b000000#6 ++ 0b00110#5 ++ 0b00101#5 ++ 0b110#3 ++ 0b0110#4 ++ 0#1 ++ 0b1100011#7) =
      .ok (.bltu 5 6 12) ∧
    decode (1#1 ++ 0b000000#6 ++ 0b00110#5 ++ 0b00101#5 ++ 0b111#3 ++ 0b0000#4 ++ 0#1 ++ 0b1100011#7) =
      .ok (.bgeu 5 6 (-4096)) := by decide
theorem test_decode_loads :
    decode (0b111111111111#12 ++ 0b00110#5 ++ 0b000#3 ++ 0b00101#5 ++ 0b0000011#7) = .ok (.lb 5 6 (-1)) ∧
    decode (0b000000000001#12 ++ 0b00110#5 ++ 0b001#3 ++ 0b00101#5 ++ 0b0000011#7) = .ok (.lh 5 6 1) ∧
    decode (0b111111111100#12 ++ 0b00110#5 ++ 0b010#3 ++ 0b00101#5 ++ 0b0000011#7) = .ok (.lw 5 6 (-4)) ∧
    decode (0b000000000001#12 ++ 0b00110#5 ++ 0b100#3 ++ 0b00101#5 ++ 0b0000011#7) = .ok (.lbu 5 6 1) ∧
    decode (0b000000000010#12 ++ 0b00110#5 ++ 0b101#3 ++ 0b00101#5 ++ 0b0000011#7) = .ok (.lhu 5 6 2) := by decide
/-- S: `imm[11:5] | rs2 | rs1 | f3 | imm[4:0] | opcode`. -/
theorem test_decode_stores :
    decode (0b0000000#7 ++ 0b00111#5 ++ 0b00110#5 ++ 0b000#3 ++ 0b00011#5 ++ 0b0100011#7) = .ok (.sb 7 6 3) ∧
    decode (0b0000001#7 ++ 0b00111#5 ++ 0b00110#5 ++ 0b001#3 ++ 0b00001#5 ++ 0b0100011#7) = .ok (.sh 7 6 33) ∧
    decode (0b1111111#7 ++ 0b00111#5 ++ 0b00110#5 ++ 0b010#3 ++ 0b11100#5 ++ 0b0100011#7) = .ok (.sw 7 6 (-4)) := by
  decide
theorem test_decode_immediate :
    decode (0b100000000000#12 ++ 0b00110#5 ++ 0b000#3 ++ 0b00101#5 ++ 0b0010011#7) = .ok (.addi 5 6 (-2048)) ∧
    decode (0b000000000101#12 ++ 0b00110#5 ++ 0b010#3 ++ 0b00101#5 ++ 0b0010011#7) = .ok (.slti 5 6 5) ∧
    decode (0b000000000001#12 ++ 0b00110#5 ++ 0b011#3 ++ 0b00101#5 ++ 0b0010011#7) = .ok (.sltiu 5 6 1) ∧
    decode (0b010101010101#12 ++ 0b00110#5 ++ 0b100#3 ++ 0b00101#5 ++ 0b0010011#7) = .ok (.xori 5 6 0x555) ∧
    decode (0b011100000000#12 ++ 0b00110#5 ++ 0b110#3 ++ 0b00101#5 ++ 0b0010011#7) = .ok (.ori 5 6 0x700) ∧
    decode (0b000011111111#12 ++ 0b00110#5 ++ 0b111#3 ++ 0b00101#5 ++ 0b0010011#7) = .ok (.andi 5 6 0xFF) := by decide
theorem test_decode_shifts :
    decode (0b0000000#7 ++ 0b00100#5 ++ 0b00110#5 ++ 0b001#3 ++ 0b00101#5 ++ 0b0010011#7) = .ok (.slli 5 6 4) ∧
    decode (0b0000000#7 ++ 0b11111#5 ++ 0b00110#5 ++ 0b101#3 ++ 0b00101#5 ++ 0b0010011#7) = .ok (.srli 5 6 31) ∧
    decode (0b0100000#7 ++ 0b11111#5 ++ 0b00110#5 ++ 0b101#3 ++ 0b00101#5 ++ 0b0010011#7) = .ok (.srai 5 6 31) := by
  decide
/-- R: `f7 | rs2 | rs1 | f3 | rd | opcode`. -/
theorem test_decode_register :
    decode (0b0000000#7 ++ 0b00111#5 ++ 0b00110#5 ++ 0b000#3 ++ 0b00101#5 ++ 0b0110011#7) = .ok (.add 5 6 7) ∧
    decode (0b0100000#7 ++ 0b00111#5 ++ 0b00110#5 ++ 0b000#3 ++ 0b00101#5 ++ 0b0110011#7) = .ok (.sub 5 6 7) ∧
    decode (0b0000000#7 ++ 0b00111#5 ++ 0b00110#5 ++ 0b001#3 ++ 0b00101#5 ++ 0b0110011#7) = .ok (.sll 5 6 7) ∧
    decode (0b0000000#7 ++ 0b00111#5 ++ 0b00110#5 ++ 0b010#3 ++ 0b00101#5 ++ 0b0110011#7) = .ok (.slt 5 6 7) ∧
    decode (0b0000000#7 ++ 0b00111#5 ++ 0b00110#5 ++ 0b011#3 ++ 0b00101#5 ++ 0b0110011#7) = .ok (.sltu 5 6 7) ∧
    decode (0b0000000#7 ++ 0b00111#5 ++ 0b00110#5 ++ 0b100#3 ++ 0b00101#5 ++ 0b0110011#7) = .ok (.xor 5 6 7) ∧
    decode (0b0000000#7 ++ 0b00111#5 ++ 0b00110#5 ++ 0b101#3 ++ 0b00101#5 ++ 0b0110011#7) = .ok (.srl 5 6 7) ∧
    decode (0b0100000#7 ++ 0b00111#5 ++ 0b00110#5 ++ 0b101#3 ++ 0b00101#5 ++ 0b0110011#7) = .ok (.sra 5 6 7) ∧
    decode (0b0000000#7 ++ 0b00111#5 ++ 0b00110#5 ++ 0b110#3 ++ 0b00101#5 ++ 0b0110011#7) = .ok (.or 5 6 7) ∧
    decode (0b0000000#7 ++ 0b00111#5 ++ 0b00110#5 ++ 0b111#3 ++ 0b00101#5 ++ 0b0110011#7) = .ok (.and 5 6 7) := by decide
/-- 95_test_vectors.md 2.6: words that do not decode. -/
theorem test_decode_failures :
    decode 0x0000007F = .error .unknownOpcode ∧ decode 0x0000000B = .error .unknownOpcode ∧
    decode 0x30200073 = .error .unknownOpcode ∧ decode 0x00001067 = .error .jalrFunct3 ∧
    decode 0x00002063 = .error .branchFunct3 ∧ decode 0x00003063 = .error .branchFunct3 ∧
    decode 0x00006003 = .error .loadFunct3 ∧ decode 0x00003023 = .error .storeFunct3 := by decide
/-- 2.6, the lenient rows, and the byte order of a fetch. -/
theorem test_decode_lenient :
    decode 0x40B51533 = .ok (.sll 10 10 11) ∧ decode 0x40051513 = .ok (.slli 10 10 0) ∧
    decodeTableWord 32 0x0FF00513 = some .halt ∧
    decodeBytes [0x13, 0x05, 0x50, 0x00, 0xAA] = .ok (.addi 10 0 5, [0xAA]) := by decide

/-! ### One step: a launched entry (95_test_vectors.md 2.1, 2.2) -/

/-- The state an outcome holds, if it is a next state. -/
def next? : Host.Outcome State Fault Refusal → Option State
  | .next s => some s
  | .fault _ => none
  | .refused _ => none

/-- A station, tag 0, both operands resolved. -/
def station (op : RsOp) (a b imm pc : Word) : RsEntry :=
  { busy := true, op := op, o1 := .val a, o2 := .val b, imm := imm, dest := 0, pc := pc }

/-- A core with one ready station and an undecodable word at its fetch pc. -/
def withStation (e : RsEntry) : State := { State.reset with rs := [e, RsEntry.reset] }

/-- What one step of such a core puts on the two buses. -/
def buses (e : RsEntry) : Option (List (Tag × Word) × List (Tag × Word)) :=
  (next? (step (withStation e))).map fun t => (t.cdb, t.robSig)

theorem test_lui : buses (station (.compute .lui) 0 0 0x12345000 0) = some ([(0, 0x12345000)], []) := by decide
theorem test_auipc : buses (station (.compute .auipc) 0 0 0xFFFFF000 0x100) = some ([(0, 0xFFFFF100)], []) := by decide
theorem test_addi_wraps : buses (station (.compute .addi) 0x7FFFFFFF 0 1 0) = some ([(0, 0x80000000)], []) := by decide
theorem test_slti : buses (station (.compute .slti) 0x80000000 0 0xFFFFFFFF 0) = some ([(0, 1)], []) := by decide
theorem test_sltiu : buses (station (.compute .sltiu) 0xFFFFFFFF 0 0xFFFFFFFF 0) = some ([(0, 0)], []) := by decide
theorem test_xori : buses (station (.compute .xori) 0xAAAAAAAA 0 0x555 0) = some ([(0, 0xAAAAAFFF)], []) := by decide
theorem test_ori : buses (station (.compute .ori) 1 0 0xFFFFF800 0) = some ([(0, 0xFFFFF801)], []) := by decide
theorem test_andi : buses (station (.compute .andi) 0x12345678 0 0xFFFFFFF0 0) = some ([(0, 0x12345670)], []) := by decide
theorem test_slli : buses (station (.compute .slli) 3 0 31 0) = some ([(0, 0x80000000)], []) := by decide
theorem test_srli : buses (station (.compute .srli) 0xF000000F 0 4 0) = some ([(0, 0x0F000000)], []) := by decide
theorem test_srai : buses (station (.compute .srai) 0xF000000F 0 4 0) = some ([(0, 0xFF000000)], []) := by decide
theorem test_add : buses (station (.compute .add) 0xFFFFFFFF 1 0 0) = some ([(0, 0)], []) := by decide
theorem test_sub : buses (station (.compute .sub) 0x80000000 1 0 0) = some ([(0, 0x7FFFFFFF)], []) := by decide
theorem test_sll_masks : buses (station (.compute .sll) 1 0x20 0 0) = some ([(0, 1)], []) := by decide
theorem test_slt : buses (station (.compute .slt) 0x7FFFFFFF 0x80000000 0 0) = some ([(0, 0)], []) := by decide
theorem test_sltu : buses (station (.compute .sltu) 0x7FFFFFFF 0x80000000 0 0) = some ([(0, 1)], []) := by decide
theorem test_xor : buses (station (.compute .xor) 0xFF00FF00 0x0FF00FF0 0 0) = some ([(0, 0xF0F0F0F0)], []) := by decide
theorem test_srl_masks : buses (station (.compute .srl) 0x80000000 0x3F 0 0) = some ([(0, 1)], []) := by decide
theorem test_sra_masks : buses (station (.compute .sra) 0x80000000 0x3F 0 0) = some ([(0, 0xFFFFFFFF)], []) := by decide
theorem test_or : buses (station (.compute .or) 0xFF00FF00 0x0FF00FF0 0 0) = some ([(0, 0xFFF0FFF0)], []) := by decide
theorem test_and : buses (station (.compute .and) 0xFF00FF00 0x0FF00FF0 0 0) = some ([(0, 0x0F000F00)], []) := by decide

theorem test_beq : buses (station (.branch .beq) 7 7 16 0x100) = some ([], [(0, 0x10)]) := by decide
theorem test_bne_not_taken : buses (station (.branch .bne) 7 7 16 0x100) = some ([], [(0, 4)]) := by decide
theorem test_blt : buses (station (.branch .blt) 0xFFFFFFFF 0 0xFFFFFFFC 0x100) = some ([], [(0, 0xFFFFFFFC)]) := by decide
theorem test_bge : buses (station (.branch .bge) 0x80000000 0 12 0x100) = some ([], [(0, 4)]) := by decide
theorem test_bltu : buses (station (.branch .bltu) 0 0xFFFFFFFF 12 0x100) = some ([], [(0, 12)]) := by decide
theorem test_bgeu : buses (station (.branch .bgeu) 0 0 12 0x100) = some ([], [(0, 12)]) := by decide
theorem test_jal : buses (station (.jump .jal) 0 0 0xFFFFFFF4 0x14) = some ([(0, 0x18)], [(0, 0xFFFFFFF4)]) := by decide
theorem test_jalr_clears_bit_zero :
    buses (station (.jump .jalr) 0x201 0 0 0x100) = some ([(0, 0x104)], [(0, 0x100)]) := by decide

/-! ### One step: the head of the load-store queue (2.3, 2.4, 2.7) -/

/-- The memory of 2.3: `Mem[0x100..0x104]` is `80 FF 7F 01 AA`. -/
def bytes : Memory := [(0x100, 0x80), (0x101, 0xFF), (0x102, 0x7F), (0x103, 0x01), (0x104, 0xAA)]

/-- A load-store-queue entry, tag 0, both operands resolved. -/
def queued (op : MemOp) (base data : Word) (ready : Bool) : LsqEntry :=
  { op := op, o1 := .val base, o2 := .val data, imm := 0, dest := 0, ready := ready, reported := ready }

/-- A core with that entry at the head of the load-store queue and the memory of 2.3. -/
def withQueued (q : LsqEntry) : State :=
  { State.reset with mem := bytes, lsq := { slots := [q, LsqEntry.reset], head := 0, count := 1 } }

/-- What one step of such a core puts on `cdb`, for a load. -/
def loaded (op : LoadOp) (a : Word) : Option (List (Tag × Word)) :=
  (next? (step (withQueued (queued (.load op) a 0 false)))).map State.cdb

/-- What one step of such a core leaves in `Mem[0x100..0x105]`, for a committed store of `0x12345678`. -/
def stored (op : StoreOp) (a : Word) : Option (List Byte) :=
  (next? (step (withQueued (queued (.store op) a 0x12345678 true)))).map fun t =>
    [t.mem.read 0x100, t.mem.read 0x101, t.mem.read 0x102, t.mem.read 0x103, t.mem.read 0x104, t.mem.read 0x105]

theorem test_lb : loaded .lb 0x100 = some [(0, 0xFFFFFF80)] := by decide
theorem test_lh_odd : loaded .lh 0x101 = some [(0, 0x00007FFF)] := by decide
theorem test_lw_misaligned : loaded .lw 0x101 = some [(0, 0xAA017FFF)] := by decide
theorem test_lbu : loaded .lbu 0x101 = some [(0, 0x000000FF)] := by decide
theorem test_lhu : loaded .lhu 0x100 = some [(0, 0x0000FF80)] := by decide
theorem test_sb : stored .sb 0x103 = some [0x80, 0xFF, 0x7F, 0x78, 0xAA, 0] := by decide
theorem test_sh_odd : stored .sh 0x101 = some [0x80, 0x78, 0x56, 0x01, 0xAA, 0] := by decide
theorem test_sw_misaligned : stored .sw 0x101 = some [0x80, 0x78, 0x56, 0x34, 0x12, 0] := by decide
/-- 2.7: `0xFFC` is the last address of a word, at `0xFFD` three bytes in range are not enough. -/
theorem test_lw_at_the_end :
    loaded .lw 0xFFC = some [(0, 0)] ∧
    (next? (step (withQueued (queued (.load .lw) 0xFFD 0 false)))).map (fun t => (t.fault, t.faultAddr)) =
      some (.memoryAccessError, 0xFFD) := by decide

/-! ### One step: fetch, dispatch, commit (95_test_vectors.md 3.1) -/

/-- 3.1, cycle 1. -/
theorem test_P1_cycle_1 :
    (next? (step (State.reset.withFetchWord 32 0x00500513))).map (fun t => (t.pc, t.rob.count, t.cycles)) =
      some (4, 1, 1) ∧
    (next? (step (State.reset.withFetchWord 32 0x00500513))).map State.lockReq = some (some (10, 0)) ∧
    (next? (step (State.reset.withFetchWord 32 0x00500513))).map (fun t => t.rs.head?) =
      some (some (station (.compute .addi) 0 0 5 0)) := by decide

/-- A reorder-buffer entry for tag 0 that is ready. -/
def readyEntry (op : OpKind) (rd : RegIdx) (value redirect : Word) : RobEntry :=
  { op := op, rd := rd, pc := 0x14, value := value, redirect := redirect, ready := true }

/-- A core with that entry at the head of the reorder buffer. -/
def withReady (e : RobEntry) : State :=
  { State.reset with rob := { slots := [e, RobEntry.reset], head := 0, count := 1 } }

/-- A core whose phase (i) has that entry to commit. -/
def withLatch (e : RobEntry) : State := { State.reset with commitLatch := some (0, e) }

theorem test_commit_value :
    (next? (step (withReady (readyEntry (.rs (.compute .addi)) 10 5 0)))).map
      (fun t => (t.readReg 10, t.unlockReq, t.rob.count)) = some (5, some (10, 0), 0) := by decide
theorem test_commit_jump_rolls_back :
    (next? (step (withReady (readyEntry (.rs (.jump .jal)) 1 0x18 0xFFFFFFF4)))).map
      (fun t => (t.pc, t.readReg 1, t.rollbacks, t.unlockReq)) = some (8, 0x18, 1, none) := by decide
theorem test_commit_halt :
    (next? (step (withReady (readyEntry .halt 0 0 0)))).map (fun t => (t.halted, t.exitCode)) = some (true, 0) := by decide
/-- `withFetchWord` stores the word where the next cycle fetches it. -/
theorem test_fetch_halt :
    (next? (step (State.reset.withFetchWord 32 0x0FF00513))).map (fun t => (t.pc, t.rob.count, t.lockReq)) =
      some (4, 1, none) := by decide

/-! ### Witnesses: for each statement with hypotheses, a state and operands that meet them

Where a statement has clauses, each clause has its witness, at a boundary value where its input has a range. -/

/-- The state a cycle in progress holds. -/
def flowState : Flow → State
  | .running s => s
  | .ended s => s

/-- `x6 = a`. -/
def withBase (a : Word) : State := State.reset.writeReg 6 a

theorem test_witness_DecodeEncodeRoundTrip :
    (Instr.beq 5 6 (-4096)).wellFormed = true ∧ (Instr.bgeu 5 6 4094).wellFormed = true ∧
    (Instr.jal 1 (-1048576)).wellFormed = true ∧ (Instr.jal 1 1048574).wellFormed = true ∧
    (Instr.addi 10 0 254).wellFormed = true ∧ (Instr.halt).wellFormed = true := by decide
theorem test_witness_DecodedIsWellFormed : decode 0xFE000CE3 = .ok (.beq 0 0 (-8)) := by decide
/-- One pair of words for each way bit 30 may differ, or may not. -/
theorem test_witness_LenientBitsIgnored :
    ((0x00B50533 : Word).extractLsb' 0 7 = 0b0110011#7 ∧
      (0x00B50533 : Word).extractLsb' 0 25 = (0xBEB50533 : Word).extractLsb' 0 25 ∧
      (0x00B50533 : Word).getLsbD 30 = (0xBEB50533 : Word).getLsbD 30) ∧
    ((0x00051513 : Word).extractLsb' 0 7 = 0b0010011#7 ∧ (0x00051513 : Word).extractLsb' 12 3 = 0b001#3 ∧
      (0x00051513 : Word).extractLsb' 0 25 = (0x40051513 : Word).extractLsb' 0 25) ∧
    ((0x00B57533 : Word).extractLsb' 0 7 = 0b0110011#7 ∧ (0x00B57533 : Word).extractLsb' 12 3 ≠ 0b000#3 ∧
      (0x00B57533 : Word).extractLsb' 12 3 ≠ 0b101#3 ∧
      (0x00B57533 : Word).extractLsb' 0 25 = (0xFEB57533 : Word).extractLsb' 0 25) := by decide
theorem test_witness_MemReadReadsBytes : 16 < (13 : Word).toNat + 4 ∧ (12 : Word).toNat + 4 ≤ 16 := by decide
theorem test_witness_MemWriteStoresBytes :
    Memory.wf bytes ∧ 16 < (16 : Word).toNat + 1 ∧ (15 : Word).toNat + 1 ≤ 16 ∧ (14 : Word).toNat + 2 ≤ 16 := by decide
theorem test_witness_MixedWidthSeesBytes :
    Memory.wf bytes ∧ (0x1000 : Nat) ≤ 2 ^ 32 ∧ (0xFFC : Word).toNat + 4 ≤ 0x1000 := by decide

/-- A live slot 0 named on both buses, and a slot 1 that is not live. -/
def withBroadcasts : State :=
  { withReady { readyEntry (.rs (.jump .jal)) 1 0 0 with ready := false } with cdb := [(0, 0x18)], robSig := [(0, 8)] }

theorem test_witness_RobCapturesBroadcasts :
    (withBroadcasts.cdb.map Prod.fst).Nodup ∧ (withBroadcasts.robSig.map Prod.fst).Nodup ∧
    withBroadcasts.rob.live 0 = true ∧ withBroadcasts.rob.live 1 = false ∧
    withBroadcasts.rob.slots[1]? = some RobEntry.reset ∧ (withBroadcasts.rob.slots[0]?).isSome ∧
    (0, (0x18 : Word)) ∈ withBroadcasts.cdb ∧ (0, (8 : Word)) ∈ withBroadcasts.robSig ∧
    1 ∉ withBroadcasts.cdb.map Prod.fst ∧ 1 ∉ withBroadcasts.robSig.map Prod.fst := by decide
theorem test_witness_RobPopsReadyHead :
    (withBroadcasts.rob.count ≠ 0 ∧
      (withBroadcasts.robCapture.rob.slots[withBroadcasts.rob.head]?).map RobEntry.ready = some true) ∧
    State.reset.rob.count = 0 ∧
    ({ withBroadcasts with cdb := [], robSig := [] }.robCapture.rob.slots[0]?).map RobEntry.ready = some false := by
  decide
theorem test_witness_BroadcastResolvesOperands :
    (([(0, 7), (1, 8)] : List (Tag × Word)).map Prod.fst).Nodup ∧ (1, (8 : Word)) ∈ [(0, (7 : Word)), (1, 8)] ∧
    2 ∉ ([(0, 7), (1, 8)] : List (Tag × Word)).map Prod.fst := by decide

/-- `QueueCapturesBroadcasts`: the head waits for tag 2, the entry behind it for tag 3 with both operands, and so does a
slot that is not live; tag 3 is on the bus. -/
def queueWaits : State :=
  { State.reset with
    cdb := [(3, 7)]
    lsq := ⟨[{ queued (.load .lw) 0 0 false with o1 := .tag 2 },
      { queued (.store .sw) 0 0 false with o1 := .tag 3, o2 := .tag 3 },
      { queued (.load .lw) 0 0 false with o1 := .tag 3 }], 0, 2⟩ }

theorem test_witness_QueueCapturesBroadcasts :
    queueWaits.lsq.live 0 = true ∧ queueWaits.lsq.live 1 = true ∧ queueWaits.lsq.live 2 = false ∧
    queueWaits.lsq.slots.length = 3 ∧ State.reset.lsq.count = 0 := by decide
/-- R143: the entry behind the head captures with both operands, the head waits, the slot not live keeps its tag. -/
theorem test_queue_captures_behind_the_head :
    ((next? (step queueWaits)).map fun t => t.lsq.slots.map fun q => (q.o1, q.o2)) =
      some [(.tag 2, .val 0), (.val 7, .val 7), (.tag 3, .val 0)] := by decide

/-- A station that waits for tag 3. -/
def waiting : RsEntry := { station (.compute .add) 0 0 0 0 with o1 := .tag 3 }

/-- The first clause: nothing ready, one station free, one waiting. The second: a ready station after a waiting one. -/
theorem test_witness_LowestReadyStationLaunches :
    (∀ e ∈ ({ State.reset with rs := [RsEntry.reset, waiting] } : State).rs.map (RsEntry.capture []),
      e.busy = false ∨ (∃ t, e.o1 = .tag t) ∨ ∃ t, e.o2 = .tag t) ∧
    ([waiting, station (.compute .add) 1 2 0 0] : List RsEntry)[1]? = some (station (.compute .add) 1 2 0 0) ∧
    (∀ j < 1, ∀ d, ([waiting, station (.compute .add) 1 2 0 0] : List RsEntry)[j]? = some d →
      d.busy = false ∨ (∃ t, d.o1 = .tag t) ∨ ∃ t, d.o2 = .tag t) := by
  refine ⟨?_, rfl, ?_⟩
  · intro e he
    simp only [List.map_cons, List.map_nil, List.mem_cons, List.not_mem_nil, or_false] at he
    rcases he with rfl | rfl
    · exact Or.inl rfl
    · exact Or.inr (Or.inl ⟨3, rfl⟩)
  · intro j hj d hd
    obtain rfl : j = 0 := by omega
    obtain rfl := Option.some.inj hd
    exact Or.inr (Or.inl ⟨3, rfl⟩)

/-- In range up to the last word, out of range one byte further. -/
theorem test_witness_LoadAtHeadIsPerformed :
    (withQueued (queued (.load .lw) 0xFFC 0 false)).lsq.front? = some (queued (.load .lw) 0xFFC 0 false) ∧
    memRead bytes 0x1000 (0xFFC + 0) LoadOp.lw.width = some 0 ∧ memRead bytes 0x1000 (0xFFD + 0) LoadOp.lw.width = none := by
  decide
theorem test_witness_CommittedStoreAtHeadIsWritten :
    (withQueued (queued (.store .sb) 0xFFF 7 true)).lsq.front? = some (queued (.store .sb) 0xFFF 7 true) ∧
    (memWrite bytes 0x1000 (0xFFF + 0) StoreOp.sb.width 7).isSome ∧
    memWrite bytes 0x1000 (0x1000 + 0) StoreOp.sb.width 7 = none := by decide
/-- A store to report, one that has reported, and an entry with a pending operand. -/
theorem test_witness_StoreReportsOnce :
    (withQueued (queued (.store .sw) 0 7 false)).lsq.front? = some (queued (.store .sw) 0 7 false) ∧
    (withQueued { queued (.store .sw) 0 7 false with reported := true }).lsq.front? =
      some { queued (.store .sw) 0 7 false with reported := true } ∧
    (withQueued { queued (.store .sw) 0 7 false with o2 := .tag 1 }).lsq.front? =
      some { queued (.store .sw) 0 7 false with o2 := .tag 1 } := by decide

/-- Register 5 renamed to tag 1, whose slot is not ready. -/
def renamed : State :=
  { State.reset.writeRst 5 { busy := true, tag := 1 } with lockReq := some (6, 2), unlockReq := some (5, 1) }

/-- A lock of 6, an unlock of 5 whose tag matches, one whose tag does not, no unlock at all. -/
theorem test_witness_UnlockThenLock :
    renamed.lockReq = some (6, 2) ∧ renamed.unlockReq = some (5, 1) ∧ (renamed.readRst 5).busy = true ∧
    (renamed.readRst 5).tag = 1 ∧ (renamed.lock 5 2).unlockReq = some (5, 1) ∧ ((renamed.lock 5 2).readRst 5).tag ≠ 1 ∧
    (renamed.readRst 7).busy = false := by decide
theorem test_witness_NewestProducerWins :
    renamed.rob.slots[1]? = some RobEntry.reset ∧ RobEntry.reset.ready = false ∧
    ({ renamed with lockReq := some (5, 1) } : State).lockReq = some (5, 1) ∧ renamed.unlockReq = some (5, 1) := by decide
theorem test_witness_OperandResolution :
    (renamed.readRst 6).busy = false ∧ (renamed.readRst 5).busy = true ∧
    renamed.rob.slots[(renamed.readRst 5).tag]? = some RobEntry.reset := by decide

/-- A fetched record. -/
def record (op : OpKind) : Record := { op := op, rd := 5, rs1 := 6, rs2 := 7, imm := 4, pc := 0x10 }

/-- A core with that record at the head of the fetch queue. -/
def withRecord (op : OpKind) : State := { State.reset with fq := [record op] }

/-- No reorder-buffer slot; no station; no load-store-queue slot; `HALT` with all of them. -/
theorem test_witness_DispatchStalls :
    ({ withRecord .halt with rob := { State.reset.rob with count := 4 } } : State).rob.capacity ≤ 4 ∧
    (∀ e ∈ ({ withRecord (.rs (.compute .add)) with rs := [waiting] } : State).rs, e.busy = true) ∧
    ({ withRecord (.mem (.load .lw)) with lsq := { State.reset.lsq with count := 4 } } : State).lsq.capacity ≤ 4 ∧
    (withRecord .halt).rob.count < (withRecord .halt).rob.capacity := by decide
theorem test_witness_DispatchBuildsEntries :
    (withRecord (.rs (.compute .add))).fq = record (.rs (.compute .add)) :: [] ∧
    (∃ e ∈ (withRecord (.rs (.compute .add))).rs, e.busy = false) ∧
    (withRecord (.mem (.store .sw))).lsq.count < (withRecord (.mem (.store .sw))).lsq.capacity ∧
    (withRecord .halt).rob.count < (withRecord .halt).rob.capacity := by decide

/-- A cycle whose phase (b) runs, and one whose phase (b) raises: a load three bytes before the end of memory. -/
theorem test_witness_PhasesInOrder :
    State.reset.halted = false ∧ State.reset.fault = .none ∧ State.reset.maxCycles = none ∧
    (∃ b, (State.phaseA { State.reset with cycles := 1 }).phaseB = .running b) ∧
    (withQueued (queued (.load .lw) 0xFFD 0 false)).halted = false ∧
    (withQueued (queued (.load .lw) 0xFFD 0 false)).fault = .none ∧
    ∃ u, (State.phaseA { withQueued (queued (.load .lw) 0xFFD 0 false) with cycles := 1 }).phaseB = .ended u :=
  ⟨rfl, rfl, rfl, ⟨_, rfl⟩, rfl, rfl, ⟨_, rfl⟩⟩

/-- A cycle that reaches its fetch with a full fetch queue; at the last address but three; at an undecodable word. -/
theorem test_witness_FetchTakesNothingIn :
    (∃ b, ({ withRecord .halt with fqCap := 1 } : State).beforeFetch = .running b ∧ b.fqCap ≤ b.fq.length) ∧
    (∃ b, ({ State.reset with pc := 0xFFD } : State).beforeFetch = .running b ∧ b.fq.length < b.fqCap ∧
      b.memSize < b.pc.toNat + 4) ∧
    (∃ b, ({ State.reset with pc := 0xFFC } : State).beforeFetch = .running b ∧ b.fq.length < b.fqCap ∧
      memRead b.mem b.memSize b.pc 4 = some 0 ∧ decode 0 = .error .unknownOpcode) :=
  ⟨⟨_, rfl, by decide⟩, ⟨_, rfl, by decide⟩, ⟨_, rfl, by decide⟩⟩
theorem test_witness_StepRunsDecoded :
    ∃ b, (State.reset.withFetchWord 32 0x00500513).beforeFetch = .running b ∧ b.fq.length < b.fqCap ∧
      b.pc.toNat + 4 ≤ b.memSize ∧
      decodeBytes [b.mem.read b.pc.toNat, b.mem.read (b.pc.toNat + 1), b.mem.read (b.pc.toNat + 2),
        b.mem.read (b.pc.toNat + 3)] = .ok (.addi 10 0 5, []) := ⟨_, rfl, by decide⟩

/-- A core with two results for the arbiter. -/
def withResults (op : RsOp) (o : LsqOut) : State :=
  { State.reset with execLatch := some { op := op, a := 1, b := 1, imm := 8, dest := 0, pc := 4 }, lsqOut := some o }

/-- What the arbiter puts on `cdb` and on `rob_sig` (R151's table). -/
def arbitrated (s : State) : List (Tag × Word) × List (Tag × Word) := (s.phaseF.phaseG.cdb, s.phaseF.phaseG.robSig)

/-- `ArbiterDrivesBuses`, a computation: `1 + 1`, with nothing, a loaded value, a store report beside it. -/
theorem test_witness_ArbiterDrivesBuses_compute :
    arbitrated { withResults (.compute .add) (.storeReport 1) with lsqOut := none } = ([(0, 2)], []) ∧
    arbitrated (withResults (.compute .add) (.loadResult 1 7)) = ([(0, 2), (1, 7)], []) ∧
    arbitrated (withResults (.compute .add) (.storeReport 1)) = ([(0, 2)], [(1, 0)]) := by decide
/-- A branch, taken and not. -/
theorem test_witness_ArbiterDrivesBuses_branch :
    arbitrated { withResults (.branch .beq) (.storeReport 1) with lsqOut := none } = ([], [(0, 8)]) ∧
    arbitrated (withResults (.branch .bne) (.loadResult 1 7)) = ([(1, 7)], [(0, 4)]) ∧
    arbitrated (withResults (.branch .beq) (.storeReport 1)) = ([], [(0, 8), (1, 0)]) := by decide
/-- A jump: the link of pc 4; the offset 8, or the target `(1 + 8) & ~1` as a delta from pc 4. -/
theorem test_witness_ArbiterDrivesBuses_jump :
    arbitrated { withResults (.jump .jal) (.storeReport 1) with lsqOut := none } = ([(0, 8)], [(0, 8)]) ∧
    arbitrated (withResults (.jump .jalr) (.loadResult 1 7)) = ([(0, 8), (1, 7)], [(0, 4)]) ∧
    arbitrated (withResults (.jump .jal) (.storeReport 1)) = ([(0, 8)], [(0, 8), (1, 0)]) := by decide
/-- No launched entry. -/
theorem test_witness_ArbiterDrivesBuses_queue :
    arbitrated State.reset = ([], []) ∧
    arbitrated { withResults (.jump .jal) (.loadResult 1 7) with execLatch := none } = ([(1, 7)], []) ∧
    arbitrated { withResults (.jump .jal) (.storeReport 1) with execLatch := none } = ([], [(1, 0)]) := by decide
/-- Nothing popped, and a `HALT`. -/
theorem test_witness_CommitHalt :
    State.reset.commitLatch = none ∧
    (withLatch (readyEntry .halt 0 0 0)).commitLatch = some (0, readyEntry .halt 0 0 0) ∧
    (withLatch (readyEntry .halt 0 0 0)).readReg 0 = 0 := by decide
/-- A destination and none. -/
theorem test_witness_CommitRegister :
    (withLatch (readyEntry (.rs (.compute .add)) 5 7 0)).commitLatch = some (0, readyEntry (.rs (.compute .add)) 5 7 0) ∧
    (withLatch (readyEntry (.rs (.compute .add)) 5 7 0)).readReg 0 = 0 ∧
    (readyEntry (.rs (.compute .add)) 5 7 0).rd ≠ 0 ∧
    (withLatch (readyEntry (.mem (.load .lw)) 0 7 0)).readReg 0 = 0 ∧ (readyEntry (.mem (.load .lw)) 0 7 0).rd = 0 := by
  decide
/-- Redirect 4 and redirect 8. -/
theorem test_witness_CommitBranch :
    (withLatch (readyEntry (.rs (.branch .beq)) 0 0 4)).commitLatch = some (0, readyEntry (.rs (.branch .beq)) 0 0 4) ∧
    (withLatch (readyEntry (.rs (.branch .beq)) 0 0 4)).readReg 0 = 0 ∧
    (readyEntry (.rs (.branch .beq)) 0 0 4).redirect = 4 ∧ (readyEntry (.rs (.branch .beq)) 0 0 8).redirect ≠ 4 := by decide
/-- A destination and none, redirect 4 and redirect 8. -/
theorem test_witness_CommitJump :
    (withLatch (readyEntry (.rs (.jump .jal)) 1 0 4)).commitLatch = some (0, readyEntry (.rs (.jump .jal)) 1 0 4) ∧
    (withLatch (readyEntry (.rs (.jump .jal)) 1 0 4)).readReg 0 = 0 ∧
    (readyEntry (.rs (.jump .jal)) 1 0 4).rd ≠ 0 ∧ (readyEntry (.rs (.jump .jal)) 0 0 8).rd = 0 ∧
    (withLatch (readyEntry (.rs (.jump .jal)) 0 0 8)).commitLatch = some (0, readyEntry (.rs (.jump .jal)) 0 0 8) ∧
    (withLatch (readyEntry (.rs (.jump .jal)) 0 0 8)).readReg 0 = 0 ∧
    (readyEntry (.rs (.jump .jal)) 1 0 4).redirect = 4 ∧ (readyEntry (.rs (.jump .jal)) 1 0 8).redirect ≠ 4 := by decide

/-- A load, then a store with tag 0 that waits for its mark. -/
def storeSecond : State :=
  { withLatch (readyEntry (.mem (.store .sw)) 0 0 0) with
    lsq := { slots := [queued (.load .lw) 0 0 false, queued (.store .sw) 0 7 false], head := 0, count := 2 } }

theorem test_witness_CommitStoreMarks :
    storeSecond.commitLatch = some (0, readyEntry (.mem (.store .sw)) 0 0 0) ∧ storeSecond.readReg 0 = 0 ∧
    1 < storeSecond.lsq.count ∧
    storeSecond.lsq.slots[(storeSecond.lsq.head + 1) % storeSecond.lsq.capacity]? = some (queued (.store .sw) 0 7 false) ∧
    (∀ j < 1, ∀ d, storeSecond.lsq.slots[(storeSecond.lsq.head + j) % storeSecond.lsq.capacity]? = some d →
      (∃ lo, d.op = .load lo) ∨ d.ready = true ∨ d.dest ≠ 0) := by
  refine ⟨rfl, by decide, by decide, rfl, ?_⟩
  intro j hj d hd
  obtain rfl : j = 0 := by omega
  obtain rfl := Option.some.inj hd
  exact Or.inl ⟨.lw, rfl⟩

/-! #### Quiet and invariant states -/

/-- Nothing is in flight, whatever the register 6, the memory, the pc and the cycle bound. -/
theorem test_quiet (a : Word) (m : Memory) (pc : Word) (n : Option Nat) :
    Quiet { withBase a with mem := m, pc := pc, maxCycles := n } :=
  ⟨rfl, (State.readReg_writeReg State.reset 6 0 a).trans (if_neg (by decide)), rfl,
    by show (0 : Nat) < State.reset.rob.capacity; decide, by show ∀ e ∈ State.reset.rs, e.busy = false; decide,
    by show State.reset.rs ≠ []; decide, rfl, by show (0 : Nat) < State.reset.lsq.capacity; decide, rfl,
    by show 0 < State.reset.fqCap; decide, rfl, rfl, rfl, rfl, rfl, rfl, rfl,
    by show ∀ r : RegIdx, (State.reset.readRst r).busy = false; decide⟩

/-- `Always` holds of the same states with the memory of 2.3. -/
theorem test_always (a : Word) (n : Option Nat) : Always { withBase a with mem := bytes, maxCycles := n } :=
  ⟨(test_quiet a bytes 0 n).zero, by show Memory.wf bytes; decide, by show ∀ c ∈ bytes, c.1 < State.reset.memSize; decide, fun _ => rfl⟩

/-- Where the word after the fetch pc is zero, it is no load. -/
theorem test_noLoadNext (a : Word) (m : Memory) (n : Option Nat) (h : memRead m 0x1000 4 4 = some 0) :
    NoLoadNext { withBase a with mem := m, maxCycles := n } := by
  intro w i hw hi
  have : memRead m 0x1000 4 4 = some w := hw
  rw [h] at this
  obtain rfl := Option.some.inj this
  have h0 : decode 0 = .error .unknownOpcode := by decide
  rw [h0] at hi
  cases hi

/-- A core with nothing in flight, `x6 = a`, and no cycle to spare: its bound is `k`. -/
def runner (a : Word) (m : Memory) (pc : Word) (k : Nat) : State :=
  { withBase a with mem := m, pc := pc, maxCycles := some k }

theorem test_runner (a : Word) (m : Memory) (pc : Word) (k : Nat) (h : pc.toNat + 4 * k ≤ 0x1000) :
    RunsAhead k (runner a m pc k) := by
  refine ⟨test_quiet a m pc (some k), fun n hn => ?_, h⟩
  obtain rfl := Option.some.inj hn
  show 0 + k ≤ k
  omega

/-- For `UpperImmediateResults`, `ImmediateArithmeticResults`, `RegisterArithmeticResults`, `JumpResults`,
`BranchResults` and `QuietTakesIn`; for `HaltResults` where memory ends with the second word. -/
theorem test_witness_results :
    (RunsAhead 3 (runner 7 [] 0 3) ∧ NoLoadNext (runner 7 [] 0 3)) ∧ RunsAhead 3 (runner 7 [] 0xFF4 3) ∧
    RunsAhead 2 (runner 7 [] 0xFF8 2) ∧ RunsAhead 1 (runner 7 [] 0 1) :=
  ⟨⟨test_runner _ _ _ _ (by decide), test_noLoadNext _ _ _ (by decide)⟩, test_runner _ _ _ _ (by decide),
    test_runner _ _ _ _ (by decide), test_runner _ _ _ _ (by decide)⟩

/-- For `LoadResults` and `LoadOutOfRangeFaults`: the last word of memory, and one byte further. -/
theorem test_witness_loads :
    (RunsAhead 3 (runner 0xFFC bytes 0 3) ∧ NoLoadNext (runner 0xFFC bytes 0 3) ∧
      ((runner 0xFFC bytes 0 3).readReg 6 + (0 : BitVec 12).signExtend 32).toNat + 4 ≤ (runner 0xFFC bytes 0 3).memSize) ∧
    (RunsAhead 2 (runner 0xFFD bytes 0 2) ∧
      (runner 0xFFD bytes 0 2).memSize < ((runner 0xFFD bytes 0 2).readReg 6 + (0 : BitVec 12).signExtend 32).toNat + 4) :=
  ⟨⟨test_runner _ _ _ _ (by decide), test_noLoadNext _ _ _ (by decide), by decide⟩,
    test_runner _ _ _ _ (by decide), by decide⟩

/-- For `StoreResults` and `StoreOutOfRangeFaults`: the last byte of memory, and address `2^32 - 1`. -/
theorem test_witness_stores :
    (RunsAhead 4 (runner 0x1000 bytes 0 4) ∧ Always (runner 0x1000 bytes 0 4) ∧
      ((runner 0x1000 bytes 0 4).readReg 6 + (-1 : BitVec 12).signExtend 32).toNat + 1 ≤
        (runner 0x1000 bytes 0 4).memSize) ∧
    (RunsAhead 4 (runner 0 bytes 0 4) ∧ Always (runner 0 bytes 0 4) ∧
      (runner 0 bytes 0 4).memSize < ((runner 0 bytes 0 4).readReg 6 + (-1 : BitVec 12).signExtend 32).toNat + 1) :=
  ⟨⟨test_runner _ _ _ _ (by decide), test_always _ _, by decide⟩,
    test_runner _ _ _ _ (by decide), test_always _ _, by decide⟩
theorem test_witness_StoppedCoreStays :
    ({ State.reset with halted := true } : State).halted = true ∧
    ({ State.reset with fault := .simulationTimeout } : State).fault ≠ .none := by decide
/-- At the bound, and one cycle before it. -/
theorem test_witness_TimeoutAtBound :
    ({ State.reset with maxCycles := some 5, cycles := 5 } : State).stopped = false ∧
    ({ State.reset with maxCycles := some 5, cycles := 5 } : State).cycles ≥ 5 ∧
    ({ State.reset with maxCycles := some 5, cycles := 4 } : State).stopped = false ∧
    (next? (step { State.reset with maxCycles := some 5, cycles := 4 })).isSome := by decide
theorem test_witness_UndecodableWordStalls :
    RunsAhead 1 (runner 0 [] 0xFFC 1) ∧ memRead [] 0x1000 0xFFC 4 = some 0 ∧ decode 0 = .error .unknownOpcode :=
  ⟨test_runner _ _ _ _ (by decide), by decide, by decide⟩
theorem test_witness_FetchOutOfRangeFaults :
    Quiet (runner 0 [] 0xFFD 1) ∧ TimeFor 1 (runner 0 [] 0xFFD 1) ∧
    (runner 0 [] 0xFFD 1).memSize < (runner 0 [] 0xFFD 1).pc.toNat + 4 :=
  ⟨test_quiet _ _ _ _, fun n h => (by obtain rfl := Option.some.inj h; decide), by decide⟩

/-- The frame statements' premises: a next state exists from a state with a store to perform, from one with a register to
commit, and from one with neither. -/
theorem test_witness_frames :
    (next? (step (withQueued (queued (.store .sw) 0x100 7 true)))).isSome ∧
    (withQueued (queued (.store .sw) 0x100 7 true)).storesTo = some (0x100, 4) ∧ Memory.wf bytes ∧
    (next? (exec (.addi 1 0 1) (withReady (readyEntry (.rs (.compute .add)) 5 7 0)))).isSome ∧
    (withReady (readyEntry (.rs (.compute .add)) 5 7 0)).commits =
      some (0, readyEntry (.rs (.compute .add)) 5 7 0) ∧
    (withReady (readyEntry (.rs (.compute .add)) 5 7 0)).readReg 0 = 0 ∧ State.reset.storesTo = none ∧
    State.reset.commits = none := by decide

/-- A committed store at the head of the load-store queue, with the invariant: the premises of `CommittedStoreNotLost`,
`InvariantKept` and `NoStepFaults`. -/
def committedStore : State := withQueued (queued (.store .sw) 0xFFC 7 true)

theorem test_witness_CommittedStoreNotLost :
    Inv committedStore ∧ StoreLinked committedStore ∧ committedStore.stopped = false ∧ TimeFor 1 committedStore ∧
    committedStore.lsq.front? = some (queued (.store .sw) 0xFFC 7 true) ∧
    ((0xFFC : Word) + 0).toNat + StoreOp.sw.width ≤ committedStore.memSize ∧
    (next? (step committedStore)).isSome ∧ (next? (exec .halt committedStore)).isSome := by
  refine ⟨⟨⟨by decide, by decide, by decide, fun _ => rfl⟩, fun _ => ⟨by decide, by decide, by decide, by decide,
    by decide, by decide, by decide, rfl, rfl, rfl, fun _ _ h => (by cases h), fun _ _ h => (by cases h), by decide⟩⟩, ?_, rfl,
    fun n h => (by cases h), rfl, by decide, by decide, by decide⟩
  intro t e op h
  rw [Fifo.live_of_empty (show committedStore.rob.count = 0 from rfl)] at h
  cases h

/-- A store in flight, with its linked entry: `StoreLinked` is met by a state with a store in the reorder buffer. -/
def storeInFlight : State :=
  { withReady { readyEntry (.mem (.store .sw)) 0 0 0 with ready := false } with
    lsq := { slots := [queued (.store .sw) 0x100 7 false], head := 0, count := 1 } }

theorem test_witness_NoStepFaults : StoreLinked storeInFlight ∧ (next? (step storeInFlight)).isSome := by
  refine ⟨?_, by decide⟩
  intro t e op hl hs ho
  refine ⟨0, queued (.store .sw) 0x100 7 false, by decide, rfl, ?_⟩
  have hc : storeInFlight.rob.live t = decide ((t + 2 - 0) % 2 < 1) := rfl
  rw [hc] at hl
  have ht : t % 2 = 0 := by have := of_decide_eq_true hl; omega
  have h2 : t < 2 := (List.getElem?_eq_some_iff.mp hs).1
  obtain rfl : t = 0 := by omega
  rfl

/-- A station with tag 1 that waits for tag 0. -/
def linkedStation : RsEntry := { station (.compute .add) 0 1 0 4 with o1 := .tag 0, dest := 1 }

/-- A store with tag 2 that has reported. -/
def linkedStore : LsqEntry := { queued (.store .sw) 0x100 7 false with dest := 2, reported := true }

/-- Three instructions in flight: `ADD x5` in slot 0, its result on `cdb`; `ADD x6` in slot 1, in a station, waiting for
slot 0, its lock staged; a store in slot 2, its report on `rob_sig`. Register 5 is renamed to slot 0. -/
def linked : State :=
  { (State.reset.writeRst 5 { busy := true, tag := 0 }) with
    rob := ⟨[{ RobEntry.reset with op := .rs (.compute .add), rd := 5 },
      { RobEntry.reset with op := .rs (.compute .add), rd := 6 }, { RobEntry.reset with op := .mem (.store .sw) }], 0, 3⟩
    rs := [linkedStation]
    lsq := { slots := [linkedStore], head := 0, count := 1 }
    cdb := [(0, 7)]
    robSig := [(2, 0)]
    lockReq := some (6, 1) }

theorem test_linked_slot {t : Tag} {p : RobEntry → Prop} (h : linked.HasSlot t p) : t = 0 ∨ t = 1 ∨ t = 2 := by
  obtain ⟨_, e, h, _⟩ := h
  have h3 : ∀ n : Nat, n < 3 → n = 0 ∨ n = 1 ∨ n = 2 := by omega
  exact h3 t (List.getElem?_eq_some_iff.mp h).1
theorem test_linked_queued {i : Nat} {q : LsqEntry} (h : linked.HasQueued i q) : i = 0 ∧ q = linkedStore := by
  have : i < 1 := (List.getElem?_eq_some_iff.mp h.2).1
  obtain rfl : i = 0 := by omega
  exact ⟨rfl, (Option.some.inj (h.2 : some linkedStore = some q)).symm⟩
theorem test_linked_station {e : RsEntry} (h : e ∈ linked.rs) : e = linkedStation := List.mem_singleton.mp h
theorem test_linked_has {t : Tag} {p : RobEntry → Prop} (e : RobEntry) (ht : linked.rob.live t = true)
    (he : linked.rob.slots[t]? = some e) (hp : p e) : linked.HasSlot t p := ⟨ht, e, he, hp⟩

theorem test_linked_inv : Inv linked := by
  refine ⟨⟨by decide, by decide, by decide, fun _ => rfl⟩, fun _ => ⟨by decide, by decide, by decide, by decide,
    by decide, by decide, by decide, rfl, rfl, rfl, fun r t h => ?_, fun _ _ h => (by cases h), by decide⟩⟩
  obtain ⟨rfl, _⟩ := Prod.mk.inj (Option.some.inj (h : some (6, 1) = some (r, t)))
  decide

/-- The premises of `TagsStayLinked`: three instructions in flight and a next state without fault. -/
theorem test_witness_TagsStayLinked :
    TagsLinked linked ∧ linked.fault = .none ∧ (next? (step linked)).map State.fault = some .none ∧
    (next? (exec .halt linked)).map State.fault = some .none := by
  refine ⟨⟨?_, ?_, ?_, ?_, ?_, ?_, ?_, ?_, ?_, ?_, ?_, by decide, by decide⟩, rfl, by decide, by decide⟩
  · intro e he _
    obtain rfl := test_linked_station he
    exact ⟨test_linked_has _ (by decide) rfl ⟨rfl, rfl⟩, by unfold State.OnBus; decide⟩
  · intro i q h _; obtain ⟨_, rfl⟩ := test_linked_queued h; exact test_linked_has _ (by decide) rfl rfl
  · intro i q h _ h2; obtain ⟨_, rfl⟩ := test_linked_queued h; cases h2
  · intro i j d e hd he _ _ _
    have h1 : i < 1 := (List.getElem?_eq_some_iff.mp hd).1
    have h2 : j < 1 := (List.getElem?_eq_some_iff.mp he).1
    omega
  · intro i j p q hp hq _ _ _; rw [(test_linked_queued hp).1, (test_linked_queued hq).1]
  · intro t h
    rcases test_linked_slot h with rfl | rfl | rfl
    · exact Or.inl (by unfold State.OnBus; decide)
    · exact Or.inr (Or.inl ⟨linkedStation, List.mem_singleton.mpr rfl, rfl, rfl⟩)
    · exact Or.inl (by unfold State.OnBus; decide)
  · intro i q h _
    obtain ⟨rfl, rfl⟩ := test_linked_queued h
    exact ⟨rfl, ⟨.sw, rfl⟩, 0x100, 7, rfl, rfl⟩
  · intro i q h _ _; obtain ⟨_, rfl⟩ := test_linked_queued h; exact Or.inr (by decide)
  · intro t op h
    refine ⟨0, linkedStore, ⟨by decide, rfl⟩, rfl, rfl, ?_⟩
    rcases test_linked_slot h with rfl | rfl | rfl
    · obtain ⟨_, e, h1, h2, _⟩ := h; obtain rfl := Option.some.inj h1; cases h2
    · obtain ⟨_, e, h1, h2, _⟩ := h; obtain rfl := Option.some.inj h1; cases h2
    · rfl
  · intro t h
    obtain rfl := List.mem_singleton.mp (h : t ∈ [0])
    exact test_linked_has _ (by decide) rfl ⟨rfl, rfl⟩
  · intro t h
    obtain rfl := List.mem_singleton.mp (h : t ∈ [2])
    exact test_linked_has _ (by decide) rfl ⟨rfl, Or.inr ⟨.sw, rfl⟩, fun h => (by cases h)⟩
/-- The further premise of `NoBroadcastMissed`, in the same state. -/
theorem test_witness_NoBroadcastMissed : OperandsLinked linked := by
  refine ⟨fun r h => ?_, fun r t h => ?_, fun e he _ t h => ?_, fun i q hq t h => ?_⟩
  · have h5 : ∀ r : RegIdx, (linked.readRst r).busy = true → r = 5 ∧ (linked.readRst r).tag = 0 := by decide
    obtain ⟨rfl, h0⟩ := h5 r h
    rw [h0]
    exact Or.inl (test_linked_has _ (by decide) rfl ⟨rfl, rfl⟩)
  · obtain ⟨rfl, rfl⟩ := Prod.mk.inj (Option.some.inj (h : some (6, 1) = some (r, t)))
    exact ⟨test_linked_has _ (by decide) rfl ⟨rfl, rfl, rfl⟩, by unfold State.OnBus; decide⟩
  · obtain rfl := test_linked_station he
    rcases h with h | h
    · obtain rfl := Operand.tag.inj (h : Operand.tag 0 = .tag t)
      exact test_linked_has _ (by decide) rfl ⟨rfl, rfl⟩
    · cases h
  · obtain ⟨_, rfl⟩ := test_linked_queued hq
    rcases h with h | h <;> cases h
theorem test_witness_ResetHasInvariant :
    Config.standard.Valid ∧ Memory.wf bytes ∧ (∀ b ∈ bytes, b.1 < Config.standard.memSize) ∧
    Config.Valid { nRob := 1, nRs := 1, nLsq := 1, nFq := 1, memSize := 4, maxCycles := none } := by decide
/-- R243's example loads; a byte past the end of memory does not. -/
theorem test_witness_LoadedImageStartsInvariant :
    (bootImage Config.standard "@00000000 13 05 50 00 13 05 F0 0F").isSome ∧
    loadImage 4 "@3 AA" = some [(3, 0xAA)] ∧ loadImage 4 "@4 AA" = none ∧ loadImage 4 "@0 xy" = none := by decide

end Sys2Proof.Tests
end

/-! The parameters of R6 through a clock cycle: every phase keeps them, so every cycle does. -/

namespace Sys2Proof.Machine

/-- The parameters a state carries (notes/assumptions/3.md), the ones `State.assertRst` restarts the core with. -/
def State.config (s : State) : Config :=
  { nRob := s.rob.capacity, nRs := s.rs.length, nLsq := s.lsq.capacity, nFq := s.fqCap, memSize := s.memSize,
    maxCycles := s.maxCycles }

theorem State.config_eq_iff {s t : State} :
    t.config = s.config ↔
      t.fqCap = s.fqCap ∧ t.memSize = s.memSize ∧ t.maxCycles = s.maxCycles ∧ t.rob.capacity = s.rob.capacity ∧
      t.rs.length = s.rs.length ∧ t.lsq.capacity = s.lsq.capacity := by
  simp only [State.config, Config.mk.injEq]
  tauto

/-! ### The stations keep their number -/

@[simp] theorem launchFirst_length (l : List RsEntry) : (launchFirst l).2.length = l.length := by
  induction l with
  | nil => rfl
  | cons e l ih =>
    rw [launchFirst]
    split
    · rfl
    · simp [ih]

@[simp] theorem fillFirst_length (entry : RsEntry) (l : List RsEntry) : (fillFirst entry l).length = l.length := by
  induction l with
  | nil => rfl
  | cons e l ih =>
    rw [fillFirst]
    split
    · simp [ih]
    · rfl

/-! ### The phases before the fetch -/

@[simp] theorem State.raise_config (s : State) (c : Condition) : (s.raise c).config = s.config := by
  simp [State.config]

@[simp] theorem State.phaseA_config (s : State) : s.phaseA.config = s.config := by
  have hpop : s.phaseA.rob.capacity = s.robCapture.rob.capacity := by
    unfold State.phaseA State.robPop
    split
    · split <;> rfl
    · rfl
  obtain ⟨_, _, hcapture⟩ := s.robCapture_shape
  simp [State.config, hpop, hcapture]

/-- Up to phase (b)'s attempt: the cycle counted, phase (a), the load-store queue's captures. -/
@[simp] theorem State.atAttempt_config (s : State) : s.atAttempt.config = s.config := by
  have hcapture (u : State) : ({ u.lsqCapture with lsqOut := none } : State).config = u.config := by
    simp [State.config, State.lsqCapture]
  exact (hcapture _).trans (State.phaseA_config _)

theorem State.lsqAttempt_config {s b : State} (h : s.lsqAttempt = .running b) : b.config = s.config := by
  rcases s.lsqAttempt_writes with g | ⟨q, op, base, data, _, _, _, _, _, g⟩ |
    ⟨q, op, base, data, raw, _, _, _, _, _, g⟩ | ⟨q, op, base, data, _, _, _, _, _, _, g⟩ |
    ⟨q, op, base, data, m, _, _, _, _, _, _, g⟩ | ⟨q, op, base, data, _, _, _, _, _, _, g⟩ <;> rw [g] at h
  · obtain rfl := Flow.running.inj h
    rfl
  · cases h
  · obtain rfl := Flow.running.inj h
    rfl
  · cases h
  · obtain rfl := Flow.running.inj h
    rfl
  · obtain rfl := Flow.running.inj h
    simp [State.config, State.lsqReport]

@[simp] theorem State.phaseC_config (s : State) : s.phaseC.config = s.config := by
  simp [State.config, State.phaseC, State.rsCapture, State.rsLaunch]

@[simp] theorem State.phaseD_config (s : State) : s.phaseD.config = s.config := by
  simp [State.config]

/-- A cycle that ends before its fetch keeps the parameters. -/
theorem State.EndsEarly.config {s t : State} (h : s.EndsEarly t) : t.config = s.config := by
  rcases h with ⟨_, rfl⟩ | ⟨_, _, rfl⟩ | ⟨_, _, ea, _, rfl⟩
  · rfl
  · exact s.raise_config _
  · rw [State.raise_config, State.atAttempt_config]

/-- A cycle that reaches its fetch has the parameters it began with. -/
theorem State.atFetch_config {s b : State} (h : s.atAttempt.lsqAttempt = .running b) :
    b.phaseC.phaseD.config = s.config := by
  rw [State.phaseD_config, State.phaseC_config, State.lsqAttempt_config h, State.atAttempt_config]

/-! ### The fetch and the phases after it -/

@[simp] theorem State.enqueue_config (s : State) (r : Record) : (s.enqueue r).config = s.config := by
  simp [State.config]

@[simp] theorem State.dispatch_config (s : State) (r : Record) (rest : List Record) :
    (s.dispatch r rest).config = s.config := by
  unfold State.dispatch
  cases r.op with
  | rs op => simp [State.config]
  | mem op => simp [State.config]
  | halt => simp [State.config]

@[simp] theorem State.phaseH_config (s : State) : s.phaseH.config = s.config := by
  rcases s.phaseH_cases with h | ⟨r, rest, _, _, _, _, h⟩
  · rw [h]
  · rw [h, State.dispatch_config]

@[simp] theorem State.retireRegister_config (s : State) (t : Tag) (rd : RegIdx) (v : Word) :
    (s.retireRegister t rd v).config = s.config := by
  unfold State.retireRegister
  split <;> rfl

/-- A rollback empties the structures and keeps their sizes (R131). -/
@[simp] theorem State.rollback_config (s : State) (target : Word) : (s.rollback target).config = s.config := by
  simp [State.config, State.rollback]

@[simp] theorem State.commitRedirect_config (s : State) (e : RobEntry) : (s.commitRedirect e).config = s.config := by
  unfold State.commitRedirect
  split
  · rfl
  · exact s.rollback_config _

theorem State.markStore_config {s t : State} {g : Tag} (h : s.markStore g = .next t) : t.config = s.config := by
  unfold State.markStore at h
  split at h
  · obtain rfl := Host.Outcome.next.inj h
    simp [State.config]
  · cases h

theorem State.commitEntry_config {s t : State} {g : Tag} {e : RobEntry} (h : s.commitEntry g e = .next t) :
    t.config = s.config := by
  unfold State.commitEntry at h
  cases ho : e.op with
  | halt =>
    simp only [ho, Host.Outcome.next.injEq] at h
    subst h
    rfl
  | rs op =>
    cases op <;>
      · simp only [ho, Host.Outcome.next.injEq] at h
        subst h
        simp
  | mem op =>
    cases op with
    | load op =>
      simp only [ho, Host.Outcome.next.injEq] at h
      subst h
      simp
    | store op =>
      simp only [ho] at h
      exact State.markStore_config h

theorem State.phaseI_config {s t : State} (h : s.phaseI = .next t) : t.config = s.config := by
  rcases s.phaseI_cases with ⟨_, hi⟩ | ⟨g, e, _, ⟨u, hu, hi⟩ | ⟨_, _, _, hi⟩⟩ <;> rw [hi] at h
  · obtain rfl := Host.Outcome.next.inj h
    rfl
  · obtain rfl := Host.Outcome.next.inj h
    calc u.forceZero.config = u.config := rfl
      _ = ({ s with commitLatch := none } : State).config := State.commitEntry_config hu
      _ = s.config := rfl
  · cases h

theorem State.afterFetch_config {s t : State} (h : s.afterFetch = .next t) : t.config = s.config :=
  calc t.config = s.phaseF.phaseG.phaseH.config := State.phaseI_config h
    _ = s.phaseF.phaseG.config := State.phaseH_config _
    _ = s.config := rfl

/-! ### The cycle -/

theorem State.takeIn_config {s t : State} {r : Record} (h : s.takeIn r = .next t) : t.config = s.config := by
  rcases s.takeIn_cases r with ⟨u, hu, ht⟩ | ⟨_, _, b, hb, ht⟩ <;> rw [ht] at h
  · obtain rfl := Host.Outcome.next.inj h
    exact hu.config
  · rw [State.afterFetch_config h, State.enqueue_config, State.atFetch_config hb]

theorem exec_config {i : Instr} {s t : State} (h : exec i s = .next t) : t.config = s.config :=
  State.takeIn_config (exec_eq_takeIn i s ▸ h)

theorem step_config {s t : State} (h : step s = .next t) : t.config = s.config := by
  rcases step_cases s with ⟨u, hu, hs⟩ | ⟨_, _, b, hb, hs | hs | ⟨i, hs⟩⟩ <;> rw [hs] at h
  · obtain rfl := Host.Outcome.next.inj h
    exact hu.config
  · obtain rfl := Host.Outcome.next.inj h
    rw [State.raise_config, State.atFetch_config hb]
  · rw [State.afterFetch_config h, State.atFetch_config hb]
  · rw [State.afterFetch_config h, State.enqueue_config, State.atFetch_config hb]

/-- Settles O49: every phase of a cycle keeps the parameters, so a step and an `exec` do. -/
theorem parametersNeverChange : Obligations.ParametersNeverChange := by
  unfold Obligations.ParametersNeverChange
  intro i s t h
  exact State.config_eq_iff.mp (h.elim exec_config step_config)

end Sys2Proof.Machine

/-! The reset state (R38, R240): its values, and every invariant and link of a core with nothing in flight. -/

namespace Sys2Proof.Machine

/-! ### The values after reset -/

@[simp] theorem State.resetWith_readReg (c : Config) (image : Memory) (r : RegIdx) :
    (State.resetWith c image).readReg r = 0 := by
  simp [State.readReg, State.resetWith]

@[simp] theorem State.resetWith_readRst (c : Config) (image : Memory) (r : RegIdx) :
    (State.resetWith c image).readRst r = { busy := false, tag := 0 } := by
  simp [State.readRst, State.resetWith]

/-- No slot of the reorder buffer is ready (R19). -/
theorem State.resetWith_robReady {c : Config} {image : Memory} :
    ∀ e ∈ (State.resetWith c image).rob.slots, e.ready = false := by
  intro e he
  rw [List.eq_of_mem_replicate he]
  rfl

/-- No station is busy (R23). -/
theorem State.resetWith_rsFree {c : Config} {image : Memory} :
    ∀ e ∈ (State.resetWith c image).rs, e.busy = false := by
  intro e he
  rw [List.eq_of_mem_replicate he]
  rfl

/-- The core has the parameters it was reset with (R6). -/
@[simp] theorem State.resetWith_config (c : Config) (image : Memory) : (State.resetWith c image).config = c := by
  simp [State.config, State.resetWith, Fifo.capacity]

/-- Settles O58: `rst` resets with the parameters the core already has. -/
theorem resetValues : Obligations.ResetValues := by
  unfold Obligations.ResetValues
  intro s image
  have hconfig : (s.assertRst image).config = s.config := State.resetWith_config _ image
  obtain ⟨hfqCap, hmemSize, hmaxCycles, hrob, hrs, hlsq⟩ := State.config_eq_iff.mp hconfig
  exact ⟨_, rfl, State.resetWith_readReg _ _, rfl, rfl, State.resetWith_readRst _ _, rfl, rfl,
    State.resetWith_robReady, State.resetWith_rsFree, rfl, rfl, rfl, rfl, rfl, rfl, rfl, rfl, rfl, rfl, rfl, rfl, rfl,
    rfl, rfl, hrob, hrs, hlsq, hfqCap, hmemSize, hmaxCycles⟩

/-! ### A core with nothing in flight has the shape and every link -/

theorem Quiet.not_hasSlot {s : State} (h : Quiet s) (t : Tag) (p : RobEntry → Prop) : ¬ s.HasSlot t p := by
  rintro ⟨hlive, _⟩
  rw [Fifo.live_of_empty h.robEmpty] at hlive
  cases hlive

theorem Quiet.not_hasQueued {s : State} (h : Quiet s) (i : Nat) (q : LsqEntry) : ¬ s.HasQueued i q := by
  rintro ⟨hlive, _⟩
  rw [Fifo.live_of_empty h.lsqEmpty] at hlive
  cases hlive

theorem Quiet.shape {s : State} (h : Quiet s) : Shape s where
  robHead := h.robHead
  robCount := by simp [h.robEmpty]
  lsqHead := h.lsqHead
  lsqCount := by simp [h.lsqEmpty]
  fq := by simp [h.fqEmpty]
  cdb := by simp [h.cdb]
  robSig := by simp [h.robSig]
  commitLatch := h.commitLatch
  lsqOut := h.lsqOut
  execLatch := h.execLatch
  lock := by simp [h.lockReq]
  unlock := by simp [h.unlockReq]
  rstZero := h.rstFree 0

theorem Quiet.storeLinked {s : State} (h : Quiet s) : StoreLinked s :=
  fun t e _ hlive hslot _ => absurd ⟨hlive, e, hslot, trivial⟩ (h.not_hasSlot t fun _ => True)

theorem Quiet.tagsLinked {s : State} (h : Quiet s) : TagsLinked s :=
  tagsLinked_of_empty h.robEmpty h.lsqEmpty h.rsFree h.cdb h.robSig

theorem Quiet.operandsLinked {s : State} (h : Quiet s) : OperandsLinked s where
  renamed r hr := by simp [h.rstFree r] at hr
  locked r t hl := by simp [h.lockReq] at hl
  stations e he hb := by simp [h.rsFree e he] at hb
  queued i q hq := absurd hq (h.not_hasQueued i q)

/-! ### Reset -/

/-- Reset leaves nothing in flight; that every capacity is at least 1 (R6) gives each structure room. -/
theorem State.resetWith_quiet {c : Config} (hc : c.Valid) (image : Memory) : Quiet (State.resetWith c image) := by
  obtain ⟨hrob, hrs, hlsq, hfq, _, _⟩ := hc
  exact {
    running := rfl
    zero := State.resetWith_readReg c image 0
    robEmpty := rfl
    robHead := by simp [State.resetWith, Fifo.capacity]; omega
    rsFree := State.resetWith_rsFree
    rsSome := List.ne_nil_of_length_pos (by simp [State.resetWith]; omega)
    lsqEmpty := rfl
    lsqHead := by simp [State.resetWith, Fifo.capacity]; omega
    fqEmpty := rfl
    fqCap := hfq
    cdb := rfl
    robSig := rfl
    lockReq := rfl
    unlockReq := rfl
    commitLatch := rfl
    lsqOut := rfl
    execLatch := rfl
    rstFree := fun r => by rw [State.resetWith_readRst] }

/-- A canonical image within the memory is all that `Always` asks of reset. -/
theorem State.resetWith_always {c : Config} {image : Memory} (hwf : image.wf) (hrange : ∀ b ∈ image, b.1 < c.memSize) :
    Always (State.resetWith c image) where
  zero := State.resetWith_readReg c image 0
  memWf := hwf
  memRange := hrange
  haltedClean := fun _ => rfl

/-- Reset with valid parameters and a canonical image has the invariant and every link. -/
theorem State.resetWith_invariants {c : Config} {image : Memory} (hc : c.Valid) (hwf : image.wf)
    (hrange : ∀ b ∈ image, b.1 < c.memSize) :
    Inv (State.resetWith c image) ∧ StoreLinked (State.resetWith c image) ∧ TagsLinked (State.resetWith c image) ∧
      OperandsLinked (State.resetWith c image) ∧ Quiet (State.resetWith c image) := by
  have hq := State.resetWith_quiet hc image
  exact ⟨⟨State.resetWith_always hwf hrange, fun _ => hq.shape⟩, hq.storeLinked, hq.tagsLinked, hq.operandsLinked, hq⟩

/-- Settles O57: `State.reset` is the reset with the standard parameters and the empty image. -/
theorem resetHasInvariant : Obligations.ResetHasInvariant := by
  unfold Obligations.ResetHasInvariant
  have hstandard : Config.standard.Valid := by decide
  exact ⟨State.resetWith_invariants hstandard Memory.wf_nil (by simp),
    fun c image hc hwf hrange => State.resetWith_invariants hc hwf hrange⟩

end Sys2Proof.Machine

/-! The invariant `Inv` through a clock cycle: `MidCycle` is what of it holds between two phases, with one lemma per phase
(spec/10_state.md R11 to R28, spec/40_cycle_sequencer.md R80, R84). -/

namespace Sys2Proof.Machine

/-! ### Queues keep their bounds -/

section
variable {α : Type} {f : Fifo α}

theorem Fifo.InBounds.modify (h : f.InBounds) (i : Nat) (g : α → α) : (f.modify i g).InBounds := by
  simpa [Fifo.InBounds] using h

theorem Fifo.InBounds.mapLive (h : f.InBounds) (g : α → α) : (f.mapLive g).InBounds := by
  simpa [Fifo.InBounds] using h

/-- A cleared queue starts again at slot 0, which a queue in bounds has (R131). -/
theorem Fifo.InBounds.cleared (h : f.InBounds) (g : α → α) : (f.cleared g).InBounds := by
  obtain ⟨hhead, _⟩ := h
  exact ⟨by rw [Fifo.cleared_head, Fifo.cleared_capacity]; omega, Nat.zero_le _⟩

end

/-! ### A cycle in progress -/

/-- The invariant of a running core between two phases: `Inv` but for the buses, which phases (f) and (g) set, and the
latches, which live inside a cycle. -/
structure MidCycle (s : State) : Prop where
  faultFree : s.fault = .none
  zero : s.readReg 0 = 0
  memWf : s.mem.wf
  memRange : ∀ c ∈ s.mem, c.1 < s.memSize
  rob : s.rob.InBounds
  lsq : s.lsq.InBounds
  fq : s.fq.length ≤ s.fqCap
  lock : ∀ r t, s.lockReq = some (r, t) → r ≠ 0
  unlock : ∀ r t, s.unlockReq = some (r, t) → r ≠ 0
  rstZero : (s.readRst 0).busy = false

/-- A core that has not stopped has neither halted nor faulted (R29). -/
theorem State.stopped_eq_false {s : State} : s.stopped = false ↔ s.halted = false ∧ s.fault = .none := by
  simp [State.stopped]

theorem Inv.midCycle {s : State} (h : Inv s) (hf : s.fault = .none) : MidCycle s := by
  obtain ⟨ha, hshape⟩ := h
  have hs := hshape hf
  exact { ha, hs with faultFree := hf, rob := ⟨hs.robHead, hs.robCount⟩, lsq := ⟨hs.lsqHead, hs.lsqCount⟩ }

theorem MidCycle.always {s : State} (h : MidCycle s) : Always s :=
  { h with haltedClean := fun _ => h.faultFree }

/-- Raising in a core that has not halted keeps the invariant: the shape is not claimed of what it leaves (R223). -/
theorem Always.raise {s : State} (h : Always s) (hh : s.halted = false) (c : Condition) : Inv (s.raise c) := by
  have hhalted : (s.raise c).halted ≠ true := by simp [hh]
  have hfault : (s.raise c).fault ≠ .none := by cases c <;> simp [State.raise]
  exact ⟨⟨by rw [State.readReg_congr (s.raise_x c)]; exact h.zero, by rw [State.raise_mem]; exact h.memWf,
    by simpa using h.memRange, fun hx => absurd hx hhalted⟩, fun hx => absurd hx hfault⟩

/-! ### The phases before the fetch -/

theorem MidCycle.phaseA {s : State} (h : MidCycle s) : MidCycle s.phaseA := by
  have hrob := State.phaseA_inBounds h.rob
  obtain ⟨rob, latch, hA⟩ := s.phaseA_writes
  rw [hA] at hrob ⊢
  exact { h with rob := hrob }

theorem MidCycle.atAttempt {s : State} (h : MidCycle s) : MidCycle s.atAttempt := by
  have hcount : MidCycle { s with cycles := s.cycles + 1 } := { h with }
  exact { hcount.phaseA with lsq := hcount.phaseA.lsq.mapLive _ }

/-- A store in range keeps the memory canonical and within its size (R43). -/
theorem memWrite_keeps {m m' : Memory} {memSize n : Nat} {addr v : Word} (hwf : m.wf)
    (hrange : ∀ c ∈ m, c.1 < memSize) (h : memWrite m memSize addr n v = some m') :
    m'.wf ∧ ∀ c ∈ m', c.1 < memSize := by
  obtain ⟨hin, rfl⟩ := memWrite_eq_some.mp h
  refine ⟨Memory.writeLE_wf hwf _ _ _, fun c hc => ?_⟩
  rcases Memory.mem_writeLE hc with hold | ⟨_, hnew⟩
  · exact hrange c hold
  · omega

/-- Phase (b)'s attempt, where it does not raise: a load or store at the head pops it, a report marks it (R144 to R148). -/
theorem MidCycle.lsqAttempt {s b : State} (h : MidCycle s) (hb : s.lsqAttempt = .running b) :
    MidCycle b ∧ b.halted = s.halted := by
  rcases s.lsqAttempt_writes with g | ⟨q, op, base, data, _, _, _, _, _, g⟩ |
    ⟨q, op, base, data, raw, _, _, _, _, _, g⟩ | ⟨q, op, base, data, _, _, _, _, _, _, g⟩ |
    ⟨q, op, base, data, m, _, _, _, _, _, hw, g⟩ | ⟨q, op, base, data, _, _, _, _, _, _, g⟩ <;> rw [g] at hb
  · obtain rfl := Flow.running.inj hb
    exact ⟨h, rfl⟩
  · cases hb
  · obtain rfl := Flow.running.inj hb
    exact ⟨{ h with lsq := h.lsq.pop }, rfl⟩
  · cases hb
  · obtain rfl := Flow.running.inj hb
    obtain ⟨hwf, hrange⟩ := memWrite_keeps h.memWf h.memRange hw
    exact ⟨{ h with memWf := hwf, memRange := hrange, lsq := h.lsq.pop }, rfl⟩
  · obtain rfl := Flow.running.inj hb
    exact ⟨{ h with lsq := h.lsq.modify _ _ }, rfl⟩

theorem MidCycle.phaseC {s : State} (h : MidCycle s) : MidCycle s.phaseC := { h with }

/-- An unlock makes no register busy (R109). -/
theorem State.applyUnlock_readRst_free {s : State} {r : RegIdx} (h : (s.readRst r).busy = false) :
    (s.applyUnlock.readRst r).busy = false := by
  unfold State.applyUnlock
  split
  · rename_i q t _
    by_contra hbusy
    obtain ⟨hsame, _⟩ := s.readRst_unlock q r t (by simpa using hbusy)
    rw [hsame] at hbusy
    exact hbusy h
  · exact h

/-- A lock makes busy only the register it names (R109). -/
theorem State.applyLock_readRst_free {s : State} {r : RegIdx} (hlock : ∀ q t, s.lockReq = some (q, t) → q ≠ r)
    (h : (s.readRst r).busy = false) : (s.applyLock.readRst r).busy = false := by
  unfold State.applyLock
  split
  · rename_i q t hq
    rw [State.lock, State.readRst_writeRst, if_neg (hlock q t hq).symm]
    exact h
  · exact h

/-- Phase (d) leaves register 0 free, since no staged lock names it (R110). -/
theorem MidCycle.phaseD {s : State} (h : MidCycle s) : MidCycle s.phaseD := by
  have hlockReq : s.applyUnlock.lockReq = s.lockReq := by
    unfold State.applyUnlock State.unlock
    split
    · split <;> rfl
    · rfl
  have hfree : (s.phaseD.readRst 0).busy = false :=
    State.applyLock_readRst_free (by rw [hlockReq]; exact h.lock) (State.applyUnlock_readRst_free h.rstZero)
  obtain ⟨rst, hD⟩ := s.phaseD_writes
  rw [hD] at hfree ⊢
  exact { h with rstZero := hfree }

/-! ### The phases from the fetch to dispatch -/

/-- A record is taken in only where the fetch queue has room (R100). -/
theorem MidCycle.enqueue {s : State} (h : MidCycle s) (r : Record) : MidCycle (s.enqueue r) := by
  unfold State.enqueue
  split
  · rename_i hroom
    exact { h with fq := by simpa using hroom }
  · exact h

/-- Phases (f) and (g) clear the staged requests and fill the buses (R83, R151). -/
theorem MidCycle.arbiter {s : State} (h : MidCycle s) : MidCycle s.phaseF.phaseG :=
  { h with lock := by simp, unlock := by simp }

/-- A dispatched record's lock names a register other than 0 (R110). -/
theorem Record.lock_ne_zero {rec : Record} {t u : Tag} {r : RegIdx} (h : rec.lock t = some (r, u)) : r ≠ 0 := by
  unfold Record.lock at h
  split at h
  · rename_i hrd
    obtain ⟨rfl, _⟩ := Prod.mk.inj (Option.some.inj h)
    exact hrd.2
  · cases h

/-- A dispatch goes where there is room: in the reorder buffer and, for a memory operation, in the load-store queue
(R103). -/
theorem State.dispatch_inBounds {s : State} {r : Record} (rest : List Record) (hrob : s.rob.InBounds)
    (hlsq : s.lsq.InBounds) (hroom : s.rob.count < s.rob.capacity)
    (hmem : ∀ op, r.op = .mem op → s.lsq.count < s.lsq.capacity) :
    (s.dispatch r rest).rob.InBounds ∧ (s.dispatch r rest).lsq.InBounds := by
  obtain ⟨hrob', _, hwhere⟩ := s.dispatch_cases r rest
  refine ⟨hrob' ▸ hrob.push _ (by simpa [Fifo.hasRoom] using hroom), ?_⟩
  rcases hwhere with ⟨_, _, _, _, hlsq', _⟩ | ⟨op, _, _, hop, _, hlsq', _⟩ | ⟨_, _, hlsq'⟩ <;> rw [hlsq']
  · exact hlsq
  · exact hlsq.push _ (by simpa [Fifo.hasRoom] using hmem op hop)
  · exact hlsq

theorem MidCycle.phaseH {s : State} (h : MidCycle s) : MidCycle s.phaseH := by
  rcases s.phaseH_cases with hH | ⟨r, rest, hfq, hroom, _, hmem, hH⟩ <;> rw [hH]
  · exact h
  obtain ⟨hrob, hlsq⟩ := State.dispatch_inBounds rest h.rob h.lsq hroom hmem
  have hrest : rest.length ≤ s.fqCap := by
    have := h.fq
    rw [hfq, List.length_cons] at this
    omega
  have hlock : ∀ q t, (r.lock s.rob.tail).or s.lockReq = some (q, t) → q ≠ 0 := by
    intro q t hq
    rcases Option.or_eq_some_iff.mp hq with hq | ⟨_, hq⟩
    · exact Record.lock_ne_zero hq
    · exact h.lock q t hq
  obtain ⟨rs, lsq, hD⟩ := s.dispatch_writes r rest
  rw [hD] at hrob hlsq ⊢
  exact { h with rob := hrob, lsq := hlsq, fq := hrest, lock := hlock }

/-! ### The end of the cycle -/

/-- The buses and the latches as they stand between two cycles: at most two results on each bus, nothing in the latches
that live inside a cycle (R28). -/
structure Settled (s : State) : Prop where
  cdb : s.cdb.length ≤ 2
  robSig : s.robSig.length ≤ 2
  commitLatch : s.commitLatch = none
  lsqOut : s.lsqOut = none
  execLatch : s.execLatch = none

theorem MidCycle.inv {s : State} (h : MidCycle s) (hs : Settled s) : Inv s := by
  obtain ⟨hrobHead, hrobCount⟩ := h.rob
  obtain ⟨hlsqHead, hlsqCount⟩ := h.lsq
  have hshape : Shape s :=
    { h, hs with robHead := hrobHead, robCount := hrobCount, lsqHead := hlsqHead, lsqCount := hlsqCount }
  exact ⟨h.always, fun _ => hshape⟩

/-- A latch whose content drives a bus with at most one result adds at most one. -/
theorem length_flatMap_latch_le {α β : Type} {f : α → List β} (hf : ∀ a, (f a).length ≤ 1) (latch : Option α) :
    (latch.toList.flatMap f).length ≤ 1 := by
  cases latch with
  | none => simp
  | some a => simpa using hf a

/-- Phase (g) has two producers, Execute and the load-store queue, each with at most one result per bus (R84, R151). -/
theorem State.arbiter_length (s : State) : s.phaseF.phaseG.cdb.length ≤ 2 ∧ s.phaseF.phaseG.robSig.length ≤ 2 := by
  have hvalue (l : Launched) : l.broadcasts.length ≤ 1 := by
    unfold Launched.broadcasts
    cases l.value <;> simp
  have hredirect (l : Launched) : l.signals.length ≤ 1 := by
    unfold Launched.signals
    cases l.redirect <;> simp
  have hloaded (o : LsqOut) : o.broadcasts.length ≤ 1 := by cases o <;> simp [LsqOut.broadcasts]
  have hreport (o : LsqOut) : o.signals.length ≤ 1 := by cases o <;> simp [LsqOut.signals]
  have := length_flatMap_latch_le hvalue s.execLatch
  have := length_flatMap_latch_le hredirect s.execLatch
  have := length_flatMap_latch_le hloaded s.lsqOut
  have := length_flatMap_latch_le hreport s.lsqOut
  simp only [State.phaseG, State.phaseF_cdb, State.phaseF_robSig, State.phaseF_execLatch, State.phaseF_lsqOut,
    List.nil_append, List.length_append]
  omega

/-- After phase (h) only the commit latch is left to empty. -/
theorem State.settled_of_phaseH (s : State) : Settled { s.phaseF.phaseG.phaseH with commitLatch := none } := by
  obtain ⟨hcdb, hrobSig⟩ := s.arbiter_length
  exact ⟨by simpa using hcdb, by simpa using hrobSig, rfl, by simp, by simp⟩

/-- Commit is made of four updates: halt, mark a store, write a register other than 0 and stage its unlock, roll back
(R124 to R131). What all four keep, Commit keeps. -/
theorem State.commitEntry_keeps {P : State → Prop} {s u : State} {g : Tag} {e : RobEntry}
    (halt : ∀ v, P v → P { v with halted := true })
    (mark : ∀ v i, P v → P { v with lsq := v.lsq.modify i fun q => { q with ready := true } })
    (retire : ∀ v rd w, rd ≠ 0 → P v → P { v.writeReg rd w with unlockReq := some (rd, g) })
    (rollback : ∀ v target, P v → P (v.rollback target))
    (hs : P s) (h : s.commitEntry g e = .next u) : P u := by
  have hretire (rd : RegIdx) (w : Word) : P (s.retireRegister g rd w) := by
    unfold State.retireRegister
    split
    · exact hs
    · rename_i hrd
      exact retire s rd w hrd hs
  have hredirect (v : State) (hv : P v) : P (v.commitRedirect e) := by
    unfold State.commitRedirect
    split
    · exact hv
    · exact rollback v _ hv
  have hmark (hm : s.markStore g = .next u) : P u := by
    unfold State.markStore at hm
    split at hm
    · exact Host.Outcome.next.inj hm ▸ mark s _ hs
    · cases hm
  unfold State.commitEntry at h
  split at h
  · exact Host.Outcome.next.inj h ▸ halt s hs
  · exact Host.Outcome.next.inj h ▸ hredirect s hs
  · exact Host.Outcome.next.inj h ▸ hredirect _ (hretire _ _)
  · exact hmark h
  · exact Host.Outcome.next.inj h ▸ hretire _ _
  · exact Host.Outcome.next.inj h ▸ hretire _ _

theorem MidCycle.retire {s : State} (h : MidCycle s) {rd : RegIdx} (hrd : rd ≠ 0) (w : Word) (g : Tag) :
    MidCycle { s.writeReg rd w with unlockReq := some (rd, g) } := by
  have hzero : (s.writeReg rd w).readReg 0 = 0 := by
    rw [State.readReg_writeReg, if_neg hrd.symm]
    exact h.zero
  have hunlock : ∀ r t, some (rd, g) = some (r, t) → r ≠ 0 := by
    intro r t hr
    obtain ⟨rfl, _⟩ := Prod.mk.inj (Option.some.inj hr)
    exact hrd
  exact { h with zero := hzero, unlock := hunlock }

/-- A rollback empties every structure, and the emptied structures are in bounds (R131). -/
theorem MidCycle.rollback {s : State} (h : MidCycle s) (target : Word) : MidCycle (s.rollback target) :=
  { h with
    rob := h.rob.cleared _
    lsq := h.lsq.cleared _
    fq := Nat.zero_le _
    lock := fun _ _ hlock => nomatch hlock
    unlock := fun _ _ hunlock => nomatch hunlock
    rstZero := by simp [State.readRst, State.rollback] }

/-- A rollback empties the buses and the latches (R131). -/
theorem State.settled_of_rollback (s : State) (target : Word) : Settled (s.rollback target) :=
  ⟨Nat.zero_le _, Nat.zero_le _, rfl, rfl, rfl⟩

/-- Phase (i) empties the commit latch (R123) and ends with `x[0] <- 0` (R130). -/
theorem MidCycle.phaseI {s t : State} (h : MidCycle s) (hs : Settled { s with commitLatch := none })
    (ht : s.phaseI = .next t) : Inv t := by
  rcases s.phaseI_cases with ⟨hnone, hI⟩ | ⟨g, e, _, ⟨u, hu, hI⟩ | ⟨_, _, _, hI⟩⟩ <;> rw [hI] at ht
  · obtain rfl := Host.Outcome.next.inj ht
    exact h.inv { hs with commitLatch := hnone }
  · obtain rfl := Host.Outcome.next.inj ht
    have hstart : MidCycle { s with commitLatch := none } := { h with }
    have hkept : MidCycle u ∧ Settled u :=
      State.commitEntry_keeps (P := fun v => MidCycle v ∧ Settled v)
        (halt := fun _ ⟨hm, hv⟩ => ⟨{ hm with }, { hv with }⟩)
        (mark := fun _ _ ⟨hm, hv⟩ => ⟨{ hm with lsq := hm.lsq.modify _ _ }, { hv with }⟩)
        (retire := fun _ _ w hrd ⟨hm, hv⟩ => ⟨hm.retire hrd w g, { hv with }⟩)
        (rollback := fun v target ⟨hm, _⟩ => ⟨hm.rollback target, v.settled_of_rollback target⟩)
        ⟨hstart, hs⟩ hu
    obtain ⟨hm, hsettled⟩ := hkept
    have hzero : u.forceZero.readReg 0 = 0 := by rw [State.forceZero, State.readReg_writeReg, if_pos rfl]
    exact MidCycle.inv { hm with zero := hzero } { hsettled with }
  · cases ht

/-! ### The cycle -/

theorem MidCycle.afterFetch {s t : State} (h : MidCycle s) (ht : s.afterFetch = .next t) : Inv t :=
  h.arbiter.phaseH.phaseI s.settled_of_phaseH ht

/-- A cycle that ends before its fetch: stopped, out of time, or at a raise in phase (b) (R223 to R225). -/
theorem Inv.endsEarly {s t : State} (h : Inv s) (ht : s.EndsEarly t) : Inv t := by
  rcases ht with ⟨_, rfl⟩ | ⟨hrun, _, rfl⟩ | ⟨hrun, _, ea, _, rfl⟩
  · exact h
  · obtain ⟨hhalted, _⟩ := State.stopped_eq_false.mp hrun
    obtain ⟨halways, _⟩ := h
    exact halways.raise hhalted _
  · obtain ⟨hhalted, hfault⟩ := State.stopped_eq_false.mp hrun
    exact (h.midCycle hfault).atAttempt.always.raise (by simpa [State.atAttempt] using hhalted) _

/-- A cycle that reaches its fetch does so with the invariant of a cycle in progress, and not halted. -/
theorem Inv.atFetch {s b : State} (h : Inv s) (hrun : s.stopped = false) (hb : s.atAttempt.lsqAttempt = .running b) :
    MidCycle b.phaseC.phaseD ∧ b.phaseC.phaseD.halted = false := by
  obtain ⟨hhalted, hfault⟩ := State.stopped_eq_false.mp hrun
  obtain ⟨hmid, hsame⟩ := (h.midCycle hfault).atAttempt.lsqAttempt hb
  exact ⟨hmid.phaseC.phaseD, by simpa [hsame, State.atAttempt] using hhalted⟩

theorem Inv.exec {i : Instr} {s t : State} (h : Inv s) (ht : exec i s = .next t) : Inv t := by
  rw [exec_eq_takeIn] at ht
  rcases s.takeIn_cases (recordOf i) with ⟨u, hu, hs⟩ | ⟨hrun, _, b, hb, hs⟩ <;> rw [hs] at ht
  · obtain rfl := Host.Outcome.next.inj ht
    exact h.endsEarly hu
  · exact ((h.atFetch hrun hb).1.enqueue _).afterFetch ht

theorem Inv.step {s t : State} (h : Inv s) (ht : step s = .next t) : Inv t := by
  rcases step_cases s with ⟨u, hu, hs⟩ | ⟨hrun, _, b, hb, hs⟩
  · rw [hs] at ht
    obtain rfl := Host.Outcome.next.inj ht
    exact h.endsEarly hu
  · obtain ⟨hmid, hhalted⟩ := h.atFetch hrun hb
    rcases hs with hs | hs | ⟨i, hs⟩ <;> rw [hs] at ht
    · obtain rfl := Host.Outcome.next.inj ht
      exact hmid.always.raise hhalted _
    · exact hmid.afterFetch ht
    · exact (hmid.enqueue _).afterFetch ht

/-- Settles O53: each phase keeps `MidCycle`, and the last phases settle the buses and latches. -/
theorem invariantKept : Obligations.InvariantKept := by
  unfold Obligations.InvariantKept
  intro i s t h ht
  exact ht.elim h.exec h.step

end Sys2Proof.Machine

/-! Sized accesses to memory as values (spec/20_memory.md R41 to R44): what a read gives, byte by byte and as a number,
and what it gives of the bytes a write has stored. -/

namespace Sys2Proof.Machine

/-! ### A read's value -/

/-- At most four bytes fit in a word, so a sized read loses nothing in it. -/
theorem Memory.toNat_readLE (m : Memory) (a : Nat) {n : Nat} (hn : n ≤ 4) :
    (BitVec.ofNat 32 (m.readLE a n)).toNat = m.readLE a n := by
  have hword : 256 ^ n ≤ 2 ^ 32 := Nat.pow_le_pow_right (by decide) hn
  rw [BitVec.toNat_ofNat, Nat.mod_eq_of_lt (Nat.lt_of_lt_of_le (m.readLE_lt a n) hword)]

/-- Byte `k` of a word, as a number. -/
theorem toNat_extractByte (v : Word) (k : Nat) : (v.extractLsb' (8 * k) 8).toNat = v.toNat / 256 ^ k % 256 := by
  rw [BitVec.extractLsb'_toNat, Nat.shiftRight_eq_div_pow, Nat.pow_mul]

/-- Byte `k` of a sized read is the byte of memory at `a + k` (R42). -/
theorem Memory.extractByte_readLE (m : Memory) (a : Nat) {n k : Nat} (hn : n ≤ 4) (hk : k < n) :
    (BitVec.ofNat 32 (m.readLE a n)).extractLsb' (8 * k) 8 = m.read (a + k) := by
  apply BitVec.eq_of_toNat_eq
  rw [toNat_extractByte, m.toNat_readLE a hn, m.readLE_byte a n k hk]

/-- Settles O7: `memRead` gives the sized read, whose bytes `Memory.extractByte_readLE` names. -/
theorem memReadReadsBytes : Obligations.MemReadReadsBytes := by
  unfold Obligations.MemReadReadsBytes
  intro m memSize addr n hn
  have hn4 : n ≤ 4 := by omega
  refine ⟨memRead_eq_none.mpr, fun hin => ⟨_, memRead_eq_some.mpr ⟨hin, rfl⟩, ?_, fun k hk => ?_⟩⟩
  · rw [m.toNat_readLE _ hn4]
    exact m.readLE_lt _ n
  · exact m.extractByte_readLE _ hn4 hk

/-- Settles O8: `memWrite` gives the sized write, which keeps the canonical form and stores the bytes of the value. -/
theorem memWriteStoresBytes : Obligations.MemWriteStoresBytes := by
  unfold Obligations.MemWriteStoresBytes
  intro m memSize addr v n hwf _
  exact ⟨memWrite_eq_none.mpr, fun hin => ⟨_, memWrite_eq_some.mpr ⟨hin, rfl⟩, Memory.writeLE_wf hwf _ _ _,
    fun a => Memory.read_writeLE hwf _ _ a _⟩⟩

/-! ### A read of the bytes a write has stored -/

/-- A sized read inside a sized write gives the bytes `k .. k+n-1` of the value written (R41). -/
theorem Memory.readLE_writeLE {m : Memory} (h : m.wf) (a w : Nat) (v : Word) {k n : Nat} (hk : k + n ≤ w) :
    (m.writeLE a w v).readLE (a + k) n = v.toNat / 256 ^ k % 256 ^ n := by
  induction n generalizing k with
  | zero => rw [Memory.readLE, pow_zero, Nat.mod_one]
  | succ n ih =>
    have hbyte : (m.writeLE a w v).read (a + k) = v.extractLsb' (8 * k) 8 := by
      rw [Memory.read_writeLE h, if_pos (by omega), Nat.add_sub_cancel_left]
    have hrest : (m.writeLE a w v).readLE (a + k + 1) n = v.toNat / 256 ^ k / 256 % 256 ^ n := by
      rw [Nat.add_assoc, ih (by omega), pow_succ, Nat.div_div_eq_div_mul]
    rw [Memory.readLE, hbyte, hrest, toNat_extractByte, pow_succ', Nat.mod_mul]

/-- So does `memRead` after `memWrite`, at any alignment (R41, R44). -/
theorem memRead_memWrite {m m' : Memory} {memSize w n k : Nat} {a b v : Word} (h : m.wf)
    (hm : memWrite m memSize a w v = some m') (hb : b.toNat = a.toNat + k) (hk : k + n ≤ w) :
    memRead m' memSize b n = some (BitVec.ofNat 32 (v.toNat / 256 ^ k % 256 ^ n)) := by
  obtain ⟨hin, rfl⟩ := memWrite_eq_some.mp hm
  rw [memRead_eq_some, hb, Memory.readLE_writeLE h _ _ _ hk]
  exact ⟨by omega, rfl⟩

/-- Settles O9: each access lies inside the word written, `k` bytes above its address, and no address wraps. -/
theorem mixedWidthSeesBytes : Obligations.MixedWidthSeesBytes := by
  unfold Obligations.MixedWidthSeesBytes
  intro m memSize a hwf hsize hin
  have hm : memWrite m memSize a 4 0xAABBCCDD = some (m.writeLE a.toNat 4 0xAABBCCDD) :=
    memWrite_eq_some.mpr ⟨hin, rfl⟩
  have h1 : (a + 1).toNat = a.toNat + 1 := by bv_omega
  have h2 : (a + 2).toNat = a.toNat + 2 := by bv_omega
  exact ⟨_, hm, memRead_memWrite hwf hm (k := 0) rfl (by decide), memRead_memWrite hwf hm h1 (by decide),
    memRead_memWrite hwf hm h2 (by decide), memRead_memWrite hwf hm h1 (by decide)⟩

end Sys2Proof.Machine

/-! Accesses out of range (spec/20_memory.md R45, R47, spec/60_exceptions.md R223): where a fetch, a load and a store
trap in a core with nothing else in flight. -/

namespace Sys2Proof.Machine

/-! ### Steps -/

/-- A cycle that ends before its fetch is the whole step (R80). -/
theorem step_of_ended {s t : State} (h : s.beforeFetch = .ended t) : step s = .next t := by
  unfold step State.cycleStart
  rw [h]

/-- A core with the fault recorded stays as it is (R225). -/
theorem step_of_memoryAccessError {s : State} (h : s.fault = .memoryAccessError) : step s = .next s :=
  step_of_ended (State.beforeFetch_of_stopped (by simp [State.stopped, h]))

/-- A step after a run of `k` steps makes it a run of `k + 1` steps. -/
theorem core_run_snoc {M : Host.Core} {k : Nat} {t v u : M.State} (h : M.run k t = .next v)
    (hstep : M.step v = .next u) : M.run (k + 1) t = .next u := by
  induction k generalizing t with
  | zero =>
    obtain rfl := Host.Outcome.next.inj h
    simp only [Host.Core.run, hstep]
  | succ k ih =>
    cases ht : M.step t with
    | next w =>
      simp only [Host.Core.run, ht] at h
      rw [Host.Core.run, ht]
      exact ih h
    | fault e => simp [Host.Core.run, ht] at h
    | refused e => simp [Host.Core.run, ht] at h

theorem CompletesIn.of_exec {i : Instr} {s t : State} (h : exec i s = .next t) : CompletesIn 0 i s t := ⟨t, h, rfl⟩

theorem CompletesIn.snoc {k : Nat} {i : Instr} {s v u : State} (h : CompletesIn k i s v) (hstep : step v = .next u) :
    CompletesIn (k + 1) i s u := by
  obtain ⟨t, hexec, hrun⟩ := h
  exact ⟨t, hexec, core_run_snoc (M := core) hrun hstep⟩

/-! ### A fetch -/

/-- A fetch that is not wholly in memory ends the cycle with a raise (R47). -/
theorem step_of_fetch_outOfRange {s b : State} (hb : s.beforeFetch = .running b) (hroom : b.fq.length < b.fqCap)
    (hout : b.memSize < b.pc.toNat + 4) : step s = .next (b.raise (.memoryAccessError b.pc)) := by
  have hfetch : b.fetch = .outOfRange := by
    unfold State.fetch
    rw [if_pos hroom, memRead_eq_none.mpr hout]
  unfold step State.cycleStart
  rw [hb]
  simp only [hfetch]

/-- Settles O48: a quiet core reaches its fetch with only the cycle counted. -/
theorem fetchOutOfRangeFaults : Obligations.FetchOutOfRangeFaults := by
  unfold Obligations.FetchOutOfRangeFaults
  intro s hq ht hout
  exact step_of_fetch_outOfRange (quiet_beforeFetch hq ht) (by simp [hq.fqEmpty, hq.fqCap]) hout

/-! ### A load -/

/-- A load out of range traps in the cycle after the one that takes it in (R145, R223), and the core stays as it is. -/
theorem exec_load_outOfRange {s : State} {i : Instr} {op : LoadOp} {a : Word} (hq : Quiet s) (ht : TimeFor 2 s)
    (hop : (recordOf i).op = .mem (.load op)) (ha : a = s.readReg (recordOf i).rs1 + (recordOf i).imm)
    (hout : s.memSize < a.toNat + op.width) :
    ∃ u, CompletesIn 1 i s u ∧ u.fault = .memoryAccessError ∧ u.faultAddr = a ∧ u.x = s.x ∧ u.mem = s.mem ∧
      u.halted = false ∧ step u = .next u := by
  subst ha
  obtain ⟨u, htake, hstep, hfault, haddr, hx, hmem, hhalted, _⟩ := load_oor hq ht (recordOf i) op hop hout
  have hfirst := CompletesIn.of_exec ((exec_eq_takeIn i s).trans htake)
  exact ⟨u, hfirst.snoc hstep, hfault, haddr, hx, hmem, hhalted, step_of_memoryAccessError hfault⟩

/-- Settles O43: each of the five loads is a load of its width at `x[rs1] + imm`. -/
theorem loadOutOfRangeFaults : Obligations.LoadOutOfRangeFaults := by
  unfold Obligations.LoadOutOfRangeFaults
  intro rd rs1 imm s a hq ht ha c hc hout
  simp only [List.mem_cons, List.not_mem_nil, or_false] at hc
  rcases hc with rfl | rfl | rfl | rfl | rfl
  · exact exec_load_outOfRange (op := .lb) hq ht rfl ha hout
  · exact exec_load_outOfRange (op := .lh) hq ht rfl ha hout
  · exact exec_load_outOfRange (op := .lw) hq ht rfl ha hout
  · exact exec_load_outOfRange (op := .lbu) hq ht rfl ha hout
  · exact exec_load_outOfRange (op := .lhu) hq ht rfl ha hout

/-! ### The head of a queue -/

section
variable {α : Type} {f : Fifo α} {e : α}

theorem Fifo.front?_eq_some : f.front? = some e ↔ f.count ≠ 0 ∧ f.slots[f.head]? = some e := by
  unfold Fifo.front?
  split <;> simp_all

theorem Fifo.front?_mapLive (hb : f.InBounds) (g : α → α) (h : f.front? = some e) :
    (f.mapLive g).front? = some (g e) := by
  obtain ⟨hcount, hslot⟩ := Fifo.front?_eq_some.mp h
  refine Fifo.front?_eq_some.mpr ⟨hcount, ?_⟩
  rw [Fifo.mapLive_head, Fifo.mapLive_slot, hslot, Fifo.live_head hcount hb.1]
  rfl

theorem Fifo.front?_modify_head (g : α → α) (h : f.front? = some e) : (f.modify f.head g).front? = some (g e) := by
  obtain ⟨hcount, hslot⟩ := Fifo.front?_eq_some.mp h
  refine Fifo.front?_eq_some.mpr ⟨hcount, ?_⟩
  rw [Fifo.modify_head, Fifo.modify_slot, if_pos rfl, hslot]
  rfl

/-- A push goes behind the head of a queue that is not empty (R19). -/
theorem Fifo.front?_push (hb : f.InBounds) (hroom : f.count < f.capacity) (d : α) (h : f.front? = some e) :
    (f.push d).front? = some e := by
  obtain ⟨hcount, hslot⟩ := Fifo.front?_eq_some.mp h
  have htail : f.head ≠ f.tail := by
    intro heq
    have hdead := Fifo.tail_not_live hb hroom
    rw [← heq, Fifo.live_head hcount hb.1] at hdead
    cases hdead
  refine Fifo.front?_eq_some.mpr ⟨Nat.succ_ne_zero _, ?_⟩
  rw [Fifo.push_head, Fifo.push_slot _ _ (Fifo.tail_lt (by omega)), if_neg htail]
  exact hslot

end

/-! ### A store at the head of the load-store queue, phase by phase -/

/-- The entry is a store whose operands are values. -/
structure LsqEntry.IsStore (q : LsqEntry) (op : StoreOp) (base data : Word) : Prop where
  op : q.op = .store op
  o1 : q.o1 = .val base
  o2 : q.o2 = .val data

section
variable {s : State} {q : LsqEntry} {op : StoreOp} {base data : Word}

/-- Nothing is left for it to capture (R143). -/
theorem LsqEntry.IsStore.capture (h : q.IsStore op base data) (cdb : List (Tag × Word)) : q.capture cdb = q := by
  have h1 := h.o1
  have h2 := h.o2
  cases q
  simp_all [LsqEntry.capture]

/-- Up to phase (b)'s attempt a cycle leaves the architectural state alone (R87). -/
theorem State.same_atAttempt (s : State) : Same s s.atAttempt := by
  constructor <;> simp [State.atAttempt, State.lsqCapture]

@[simp] theorem State.atAttempt_pc (s : State) : s.atAttempt.pc = s.pc := by simp [State.atAttempt, State.lsqCapture]
@[simp] theorem State.atAttempt_cycles (s : State) : s.atAttempt.cycles = s.cycles + 1 := by
  simp [State.atAttempt, State.lsqCapture]

/-- It stands at the head as it was when phase (b) makes its attempt. -/
theorem State.atAttempt_front (hb : s.lsq.InBounds) (hq : s.lsq.front? = some q) (h : q.IsStore op base data) :
    s.atAttempt.lsq.front? = some q := by
  have hcapture := Fifo.front?_mapLive hb (LsqEntry.capture s.cdb) hq
  rw [h.capture] at hcapture
  simpa [State.atAttempt, State.lsqCapture] using hcapture

/-- The attempt of a store at the head: it writes once it is marked, before that it reports once (R146 to R148). -/
theorem State.lsqAttempt_of_store (hq : s.lsq.front? = some q) (h : q.IsStore op base data) :
    s.lsqAttempt = if q.ready then s.lsqStore op (effectiveAddress base q.imm) data
      else if q.reported then .running s else .running (s.lsqReport q.dest) := by
  unfold State.lsqAttempt
  rw [hq]
  simp only [h.o1, h.o2, State.lsqAct, h.op]

/-- Dispatch leaves the head of the load-store queue where it stands (R104). -/
theorem State.phaseH_front (hb : s.lsq.InBounds) (hq : s.lsq.front? = some q) : s.phaseH.lsq.front? = some q := by
  rcases s.phaseH_cases with hH | ⟨r, rest, _, _, _, hroom, hH⟩ <;> rw [hH]
  · exact hq
  obtain ⟨_, _, ⟨_, _, _, _, hlsq, _⟩ | ⟨op, _, _, hop, _, hlsq, _⟩ | ⟨_, _, hlsq⟩⟩ := s.dispatch_cases r rest <;>
    rw [hlsq]
  · exact hq
  · exact Fifo.front?_push hb (hroom op hop) _ hq
  · exact hq

/-- Phase (i) commits a store that awaits its mark at the head of the queue: it is marked there, and nothing else
changes (R129). -/
theorem State.phaseI_of_store {t : Tag} {e : RobEntry} (h : MidCycle s) (hlatch : s.commitLatch = some (t, e))
    (he : e.op = .mem (.store op)) (hq : s.lsq.front? = some q) (hmark : q.awaitsMark t = true) :
    s.phaseI = .next
      { s with commitLatch := none, lsq := s.lsq.modify s.lsq.head fun q => { q with ready := true } } := by
  obtain ⟨hcount, hslot⟩ := Fifo.front?_eq_some.mp hq
  have hfind := Fifo.findLive?_head h.lsq hcount hslot hmark
  have hcommit : State.commitEntry { s with commitLatch := none } t e = .next
      { s with commitLatch := none, lsq := s.lsq.modify s.lsq.head fun q => { q with ready := true } } := by
    simp only [State.commitEntry, he, State.markStore, hfind]
  rw [State.phaseI_of_some hlatch hcommit, State.forceZero_of_zero]
  exact h.zero

/-- Up to its fetch, a running core's cycle with time left is phase (b)'s attempt and, unless that raises, phases (c)
and (d) (R80). -/
theorem State.beforeFetch_of_running (hrun : s.stopped = false) (ht : TimeFor 1 s) :
    s.beforeFetch = s.atAttempt.lsqAttempt.andThen fun b => .running b.phaseC.phaseD := by
  unfold State.beforeFetch
  rw [State.startCycle_of_running hrun (State.timeLimit_of_timeFor ht)]
  rfl

/-- Phase (a) pops a head that is ready once the results on the buses have been taken (R120, R121). -/
theorem State.atAttempt_commitLatch {e : RobEntry} (h : s.robCapture.rob.front? = some e) (hr : e.ready = true) :
    s.atAttempt.commitLatch = some (s.rob.head, e) := by
  change (State.robPop { s.robCapture with cycles := s.cycles + 1 }).commitLatch = _
  obtain ⟨hhead, _⟩ := s.robCapture_shape
  unfold State.robPop
  simp only [h, hr, if_true, hhead]

/-! ### A store, cycle by cycle -/

/-- The second cycle of a store up to its fetch: the entry at the head of the queue reports (R147). -/
theorem store_beforeFetch (hq : Quiet s) (ht : TimeFor 2 s) (r : Record) (hop : r.op = .mem (.store op)) :
    ∃ rst, (firstState s r).beforeFetch = .running { s with
      cycles := s.cycles + 2
      pc := s.pc + fall
      fq := []
      rst := rst
      rob := s.rob.push { r with pc := s.pc : Record }.robEntry
      lsq := (s.lsq.push (lsqEntryOf s r (.store op))).modify s.lsq.head fun q => { q with reported := true }
      lockReq := (firstState s r).lockReq
      lsqOut := some (.storeReport s.rob.head)
      execLatch := none } := by
  have hb := mem_beforeFetch hq ht r _ hop
  rw [State.lsqAttempt_of_store (s := { firstState s r with cycles := s.cycles + 2 }) (firstState_front hq r _ hop)
    ⟨rfl, rfl, rfl⟩] at hb
  obtain ⟨rst, hD⟩ := State.phaseD_writes
    { State.lsqReport { firstState s r with cycles := s.cycles + 2 } s.rob.head with execLatch := none }
  refine ⟨rst, hb.trans ((congrArg Flow.running hD).trans ?_)⟩
  rw [firstState_mem hq r _ hop]
  rfl

/-- The second cycle of a store: its report goes out with redirect 0 on `rob_sig`, and it stays at the head of its queue
(R147, R151). -/
theorem store_second (hq : Quiet s) (ht : TimeFor 2 s) (hroom : FetchRoom 3 s) (r : Record)
    (hop : r.op = .mem (.store op)) :
    ∃ u, step (firstState s r) = .next u ∧
      Waiting s { r with pc := s.pc : Record }.robEntry [] [(s.rob.head, 0)] u ∧
      u.lsq.front? = some { lsqEntryOf s r (.store op) with reported := true } := by
  obtain ⟨rst, hb⟩ := store_beforeFetch hq ht r hop
  have hfront : (s.lsq.push (lsqEntryOf s r (.store op))).front? = some (lsqEntryOf s r (.store op)) := by
    simpa [firstState_mem hq r _ hop] using firstState_front hq r _ hop
  have hreported := Fifo.front?_modify_head (fun q => { q with reported := true }) hfront
  have hslot : (s.rob.push { r with pc := s.pc : Record }.robEntry).slots[s.rob.head]? =
      some { r with pc := s.pc : Record }.robEntry := by
    rw [Fifo.push_slot _ _ (by rw [quiet_tail hq]; exact hq.robHead), if_pos (quiet_tail hq).symm]
  obtain ⟨u, hstep, hwait, _, hkept⟩ := second_cycle (s := s) hb (by constructor <;> rfl) rfl rfl
    (by simpa using hq.robHead) (by simp [hq.robEmpty]) hslot hq.commitLatch rfl hq.fqCap rfl hroom
    (by simpa using hq.lsqHead)
  exact ⟨u, hstep, hwait, (hkept (Fifo.front?_eq_some.mp hreported).1).trans hreported⟩

/-- The next cycle pops the entry whose report is on `rob_sig` (R120, R121). -/
theorem Waiting.pops_reported {e : RobEntry} {u : State} (h : Waiting s e [] [(s.rob.head, 0)] u) :
    u.atAttempt.commitLatch = some (u.rob.head, { e with redirect := 0, ready := true }) := by
  obtain ⟨hhead, hcount, _⟩ := u.robCapture_shape
  have hlive : u.rob.live s.rob.head = true := h.head ▸ Fifo.live_head h.count h.headLt
  refine State.atAttempt_commitLatch ?_ rfl
  rw [Fifo.front?_of_nonempty (by rw [hcount]; exact h.count), hhead]
  simp only [State.robCapture, h.cdbIs, h.sigIs, List.foldl_cons, List.foldl_nil]
  rw [applySignal, if_pos hlive, Fifo.modify_slot, if_pos h.head, h.slot]
  rfl

/-- The cycle that commits a store which stands at the head of its queue, reported: the store is marked there, and the
architectural state stays (R129, R148). -/
theorem store_commit_cycle {e : RobEntry} {t : Tag} (h : MidCycle s) (hrun : s.stopped = false) (ht : TimeFor 1 s)
    (hpc : s.pc.toNat + 4 ≤ s.memSize) (hlatch : s.atAttempt.commitLatch = some (t, e)) (he : e.op = .mem (.store op))
    (hq : s.lsq.front? = some q) (hstore : q.IsStore op base data) (hmark : q.awaitsMark t = true)
    (hready : q.ready = false) (hreported : q.reported = true) :
    ∃ v, step s = .next v ∧ Same s v ∧ v.cycles = s.cycles + 1 ∧ v.lsq.front? = some { q with ready := true } := by
  have hfront := State.atAttempt_front h.lsq hq hstore
  have hb : s.beforeFetch = .running s.atAttempt.phaseC.phaseD := by
    rw [State.beforeFetch_of_running hrun ht, State.lsqAttempt_of_store hfront hstore]
    simp [hready, hreported]
  have hbpc : s.atAttempt.phaseC.phaseD.pc = s.pc := by simp
  have hbsame : Same s s.atAttempt.phaseC.phaseD := s.same_atAttempt.trans (by constructor <;> simp)
  obtain ⟨c, hstep, hc⟩ := step_of_running hb (by rw [hbpc, hbsame.memSize]; exact hpc)
  obtain ⟨hmid, hsame, hcycles, hclatch, hcfront⟩ : MidCycle c ∧ Same s c ∧ c.cycles = s.cycles + 1 ∧
      c.commitLatch = some (t, e) ∧ c.lsq.front? = some q := by
    have hbmid : MidCycle s.atAttempt.phaseC.phaseD := h.atAttempt.phaseC.phaseD
    rcases hc with rfl | ⟨_, i, _, _, rfl⟩
    · exact ⟨hbmid, hbsame, by simp, by simpa using hlatch, by simpa using hfront⟩
    · exact ⟨hbmid.enqueue _, hbsame.trans (by constructor <;> simp), by simp, by simpa using hlatch,
        by simpa using hfront⟩
  have hlast : Same s c.phaseF.phaseG.phaseH := hsame.trans (by constructor <;> simp)
  have hlastFront : c.phaseF.phaseG.phaseH.lsq.front? = some q :=
    State.phaseH_front hmid.arbiter.lsq (by simpa using hcfront)
  have hcommit := State.phaseI_of_store hmid.arbiter.phaseH (by simpa using hclatch) he hlastFront hmark
  exact ⟨_, hstep.trans hcommit, { hlast with }, by simpa using hcycles, Fifo.front?_modify_head _ hlastFront⟩

/-- A marked store at the head of its queue whose access is not wholly in memory ends the cycle with a raise (R146,
R223). -/
theorem step_of_store_outOfRange (hb : s.lsq.InBounds) (hrun : s.stopped = false) (ht : TimeFor 1 s)
    (hq : s.lsq.front? = some q) (hstore : q.IsStore op base data) (hready : q.ready = true)
    (hout : s.memSize < (effectiveAddress base q.imm).toNat + op.width) :
    step s = .next (s.atAttempt.raise (.memoryAccessError (effectiveAddress base q.imm))) := by
  have hnone : memWrite s.atAttempt.mem s.atAttempt.memSize (effectiveAddress base q.imm) op.width data = none := by
    rw [memWrite_eq_none, s.same_atAttempt.memSize]
    exact hout
  apply step_of_ended
  rw [State.beforeFetch_of_running hrun ht, State.lsqAttempt_of_store (State.atAttempt_front hb hq hstore) hstore,
    if_pos hready, State.lsqStore, hnone]
  rfl

end

/-! ### A store, from fetch to its write -/

theorem TimeFor.mono {s : State} {j k : Nat} (h : TimeFor k s) (hjk : j ≤ k) : TimeFor j s := fun n hn => by
  have := h n hn
  omega

/-- What an instruction in flight leaves alone says that the core still runs. -/
theorem Same.running {s u : State} (h : Same s u) (hrun : s.stopped = false) : u.stopped = false := by
  rw [State.stopped, h.halted, h.fault]
  exact hrun

/-- After `j` cycles of `j + k` there is time for `k`. -/
theorem Same.timeFor {s u : State} {j k : Nat} (h : Same s u) (hc : u.cycles = s.cycles + j) (ht : TimeFor (j + k) s) :
    TimeFor k u := fun n hn => by
  have := ht n (h.maxCycles ▸ hn)
  omega

/-- A store of a quiet core up to its commit: two cycles after the one that takes it in, it stands marked at the head of
its queue, and the architectural state is as it was (R129, R147). -/
theorem store_life {s : State} {i : Instr} {op : StoreOp} (h : RunsAhead 3 s) (ha : Always s)
    (hop : (recordOf i).op = .mem (.store op)) :
    ∃ v, CompletesIn 2 i s v ∧ Inv v ∧ Same s v ∧ v.cycles = s.cycles + 3 ∧
      v.lsq.front? = some { lsqEntryOf s (recordOf i) (.store op) with reported := true, ready := true } := by
  obtain ⟨hq, ht, hroom⟩ := h
  have hfirst : exec i s = .next (firstState s (recordOf i)) :=
    (exec_eq_takeIn i s).trans (quiet_takeIn hq (ht.mono (by decide)) _)
  obtain ⟨u, hsecond, hwait, hfront⟩ := store_second hq (ht.mono (by decide)) hroom (recordOf i) hop
  have hinv : Inv u := Inv.step (Inv.exec ⟨ha, fun _ => hq.shape⟩ hfirst) hsecond
  have hrun : u.stopped = false := hwait.same.running hq.running
  have hmark : ({ lsqEntryOf s (recordOf i) (.store op) with reported := true } : LsqEntry).awaitsMark u.rob.head =
      true := by simp [LsqEntry.awaitsMark, lsqEntryOf, hwait.head]
  obtain ⟨v, hthird, hsame, hcycles, hvfront⟩ := store_commit_cycle (hinv.midCycle (State.stopped_eq_false.mp hrun).2)
    hrun (hwait.same.timeFor hwait.cycles ht) hwait.pc hwait.pops_reported hop hfront ⟨rfl, rfl, rfl⟩ hmark rfl rfl
  exact ⟨v, ((CompletesIn.of_exec hfirst).snoc hsecond).snoc hthird, Inv.step hinv hthird, hwait.same.trans hsame,
    by rw [hcycles, hwait.cycles], hvfront⟩

/-- A store out of range traps in the cycle after its commit (R146, R223), and the core stays as it is. -/
theorem exec_store_outOfRange {s : State} {i : Instr} {op : StoreOp} {a : Word} (h : RunsAhead 4 s) (hs : Always s)
    (hop : (recordOf i).op = .mem (.store op)) (ha : a = s.readReg (recordOf i).rs1 + (recordOf i).imm)
    (hout : s.memSize < a.toNat + op.width) :
    ∃ u, CompletesIn 3 i s u ∧ u.fault = .memoryAccessError ∧ u.faultAddr = a ∧ (∀ r, u.readReg r = s.readReg r) ∧
      u.mem = s.mem ∧ u.halted = false ∧ step u = .next u := by
  subst ha
  obtain ⟨hq, ht, hroom⟩ := h
  obtain ⟨hhalted, hfault⟩ := State.stopped_eq_false.mp hq.running
  have hthree : RunsAhead 3 s := ⟨hq, ht.mono (by decide), by unfold FetchRoom at *; omega⟩
  obtain ⟨v, hcommitted, hinv, hsame, hcycles, hfront⟩ := store_life hthree hs hop
  have hstore : ({ lsqEntryOf s (recordOf i) (.store op) with reported := true, ready := true } : LsqEntry).IsStore op
      (s.readReg (recordOf i).rs1) (s.readReg (recordOf i).rs2) := by
    constructor <;> simp [lsqEntryOf, hop, OpKind.usesRs1, OpKind.usesRs2]
  have hstep := step_of_store_outOfRange (hinv.midCycle (hsame.fault.trans hfault)).lsq (hsame.running hq.running)
    (hsame.timeFor hcycles ht) hfront hstore rfl (hsame.memSize ▸ hout)
  have hend : Same s v.atAttempt := hsame.trans v.same_atAttempt
  exact ⟨_, hcommitted.snoc hstep, rfl, rfl, State.readReg_congr hend.x, hend.mem,
    hend.halted.trans hhalted, step_of_memoryAccessError rfl⟩

/-- Settles O44: each of the three stores is a store of its width at `x[rs1] + imm`. -/
theorem storeOutOfRangeFaults : Obligations.StoreOutOfRangeFaults := by
  unfold Obligations.StoreOutOfRangeFaults
  intro rs2 rs1 imm s a h hs ha c hc hout
  simp only [List.mem_cons, List.not_mem_nil, or_false] at hc
  rcases hc with rfl | rfl | rfl
  · exact exec_store_outOfRange (op := .sb) h hs rfl ha hout
  · exact exec_store_outOfRange (op := .sh) h hs rfl ha hout
  · exact exec_store_outOfRange (op := .sw) h hs rfl ha hout

end Sys2Proof.Machine

/-! The decoder and the encoder (spec/30_encoding.md R60 to R75): the fields of a word of each format, what the decoder
answers for each opcode and each entry of the class tables, and from these that decoding undoes encoding, what decodes and
what does not. -/

namespace Sys2Proof

/-! ### The fields of a word of each format (R63 to R65)

A word is its fields side by side, so an extraction finds its field at its place, and adjacent pieces of an immediate join. -/

@[simp] theorem encodeR_fields (funct7 : BitVec 7) (rs2 rs1 : RegIdx) (f3 : BitVec 3) (rd : RegIdx) (opcode : BitVec 7) :
    fieldOpcode (encodeR funct7 rs2 rs1 f3 rd opcode) = opcode ∧ fieldRd (encodeR funct7 rs2 rs1 f3 rd opcode) = rd ∧
    fieldFunct3 (encodeR funct7 rs2 rs1 f3 rd opcode) = f3 ∧ fieldRs1 (encodeR funct7 rs2 rs1 f3 rd opcode) = rs1 ∧
    fieldRs2 (encodeR funct7 rs2 rs1 f3 rd opcode) = rs2 ∧
    fieldBit30 (encodeR funct7 rs2 rs1 f3 rd opcode) = funct7.getLsbD 5 := by
  simp (disch := decide) only [encodeR, fieldOpcode, fieldRd, fieldFunct3, fieldRs1, fieldRs2, fieldBit30,
    BitVec.extractLsb'_append_eq_of_le, BitVec.extractLsb'_append_eq_of_add_le, BitVec.extractLsb'_eq_self,
    Nat.reduceSub, BitVec.getLsbD_append, Nat.reduceLT, if_false, and_self]

@[simp] theorem encodeI_fields (imm : BitVec 12) (rs1 : RegIdx) (f3 : BitVec 3) (rd : RegIdx) (opcode : BitVec 7) :
    fieldOpcode (encodeI imm rs1 f3 rd opcode) = opcode ∧ fieldRd (encodeI imm rs1 f3 rd opcode) = rd ∧
    fieldFunct3 (encodeI imm rs1 f3 rd opcode) = f3 ∧ fieldRs1 (encodeI imm rs1 f3 rd opcode) = rs1 ∧
    fieldImmI (encodeI imm rs1 f3 rd opcode) = imm := by
  simp (disch := decide) only [encodeI, fieldOpcode, fieldRd, fieldFunct3, fieldRs1, fieldImmI,
    BitVec.extractLsb'_append_eq_of_le, BitVec.extractLsb'_append_eq_of_add_le, BitVec.extractLsb'_eq_self,
    Nat.reduceSub, and_self]

@[simp] theorem encodeS_fields (imm : BitVec 12) (rs2 rs1 : RegIdx) (f3 : BitVec 3) (opcode : BitVec 7) :
    fieldOpcode (encodeS imm rs2 rs1 f3 opcode) = opcode ∧ fieldFunct3 (encodeS imm rs2 rs1 f3 opcode) = f3 ∧
    fieldRs1 (encodeS imm rs2 rs1 f3 opcode) = rs1 ∧ fieldRs2 (encodeS imm rs2 rs1 f3 opcode) = rs2 ∧
    fieldImmS (encodeS imm rs2 rs1 f3 opcode) = imm := by
  simp (disch := decide) only [encodeS, fieldOpcode, fieldFunct3, fieldRs1, fieldRs2, fieldImmS,
    BitVec.extractLsb'_append_eq_of_le, BitVec.extractLsb'_append_eq_of_add_le, BitVec.extractLsb'_eq_self,
    BitVec.extractLsb'_append_extractLsb'_eq_extractLsb', Nat.reduceSub, and_self]

@[simp] theorem encodeU_fields (imm : BitVec 20) (rd : RegIdx) (opcode : BitVec 7) :
    fieldOpcode (encodeU imm rd opcode) = opcode ∧ fieldRd (encodeU imm rd opcode) = rd ∧
    fieldImmU (encodeU imm rd opcode) = imm := by
  simp (disch := decide) only [encodeU, fieldOpcode, fieldRd, fieldImmU,
    BitVec.extractLsb'_append_eq_of_le, BitVec.extractLsb'_append_eq_of_add_le, BitVec.extractLsb'_eq_self,
    Nat.reduceSub, and_self]

theorem evenOffset_append_zero {n : Nat} (b : BitVec n) : evenOffset (b ++ 0#1) = true := by
  simp only [evenOffset, BitVec.getLsbD_append]
  rfl

/-- The low zero bit that the B and the J format leave out is the one an even offset has (R65). -/
theorem extractLsb'_append_zero_of_even {n : Nat} {offset : BitVec (n + 1)} (h : evenOffset offset = true) :
    offset.extractLsb' 1 n ++ 0#1 = offset := by
  have hlow : offset.extractLsb' 0 1 = 0#1 := by
    apply BitVec.eq_of_getLsbD_eq
    simpa [evenOffset] using h
  rw [← hlow]
  exact BitVec.extractLsb'_append_extractLsb'

@[simp] theorem encodeB_fields (offset : BitVec 13) (rs2 rs1 : RegIdx) (f3 : BitVec 3) (opcode : BitVec 7) :
    fieldOpcode (encodeB offset rs2 rs1 f3 opcode) = opcode ∧ fieldFunct3 (encodeB offset rs2 rs1 f3 opcode) = f3 ∧
    fieldRs1 (encodeB offset rs2 rs1 f3 opcode) = rs1 ∧ fieldRs2 (encodeB offset rs2 rs1 f3 opcode) = rs2 ∧
    fieldImmB (encodeB offset rs2 rs1 f3 opcode) = offset.extractLsb' 1 12 ++ 0#1 := by
  simp (disch := decide) only [encodeB, fieldOpcode, fieldFunct3, fieldRs1, fieldRs2, fieldImmB,
    BitVec.extractLsb'_append_eq_of_le, BitVec.extractLsb'_append_eq_of_add_le, BitVec.extractLsb'_eq_self,
    BitVec.extractLsb'_append_extractLsb'_eq_extractLsb', Nat.reduceSub, and_self]

@[simp] theorem encodeJ_fields (offset : BitVec 21) (rd : RegIdx) (opcode : BitVec 7) :
    fieldOpcode (encodeJ offset rd opcode) = opcode ∧ fieldRd (encodeJ offset rd opcode) = rd ∧
    fieldImmJ (encodeJ offset rd opcode) = offset.extractLsb' 1 20 ++ 0#1 := by
  simp (disch := decide) only [encodeJ, fieldOpcode, fieldRd, fieldImmJ,
    BitVec.extractLsb'_append_eq_of_le, BitVec.extractLsb'_append_eq_of_add_le, BitVec.extractLsb'_eq_self,
    BitVec.extractLsb'_append_extractLsb'_eq_extractLsb', Nat.reduceSub, and_self]

/-- Every word is the I word of its own fields. -/
theorem encodeI_of_fields (w : Word) :
    encodeI (fieldImmI w) (fieldRs1 w) (fieldFunct3 w) (fieldRd w) (fieldOpcode w) = w := by
  simp (disch := decide) only [encodeI, fieldOpcode, fieldRd, fieldFunct3, fieldRs1, fieldImmI,
    BitVec.extractLsb'_append_extractLsb'_eq_extractLsb', BitVec.extractLsb'_eq_self]

/-- The bytes of a word, lowest address first, give the word back (R41, R47). -/
theorem wordOfBytes_extract (w : Word) :
    wordOfBytes (w.extractLsb' 0 8) (w.extractLsb' 8 8) (w.extractLsb' 16 8) (w.extractLsb' 24 8) = w := by
  simp (disch := decide) only [wordOfBytes, BitVec.extractLsb'_append_extractLsb'_eq_extractLsb',
    BitVec.extractLsb'_eq_self]

theorem extractLsb'_eq_of_low {w v : Word} {n start len : Nat} (h : w.extractLsb' 0 n = v.extractLsb' 0 n)
    (hlow : start + len ≤ n) : w.extractLsb' start len = v.extractLsb' start len := by
  rw [← BitVec.extractLsb'_extractLsb'_of_le hlow, h, BitVec.extractLsb'_extractLsb'_of_le hlow]

/-- Every field but the immediates and bit 30 lies in bits 24:0. -/
theorem fields_eq_of_low {w v : Word} (h : w.extractLsb' 0 25 = v.extractLsb' 0 25) :
    fieldOpcode w = fieldOpcode v ∧ fieldRd w = fieldRd v ∧ fieldFunct3 w = fieldFunct3 v ∧
    fieldRs1 w = fieldRs1 v ∧ fieldRs2 w = fieldRs2 v :=
  ⟨extractLsb'_eq_of_low h (by decide), extractLsb'_eq_of_low h (by decide), extractLsb'_eq_of_low h (by decide),
    extractLsb'_eq_of_low h (by decide), extractLsb'_eq_of_low h (by decide)⟩

/-! ### The halt word (R73) -/

theorem eq_haltWord_iff {w : Word} (hop : fieldOpcode w = 0b0010011#7) :
    w = haltWord ↔ fieldFunct3 w = 0b000#3 ∧ isHaltPattern (fieldRd w) (fieldRs1 w) (fieldImmI w) = true := by
  constructor
  · rintro rfl
    decide
  · intro ⟨hf3, hpattern⟩
    obtain ⟨⟨hrd, hrs1⟩, himm⟩ : (fieldRd w = 10 ∧ fieldRs1 w = 0) ∧ fieldImmI w = 255 := by
      simpa [isHaltPattern] using hpattern
    rw [← encodeI_of_fields w, hop, hf3, hrd, hrs1, himm]
    rfl

theorem ne_haltWord_of_opcode {w : Word} (hop : fieldOpcode w ≠ 0b0010011#7) : w ≠ haltWord := by
  rintro rfl
  exact hop rfl

/-! ### What the decoder answers, by opcode (R66) -/

section
variable {w : Word}

@[simp] theorem decode_of_lui (hop : fieldOpcode w = 0b0110111#7) : decode w = .ok (.lui (fieldRd w) (fieldImmU w)) := by
  simp [decode, ne_haltWord_of_opcode, hop]

@[simp] theorem decode_of_auipc (hop : fieldOpcode w = 0b0010111#7) :
    decode w = .ok (.auipc (fieldRd w) (fieldImmU w)) := by
  simp [decode, ne_haltWord_of_opcode, hop]

@[simp] theorem decode_of_jal (hop : fieldOpcode w = 0b1101111#7) : decode w = .ok (.jal (fieldRd w) (fieldImmJ w)) := by
  simp [decode, ne_haltWord_of_opcode, hop]

@[simp] theorem decode_of_jalr (hop : fieldOpcode w = 0b1100111#7) :
    decode w = if fieldFunct3 w = 0b000#3 then .ok (.jalr (fieldRd w) (fieldRs1 w) (fieldImmI w))
      else .error .jalrFunct3 := by
  simp [decode, ne_haltWord_of_opcode, hop]

@[simp] theorem decode_of_branch (hop : fieldOpcode w = 0b1100011#7) :
    decode w = branchTable (fieldFunct3 w) (fieldRs1 w) (fieldRs2 w) (fieldImmB w) := by
  simp [decode, ne_haltWord_of_opcode, hop]

@[simp] theorem decode_of_load (hop : fieldOpcode w = 0b0000011#7) :
    decode w = loadTable (fieldFunct3 w) (fieldRd w) (fieldRs1 w) (fieldImmI w) := by
  simp [decode, ne_haltWord_of_opcode, hop]

@[simp] theorem decode_of_store (hop : fieldOpcode w = 0b0100011#7) :
    decode w = storeTable (fieldFunct3 w) (fieldRs2 w) (fieldRs1 w) (fieldImmS w) := by
  simp [decode, ne_haltWord_of_opcode, hop]

@[simp] theorem decode_of_op (hop : fieldOpcode w = 0b0110011#7) :
    decode w = .ok (opTable (fieldFunct3 w) (fieldBit30 w) (fieldRd w) (fieldRs1 w) (fieldRs2 w)) := by
  simp [decode, ne_haltWord_of_opcode, hop]

/-- The halt word is the one word of the immediate-arithmetic opcode that its table does not decide (R73). -/
@[simp] theorem decode_of_opImm (hop : fieldOpcode w = 0b0010011#7) :
    decode w = .ok (if w = haltWord then .halt else
      opImmTable (fieldFunct3 w) (fieldBit30 w) (fieldRd w) (fieldRs1 w) (fieldImmI w) (fieldRs2 w)) := by
  by_cases hw : w = haltWord <;> simp [decode, hw, hop]

/-- The nine opcodes of R66. -/
def majorOpcodes : List (BitVec 7) :=
  [0b0110111#7, 0b0010111#7, 0b1101111#7, 0b1100111#7, 0b1100011#7, 0b0000011#7, 0b0100011#7, 0b0010011#7, 0b0110011#7]

theorem mem_majorOpcodes_iff {opcode : BitVec 7} :
    opcode ∈ majorOpcodes ↔ opcode = 0b0110111#7 ∨ opcode = 0b0010111#7 ∨ opcode = 0b1101111#7 ∨
      opcode = 0b1100111#7 ∨ opcode = 0b1100011#7 ∨ opcode = 0b0000011#7 ∨ opcode = 0b0100011#7 ∨
      opcode = 0b0010011#7 ∨ opcode = 0b0110011#7 := by
  simp [majorOpcodes]

@[simp] theorem decode_of_unknown (hop : fieldOpcode w ∉ majorOpcodes) : decode w = .error .unknownOpcode := by
  have hne : fieldOpcode w ≠ 0b0010011#7 := fun h => hop (h ▸ by decide)
  rw [decode, if_neg (ne_haltWord_of_opcode hne)]
  split <;> simp_all [majorOpcodes]

end

/-! ### The class tables (R67 to R71) -/

theorem funct3_cases (f3 : BitVec 3) :
    f3 = 0b000#3 ∨ f3 = 0b001#3 ∨ f3 = 0b010#3 ∨ f3 = 0b011#3 ∨ f3 = 0b100#3 ∨ f3 = 0b101#3 ∨ f3 = 0b110#3 ∨
      f3 = 0b111#3 := by
  revert f3
  decide

section
variable {f3 : BitVec 3} {b30 : Bool} {rd rs1 rs2 shamt : RegIdx} {i : Instr}

theorem branchTable_error_iff {offset : BitVec 13} :
    (∃ e, branchTable f3 rs1 rs2 offset = .error e) ↔ f3 ∈ [0b010#3, 0b011#3] := by
  rcases funct3_cases f3 with rfl | rfl | rfl | rfl | rfl | rfl | rfl | rfl <;> simp [branchTable]

theorem loadTable_error_iff {imm : BitVec 12} :
    (∃ e, loadTable f3 rd rs1 imm = .error e) ↔ f3 ∈ [0b011#3, 0b110#3, 0b111#3] := by
  rcases funct3_cases f3 with rfl | rfl | rfl | rfl | rfl | rfl | rfl | rfl <;> simp [loadTable]

theorem storeTable_error_iff {imm : BitVec 12} :
    (∃ e, storeTable f3 rs2 rs1 imm = .error e) ↔ f3 ∈ [0b011#3, 0b100#3, 0b101#3, 0b110#3, 0b111#3] := by
  rcases funct3_cases f3 with rfl | rfl | rfl | rfl | rfl | rfl | rfl | rfl <;> simp [storeTable]

/-! What a table answers is well-formed, if the offset or immediate it is given allows it, and never `HALT`. -/

theorem branchTable_ok {offset : BitVec 13} (h : branchTable f3 rs1 rs2 offset = .ok i) :
    i.wellFormed = evenOffset offset ∧ i ≠ .halt := by
  unfold branchTable at h
  split at h <;> cases h <;> exact ⟨rfl, nofun⟩

theorem loadTable_ok {imm : BitVec 12} (h : loadTable f3 rd rs1 imm = .ok i) : i.wellFormed = true ∧ i ≠ .halt := by
  unfold loadTable at h
  split at h <;> cases h <;> exact ⟨rfl, nofun⟩

theorem storeTable_ok {imm : BitVec 12} (h : storeTable f3 rs2 rs1 imm = .ok i) : i.wellFormed = true ∧ i ≠ .halt := by
  unfold storeTable at h
  split at h <;> cases h <;> exact ⟨rfl, nofun⟩

theorem opImmTable_wellFormed_ne_halt {imm : BitVec 12} (h : ¬(f3 = 0b000#3 ∧ isHaltPattern rd rs1 imm = true)) :
    (opImmTable f3 b30 rd rs1 imm shamt).wellFormed = true ∧ opImmTable f3 b30 rd rs1 imm shamt ≠ .halt := by
  rcases funct3_cases f3 with rfl | rfl | rfl | rfl | rfl | rfl | rfl | rfl <;> cases b30 <;>
    simp_all [opImmTable, Instr.wellFormed]

theorem opTable_wellFormed_ne_halt :
    (opTable f3 b30 rd rs1 rs2).wellFormed = true ∧ opTable f3 b30 rd rs1 rs2 ≠ .halt := by
  rcases funct3_cases f3 with rfl | rfl | rfl | rfl | rfl | rfl | rfl | rfl <;> cases b30 <;>
    simp [opTable, Instr.wellFormed]

/-- Bit 30 of a register-arithmetic word tells apart only `ADD` and `SUB`, `SRL` and `SRA` (R71). -/
theorem opTable_bit30 (h0 : f3 ≠ 0b000#3) (h5 : f3 ≠ 0b101#3) (b : Bool) :
    opTable f3 b30 rd rs1 rs2 = opTable f3 b rd rs1 rs2 := by
  rcases funct3_cases f3 with rfl | rfl | rfl | rfl | rfl | rfl | rfl | rfl <;> simp_all [opTable]

/-- A shift word gives its table the shift amount alone, and bit 30 tells apart only `SRLI` and `SRAI` (R70). -/
theorem opImmTable_shift {imm imm' : BitVec 12} {b : Bool} (h : f3 = 0b001#3 ∨ f3 = 0b101#3 ∧ b30 = b) :
    opImmTable f3 b30 rd rs1 imm shamt = opImmTable f3 b rd rs1 imm' shamt := by
  rcases h with rfl | ⟨rfl, rfl⟩ <;> rfl

end

/-! ### Decoding undoes encoding -/

theorem decodeBytes_bytesOfWord {w : Word} {i : Instr} (h : decode w = .ok i) (rest : List Byte) :
    decodeBytes (bytesOfWord w ++ rest) = .ok (i, rest) := by
  simp [bytesOfWord, decodeBytes, wordOfBytes_extract, h]

theorem decode_encode {i : Instr} (h : i.wellFormed = true) : decode (encode i) = .ok i := by
  cases i with
  | halt => rfl
  | lui rd imm | auipc rd imm => simp [encode]
  | jal rd offset => simp [encode, extractLsb'_append_zero_of_even h]
  | jalr rd rs1 imm => simp [encode]
  | beq rs1 rs2 offset | bne rs1 rs2 offset | blt rs1 rs2 offset | bge rs1 rs2 offset | bltu rs1 rs2 offset
  | bgeu rs1 rs2 offset => simp [encode, branchTable, extractLsb'_append_zero_of_even h]
  | lb rd rs1 imm | lh rd rs1 imm | lw rd rs1 imm | lbu rd rs1 imm | lhu rd rs1 imm => simp [encode, loadTable]
  | sb rs2 rs1 imm | sh rs2 rs1 imm | sw rs2 rs1 imm => simp [encode, storeTable]
  | addi rd rs1 imm =>
    have hpattern : isHaltPattern rd rs1 imm = false := by simpa [Instr.wellFormed] using h
    simp [encode, eq_haltWord_iff, opImmTable, hpattern]
  | slti rd rs1 imm | sltiu rd rs1 imm | xori rd rs1 imm | ori rd rs1 imm | andi rd rs1 imm =>
    simp [encode, eq_haltWord_iff, opImmTable]
  | slli rd rs1 shamt | srli rd rs1 shamt | srai rd rs1 shamt =>
    simp [encode, eq_haltWord_iff, opImmTable]
  | add rd rs1 rs2 | sub rd rs1 rs2 | sll rd rs1 rs2 | slt rd rs1 rs2 | sltu rd rs1 rs2 | xor rd rs1 rs2
  | srl rd rs1 rs2 | sra rd rs1 rs2 | or rd rs1 rs2 | and rd rs1 rs2 => simp [encode, opTable]

/-- Settles O1: the decoder reads back the fields of each format, and a word from its four bytes. -/
theorem decodeEncodeRoundTrip : Obligations.DecodeEncodeRoundTrip :=
  fun _ h => ⟨decode_encode h, decodeBytes_bytesOfWord (decode_encode h)⟩

/-! ### What decodes, and what does not -/

/-- What a word other than the halt word decodes to is well-formed and not `HALT`, opcode by opcode. -/
theorem decode_ok {w : Word} {i : Instr} (hw : w ≠ haltWord) (h : decode w = .ok i) :
    i.wellFormed = true ∧ i ≠ .halt := by
  by_cases hop : fieldOpcode w ∈ majorOpcodes
  · rcases mem_majorOpcodes_iff.mp hop with hop | hop | hop | hop | hop | hop | hop | hop | hop
    · rw [decode_of_lui hop] at h
      cases h
      exact ⟨rfl, nofun⟩
    · rw [decode_of_auipc hop] at h
      cases h
      exact ⟨rfl, nofun⟩
    · rw [decode_of_jal hop] at h
      cases h
      exact ⟨evenOffset_append_zero _, nofun⟩
    · rw [decode_of_jalr hop] at h
      split at h <;> cases h
      exact ⟨rfl, nofun⟩
    · rw [decode_of_branch hop] at h
      obtain ⟨hwf, hne⟩ := branchTable_ok h
      exact ⟨hwf.trans (evenOffset_append_zero _), hne⟩
    · exact loadTable_ok (decode_of_load hop ▸ h)
    · exact storeTable_ok (decode_of_store hop ▸ h)
    · rw [decode_of_opImm hop, if_neg hw] at h
      cases h
      exact opImmTable_wellFormed_ne_halt (mt (eq_haltWord_iff hop).mpr hw)
    · rw [decode_of_op hop] at h
      cases h
      exact opTable_wellFormed_ne_halt
  · rw [decode_of_unknown hop] at h
    cases h

/-- Settles O2: the halt word is the one word whose answer no class table gives. -/
theorem decodedIsWellFormed : Obligations.DecodedIsWellFormed := by
  unfold Obligations.DecodedIsWellFormed
  intro w i h
  by_cases hw : w = haltWord
  · subst hw
    cases h
    rfl
  · exact (decode_ok hw h).1

/-- Settles O3: no other word decodes to `HALT`, by `decode_ok`. -/
theorem haltWordOnly : Obligations.HaltWordOnly := by
  unfold Obligations.HaltWordOnly
  refine ⟨fun w => ⟨fun h => ?_, fun h => ?_⟩, by decide⟩
  · by_contra hw
    exact (decode_ok hw h).2 rfl
  · rw [h]
    rfl

/-- R74 in terms of the fields: an opcode that is none of the nine, or a class table without an entry. -/
theorem decode_error_iff (w : Word) :
    (∃ e, decode w = .error e) ↔ fieldOpcode w ∉ majorOpcodes ∨
      (fieldOpcode w = 0b1100011#7 ∧ fieldFunct3 w ∈ [0b010#3, 0b011#3]) ∨
      (fieldOpcode w = 0b0000011#7 ∧ fieldFunct3 w ∈ [0b011#3, 0b110#3, 0b111#3]) ∨
      (fieldOpcode w = 0b0100011#7 ∧ fieldFunct3 w ∈ [0b011#3, 0b100#3, 0b101#3, 0b110#3, 0b111#3]) ∨
      (fieldOpcode w = 0b1100111#7 ∧ fieldFunct3 w ≠ 0b000#3) := by
  by_cases hop : fieldOpcode w ∈ majorOpcodes
  · rcases mem_majorOpcodes_iff.mp hop with hop | hop | hop | hop | hop | hop | hop | hop | hop
    · simp [hop, majorOpcodes]
    · simp [hop, majorOpcodes]
    · simp [hop, majorOpcodes]
    · by_cases hf3 : fieldFunct3 w = 0b000#3 <;> simp [hop, hf3, majorOpcodes]
    · simp [branchTable_error_iff, hop, majorOpcodes]
    · simp [loadTable_error_iff, hop, majorOpcodes]
    · simp [storeTable_error_iff, hop, majorOpcodes]
    · simp [hop, majorOpcodes]
    · simp [hop, majorOpcodes]
  · simp [hop]

/-- Settles O4. -/
theorem decodeFailsExactly : Obligations.DecodeFailsExactly := by
  unfold Obligations.DecodeFailsExactly
  exact decode_error_iff

/-! ### The bits a register-arithmetic or shift word ignores (R75) -/

/-- A shift word is never the halt word, whose `f3` is 000. -/
theorem decode_of_shift {w : Word} (hop : fieldOpcode w = 0b0010011#7)
    (hf3 : fieldFunct3 w = 0b001#3 ∨ fieldFunct3 w = 0b101#3) :
    decode w = .ok (opImmTable (fieldFunct3 w) (fieldBit30 w) (fieldRd w) (fieldRs1 w) (fieldImmI w) (fieldRs2 w)) := by
  have hne : w ≠ haltWord := by
    rintro rfl
    revert hf3
    decide
  rw [decode_of_opImm hop, if_neg hne]

/-- Settles O5: the tables see bits 24:0 and bit 30 alone, and bit 30 only where it tells a pair apart. -/
theorem lenientBitsIgnored : Obligations.LenientBitsIgnored := by
  unfold Obligations.LenientBitsIgnored
  intro w v hclass hlow hbit
  obtain ⟨hopcode, hrd, hf3, hrs1, hrs2⟩ := fields_eq_of_low hlow
  change fieldOpcode w = 0b0110011#7 ∨
    (fieldOpcode w = 0b0010011#7 ∧ (fieldFunct3 w = 0b001#3 ∨ fieldFunct3 w = 0b101#3)) at hclass
  change fieldBit30 w = fieldBit30 v ∨ fieldFunct3 w = 0b001#3 ∨
    (fieldOpcode w = 0b0110011#7 ∧ fieldFunct3 w ≠ 0b000#3 ∧ fieldFunct3 w ≠ 0b101#3) at hbit
  rcases hclass with hop | ⟨hop, hshift⟩
  · rw [decode_of_op hop, decode_of_op (hopcode ▸ hop), ← hrd, ← hf3, ← hrs1, ← hrs2]
    rcases hbit with hbit | hsll | ⟨_, h0, h5⟩
    · rw [hbit]
    · rw [opTable_bit30 (by simp [hsll]) (by simp [hsll])]
    · rw [opTable_bit30 h0 h5]
  · have hpair : fieldFunct3 w = 0b001#3 ∨ fieldFunct3 w = 0b101#3 ∧ fieldBit30 w = fieldBit30 v := by
      rcases hshift with hslli | hsr
      · exact .inl hslli
      · exact .inr ⟨hsr, by simpa [hop, hsr] using hbit⟩
    rw [decode_of_shift hop hshift, decode_of_shift (hopcode ▸ hop) (hf3 ▸ hshift), ← hrd, ← hf3, ← hrs1, ← hrs2,
      opImmTable_shift hpair]

/-! ### Sample words -/

/-- Settles O6: twelve fixed words, each decoded by evaluation. -/
theorem sampleWordsDecode : Obligations.SampleWordsDecode := by
  unfold Obligations.SampleWordsDecode
  decide

end Sys2Proof

/-! A clock cycle seen from outside (spec/40_cycle_sequencer.md R80 to R87): its phases in their order, the cycle that
takes an instruction in, and the registers, the memory and the status that it leaves as they were. `Uncommitted` says
what of the architectural state a cycle can have changed before phase (i), and one lemma per field what phase (i) adds. -/

namespace Sys2Proof.Machine

/-! ### The phases in their order -/

/-- A cycle that ends before its fetch takes no instruction in (R223). -/
theorem exec_of_ended {s t : State} (h : s.beforeFetch = .ended t) (i : Instr) : exec i s = .next t := by
  rw [exec_eq_takeIn, State.takeIn, h]

/-- Settles O23: up to the fetch, `State.beforeFetch_of_running` gives phase (b) and what follows it. -/
theorem phasesInOrder : Obligations.PhasesInOrder := by
  unfold Obligations.PhasesInOrder
  intro s hhalted hfault htime
  have hbefore : s.beforeFetch = (State.phaseA { s with cycles := s.cycles + 1 }).phaseB.andThen
      fun b => .running b.phaseC.phaseD :=
    State.beforeFetch_of_running (State.stopped_eq_false.mpr ⟨hhalted, hfault⟩) htime
  refine ⟨fun b hb => ?_, fun u hu => ?_, fun m => rfl⟩
  · rw [hbefore, hb, Flow.andThen_running]
  · rw [hu, Flow.andThen_ended] at hbefore
    exact ⟨hbefore, step_of_ended hbefore, exec_of_ended hbefore⟩

/-! ### The cycle that takes an instruction in -/

/-- Where phase (b)'s attempt does not raise, it writes the load-store queue, its result and the memory only, and the
memory only for a marked store at the head (R144 to R148). -/
theorem State.lsqAttempt_running {s b : State} (h : s.lsqAttempt = .running b) :
    ∃ lsq out m, b = { s with lsq := lsq, lsqOut := out, mem := m } ∧
      (m = s.mem ∨ ∃ q op base data, s.lsq.front? = some q ∧ q.IsStore op base data ∧ q.ready = true ∧
        m = s.mem.writeLE (effectiveAddress base q.imm).toNat op.width data) := by
  rcases s.lsqAttempt_writes with g | ⟨q, op, base, data, _, _, _, _, _, g⟩ |
    ⟨q, op, base, data, raw, _, _, _, _, _, g⟩ | ⟨q, op, base, data, _, _, _, _, _, _, g⟩ |
    ⟨q, op, base, data, m, hq, hop, h1, h2, hready, hw, g⟩ | ⟨q, op, base, data, _, _, _, _, _, _, g⟩ <;> rw [g] at h
  · obtain rfl := Flow.running.inj h
    exact ⟨s.lsq, s.lsqOut, s.mem, rfl, .inl rfl⟩
  · cases h
  · obtain rfl := Flow.running.inj h
    exact ⟨_, _, s.mem, rfl, .inl rfl⟩
  · cases h
  · obtain rfl := Flow.running.inj h
    obtain ⟨_, hm⟩ := memWrite_eq_some.mp hw
    exact ⟨_, s.lsqOut, m, rfl, .inr ⟨q, op, base, data, hq, ⟨hop, h1, h2⟩, hready, hm⟩⟩
  · obtain rfl := Flow.running.inj h
    exact ⟨_, _, s.mem, rfl, .inl rfl⟩

/-- No phase before the fetch moves the pc (R101). -/
theorem State.beforeFetch_pc {s b : State} (h : s.beforeFetch = .running b) : b.pc = s.pc := by
  rcases s.beforeFetch_split with ⟨_, _, hended⟩ | ⟨_, _, c, hc, hrunning⟩
  · rw [hended] at h
    cases h
  · obtain rfl := Flow.running.inj (hrunning.symm.trans h)
    obtain ⟨_, _, _, rfl, _⟩ := State.lsqAttempt_running hc
    simp

/-- A record taken in goes to the end of the fetch queue with the pc, and the pc moves on (R101). -/
theorem State.enqueue_of_room {s : State} (hroom : s.fq.length < s.fqCap) (r : Record) :
    s.enqueue r = { s with fq := s.fq ++ [{ r with pc := s.pc }], pc := s.pc + fall } :=
  if_pos hroom

/-- The instruction at the front of the bytes is that of the word they make up (R41, R62). -/
theorem decode_of_decodeBytes {b0 b1 b2 b3 : Byte} {bytes rest : List Byte} {i : Instr}
    (h : decodeBytes (b0 :: b1 :: b2 :: b3 :: bytes) = .ok (i, rest)) : decode (wordOfBytes b0 b1 b2 b3) = .ok i := by
  cases hdecode : decode (wordOfBytes b0 b1 b2 b3) with
  | ok j =>
    simp only [decodeBytes, hdecode] at h
    obtain ⟨rfl, _⟩ := Prod.mk.inj (Except.ok.inj h)
    rfl
  | error e =>
    simp only [decodeBytes, hdecode] at h
    cases h

/-- The fetch reads the instruction whose bytes stand at the pc, lowest address first (R41, R47). -/
theorem State.fetch_of_bytes {s : State} {i : Instr} {rest : List Byte} (hroom : s.fq.length < s.fqCap)
    (hin : s.pc.toNat + 4 ≤ s.memSize)
    (hbytes : decodeBytes [s.mem.read s.pc.toNat, s.mem.read (s.pc.toNat + 1), s.mem.read (s.pc.toNat + 2),
      s.mem.read (s.pc.toNat + 3)] = .ok (i, rest)) : s.fetch = .instr i := by
  have hread : memRead s.mem s.memSize s.pc 4 = some _ :=
    memRead_eq_some.mpr ⟨hin, (s.mem.readLE_four s.pc.toNat).symm⟩
  have hdecode := decode_of_decodeBytes hbytes
  unfold wordOfBytes at hdecode
  unfold State.fetch
  rw [if_pos hroom, hread]
  simp only [hdecode]

/-- A cycle whose fetch reads an instruction is that instruction's meaning (R80). -/
theorem step_of_fetched {s b : State} {i : Instr} (hb : s.beforeFetch = .running b) (hfetch : b.fetch = .instr i) :
    step s = exec i s := by
  unfold step State.cycleStart
  rw [hb]
  simp only [hfetch]

/-- Settles O25: the fetch reads `i`, and the cycle takes in its record. -/
theorem stepRunsDecoded : Obligations.StepRunsDecoded := by
  unfold Obligations.StepRunsDecoded
  intro s b i hb hroom hin hbytes
  have hpc := State.beforeFetch_pc hb
  refine ⟨hpc, step_of_fetched hb (State.fetch_of_bytes hroom hin hbytes), { recordOf i with pc := b.pc }, hpc, ?_⟩
  rw [exec_eq_takeIn, State.takeIn, hb, ← hpc]
  exact congrArg State.afterFetch (State.enqueue_of_room hroom (recordOf i))

/-- Of the records, that of `HALT` alone is ready as soon as it is dispatched (R104). -/
theorem recordOf_ready (i : Instr) (pc : Word) :
    ({ recordOf i with pc := pc } : Record).robEntry.ready = (i == .halt) := by
  cases i <;> rfl

/-- A dispatch adds at most one entry to the load-store queue (R104). -/
theorem State.dispatch_lsq_count_le (s : State) (r : Record) (rest : List Record) :
    (s.dispatch r rest).lsq.count ≤ s.lsq.count + 1 := by
  obtain ⟨_, _, ⟨_, _, _, _, hlsq, _⟩ | ⟨_, _, _, _, _, hlsq, _⟩ | ⟨_, _, hlsq⟩⟩ := s.dispatch_cases r rest <;>
    rw [hlsq]
  · exact Nat.le_succ _
  · exact Nat.le_refl _
  · exact Nat.le_succ _

/-- Settles O26: a quiet core dispatches the record it takes in, and in its empty reorder buffer the tail is the head. -/
theorem quietTakesIn : Obligations.QuietTakesIn := by
  unfold Obligations.QuietTakesIn
  intro i s hq ht
  have hexec : exec i s = .next (firstState s (recordOf i)) := (exec_eq_takeIn i s).trans (quiet_takeIn hq ht _)
  have hcount : (firstState s (recordOf i)).lsq.count ≤ 1 := by
    have hle : (firstState s (recordOf i)).lsq.count ≤ s.lsq.count + 1 := State.dispatch_lsq_count_le _ _ _
    rwa [hq.lsqEmpty] at hle
  obtain ⟨rs, lsq, hfirst⟩ := State.dispatch_writes
    { s with cycles := s.cycles + 1, pc := s.pc + fall } { recordOf i with pc := s.pc } []
  have hslot : (s.rob.push { recordOf i with pc := s.pc : Record }.robEntry).slots[s.rob.head]? =
      some { recordOf i with pc := s.pc : Record }.robEntry := by
    rw [Fifo.push_slot _ _ (by rw [quiet_tail hq]; exact hq.robHead), if_pos (quiet_tail hq).symm]
  refine ⟨_, hexec, ?_⟩
  unfold firstState at hcount ⊢
  rw [hfirst] at hcount ⊢
  exact ⟨rfl, rfl, rfl, rfl, rfl, rfl, rfl, rfl, rfl, by simp [hq.robEmpty],
    ⟨_, hslot, rfl, recordOf_ready i s.pc⟩, hcount⟩

/-! ### What a cycle changes before phase (i) -/

/-- The architectural state and the status before phase (i) of a cycle that began in `s`: only a store writes memory, the
cycle may be counted, a fault may be raised, and nothing else has changed (R87). -/
structure Uncommitted (s u : State) : Prop where
  x : u.x = s.x
  mem : u.mem = s.mem ∨ ∃ ea n v, s.storesTo = some (ea, n) ∧ u.mem = s.mem.writeLE ea.toNat n v
  halted : u.halted = s.halted
  rollbacks : u.rollbacks = s.rollbacks
  cycles : u.cycles = s.cycles ∨ u.cycles = s.cycles + 1
  fault : u.fault = s.fault ∨ s.fault = .none
  faultAddr : u.faultAddr = s.faultAddr ∨ u.fault = .memoryAccessError

theorem Uncommitted.refl (s : State) : Uncommitted s s :=
  ⟨rfl, .inl rfl, rfl, rfl, .inl rfl, .inl rfl, .inl rfl⟩

theorem Uncommitted.of_same {s u v : State} (h : Uncommitted s u) (hsame : Same u v) (hcycles : v.cycles = u.cycles) :
    Uncommitted s v where
  x := hsame.x.trans h.x
  mem := by rw [hsame.mem]; exact h.mem
  halted := hsame.halted.trans h.halted
  rollbacks := hsame.rollbacks.trans h.rollbacks
  cycles := by rw [hcycles]; exact h.cycles
  fault := by rw [hsame.fault]; exact h.fault
  faultAddr := by rw [hsame.faultAddr, hsame.fault]; exact h.faultAddr

theorem Uncommitted.raise {s u : State} (h : Uncommitted s u) (hfault : s.fault = .none) (ea : Word) :
    Uncommitted s (u.raise (.memoryAccessError ea)) :=
  { h with fault := .inr hfault, faultAddr := .inr rfl }

theorem Uncommitted.atAttempt (s : State) : Uncommitted s s.atAttempt :=
  have hcount : Uncommitted s { s with cycles := s.cycles + 1 } := { Uncommitted.refl s with cycles := .inr rfl }
  have hsame : Same { s with cycles := s.cycles + 1 } s.atAttempt := { s.same_atAttempt with }
  hcount.of_same hsame s.atAttempt_cycles

/-- A store that stands marked at the head when phase (b) makes its attempt is the one `State.storesTo` names (R146). -/
theorem State.storesTo_of_store {s : State} {q : LsqEntry} {op : StoreOp} {base data : Word}
    (hfront : s.atAttempt.lsq.front? = some q) (hstore : q.IsStore op base data) (hready : q.ready = true) :
    s.storesTo = some (effectiveAddress base q.imm, op.width) := by
  simp [State.storesTo, hfront, hstore.op, hstore.o1, hstore.o2, hready]

/-- A cycle that reaches its fetch has written no more than the store's bytes, and the entry it will commit stands in the
commit latch (R121, R146). -/
theorem State.uncommitted_atFetch {s b : State} (hb : s.atAttempt.lsqAttempt = .running b) :
    Uncommitted s b.phaseC.phaseD ∧ b.phaseC.phaseD.commitLatch = s.commits := by
  obtain ⟨lsq, out, m, rfl, hm⟩ := State.lsqAttempt_running hb
  have hmem : m = s.mem ∨ ∃ ea n v, s.storesTo = some (ea, n) ∧ m = s.mem.writeLE ea.toNat n v := by
    rw [s.same_atAttempt.mem] at hm
    exact hm.imp_right fun ⟨q, op, base, data, hfront, hstore, hready, hw⟩ =>
      ⟨_, _, data, State.storesTo_of_store hfront hstore hready, hw⟩
  have hattempt : Uncommitted s { s.atAttempt with lsq := lsq, lsqOut := out, mem := m } :=
    { Uncommitted.atAttempt s with mem := hmem }
  exact ⟨hattempt.of_same (by constructor <;> simp) (by simp), by simp [State.commits]⟩

/-- A cycle that ends before its fetch commits nothing and writes no memory (R223 to R225). -/
theorem State.EndsEarly.uncommitted {s t : State} (h : s.EndsEarly t) : Uncommitted s t := by
  rcases h with ⟨_, rfl⟩ | ⟨hrun, _, rfl⟩ | ⟨hrun, _, ea, _, rfl⟩
  · exact Uncommitted.refl _
  · obtain ⟨_, hfault⟩ := State.stopped_eq_false.mp hrun
    exact { Uncommitted.refl s with fault := .inr hfault, faultAddr := .inl rfl }
  · obtain ⟨_, hfault⟩ := State.stopped_eq_false.mp hrun
    exact (Uncommitted.atAttempt s).raise hfault ea

/-- After the fetch only phase (i) writes architectural state (R87). -/
theorem State.afterFetch_eq_phaseI (s : State) :
    ∃ v, s.afterFetch = v.phaseI ∧ Same s v ∧ v.cycles = s.cycles ∧ v.commitLatch = s.commitLatch :=
  ⟨s.phaseF.phaseG.phaseH, rfl, by constructor <;> simp, by simp, by simp⟩

/-- A cycle's next state: the cycle ended before phase (i), or phase (i) made it by committing what phase (a) popped
(R80, R121, R123). -/
theorem cycle_cases {i : Instr} {s t : State} (h : exec i s = .next t ∨ step s = .next t) :
    Uncommitted s t ∨ ∃ v, Uncommitted s v ∧ v.commitLatch = s.commits ∧ v.phaseI = .next t := by
  have hafter {c : State} (hc : Uncommitted s c) (hlatch : c.commitLatch = s.commits) (ht : c.afterFetch = .next t) :
      ∃ v, Uncommitted s v ∧ v.commitLatch = s.commits ∧ v.phaseI = .next t := by
    obtain ⟨v, hv, hsame, hcycles, hkept⟩ := c.afterFetch_eq_phaseI
    exact ⟨v, hc.of_same hsame hcycles, hkept.trans hlatch, hv ▸ ht⟩
  have henqueue {c : State} (hc : Uncommitted s c) (r : Record) : Uncommitted s (c.enqueue r) :=
    hc.of_same (by constructor <;> simp) (by simp)
  rcases h with h | h
  · rw [exec_eq_takeIn] at h
    rcases s.takeIn_cases (recordOf i) with ⟨u, hu, hs⟩ | ⟨_, _, b, hb, hs⟩ <;> rw [hs] at h
    · exact .inl (Host.Outcome.next.inj h ▸ hu.uncommitted)
    · obtain ⟨hfetch, hlatch⟩ := State.uncommitted_atFetch hb
      exact .inr (hafter (henqueue hfetch _) (by rw [State.enqueue_commitLatch, hlatch]) h)
  · rcases step_cases s with ⟨u, hu, hs⟩ | ⟨hrun, _, b, hb, hs⟩
    · exact .inl (Host.Outcome.next.inj (hs.symm.trans h) ▸ hu.uncommitted)
    · obtain ⟨hfetch, hlatch⟩ := State.uncommitted_atFetch hb
      rcases hs with hs | hs | ⟨j, hs⟩ <;> rw [hs] at h
      · exact .inl (Host.Outcome.next.inj h ▸ hfetch.raise (State.stopped_eq_false.mp hrun).2 _)
      · exact .inr (hafter hfetch hlatch h)
      · exact .inr (hafter (henqueue hfetch _) (by rw [State.enqueue_commitLatch, hlatch]) h)

/-! ### What phase (i) changes -/

@[simp] theorem State.retireRegister_halted (s : State) (g : Tag) (rd : RegIdx) (v : Word) :
    (s.retireRegister g rd v).halted = s.halted := by
  unfold State.retireRegister
  split <;> rfl

@[simp] theorem State.retireRegister_rollbacks (s : State) (g : Tag) (rd : RegIdx) (v : Word) :
    (s.retireRegister g rd v).rollbacks = s.rollbacks := by
  unfold State.retireRegister
  split <;> rfl

/-- A register other than the destination keeps its value (R127, R128). -/
theorem State.retireRegister_readReg {s : State} {g : Tag} {rd r : RegIdx} {v : Word} (h : rd ≠ r) :
    (s.retireRegister g rd v).readReg r = s.readReg r := by
  unfold State.retireRegister
  split
  · rfl
  · exact (s.readReg_writeReg rd r v).trans (if_neg h.symm)

@[simp] theorem State.commitRedirect_x (s : State) (e : RobEntry) : (s.commitRedirect e).x = s.x := by
  unfold State.commitRedirect
  split <;> rfl

@[simp] theorem State.commitRedirect_halted (s : State) (e : RobEntry) : (s.commitRedirect e).halted = s.halted := by
  unfold State.commitRedirect
  split <;> rfl

/-- A redirect other than 4 is one rollback (R126). -/
theorem State.commitRedirect_rollbacks (s : State) (e : RobEntry) :
    (s.commitRedirect e).rollbacks = s.rollbacks ∨
      ((s.commitRedirect e).rollbacks = s.rollbacks + 1 ∧ e.redirect ≠ fall) := by
  unfold State.commitRedirect
  split
  · exact .inl rfl
  · rename_i hne
    exact .inr ⟨rfl, hne⟩

/-- Marking a store writes the load-store queue only (R129). -/
theorem State.markStore_writes {s u : State} {g : Tag} (h : s.markStore g = .next u) :
    ∃ lsq, u = { s with lsq := lsq } := by
  unfold State.markStore at h
  split at h
  · exact ⟨_, (Host.Outcome.next.inj h).symm⟩
  · cases h

/-- What Commit makes of an entry: `HALT`, a branch, a jump, a store, and every other kind, all of which write a register
(R123 to R129). -/
theorem State.commitEntry_cases {s u : State} {g : Tag} {e : RobEntry} (h : s.commitEntry g e = .next u) :
    (e.op = .halt ∧ u = { s with halted := true }) ∨
    (e.op.isControlFlow = true ∧ u = s.commitRedirect e) ∨
    (e.op.isControlFlow = true ∧ e.op.writesRegister = true ∧
      u = (s.retireRegister g e.rd (linkValue e.pc)).commitRedirect e) ∨
    (∃ lsq, u = { s with lsq := lsq }) ∨
    (e.op.writesRegister = true ∧ u = s.retireRegister g e.rd e.value) := by
  unfold State.commitEntry at h
  split at h <;> rename_i hop
  · exact .inl ⟨hop, (Host.Outcome.next.inj h).symm⟩
  · exact .inr (.inl ⟨congrArg OpKind.isControlFlow hop, (Host.Outcome.next.inj h).symm⟩)
  · exact .inr (.inr (.inl ⟨congrArg OpKind.isControlFlow hop, congrArg OpKind.writesRegister hop,
      (Host.Outcome.next.inj h).symm⟩))
  · exact .inr (.inr (.inr (.inl (State.markStore_writes h))))
  · exact .inr (.inr (.inr (.inr ⟨congrArg OpKind.writesRegister hop, (Host.Outcome.next.inj h).symm⟩)))
  · exact .inr (.inr (.inr (.inr ⟨congrArg OpKind.writesRegister hop, (Host.Outcome.next.inj h).symm⟩)))

section
variable {s u : State} {g : Tag} {e : RobEntry}

theorem State.commitEntry_readReg (h : s.commitEntry g e = .next u) {r : RegIdx}
    (hr : e.op.writesRegister = true → e.rd ≠ r) : u.readReg r = s.readReg r := by
  rcases State.commitEntry_cases h with ⟨_, rfl⟩ | ⟨_, rfl⟩ | ⟨_, hwrites, rfl⟩ | ⟨_, rfl⟩ | ⟨hwrites, rfl⟩
  · rfl
  · exact State.readReg_congr (s.commitRedirect_x e) r
  · rw [State.readReg_congr (State.commitRedirect_x _ e), State.retireRegister_readReg (hr hwrites)]
  · rfl
  · exact State.retireRegister_readReg (hr hwrites)

theorem State.commitEntry_halted (h : s.commitEntry g e = .next u) :
    u.halted = s.halted ∨ (u.halted = true ∧ e.op = .halt) := by
  rcases State.commitEntry_cases h with ⟨hop, rfl⟩ | ⟨_, rfl⟩ | ⟨_, _, rfl⟩ | ⟨_, rfl⟩ | ⟨_, rfl⟩
  · exact .inr ⟨rfl, hop⟩
  · exact .inl (s.commitRedirect_halted e)
  · simp
  · exact .inl rfl
  · simp

theorem State.commitEntry_rollbacks (h : s.commitEntry g e = .next u) :
    u.rollbacks = s.rollbacks ∨
      (u.rollbacks = s.rollbacks + 1 ∧ e.op.isControlFlow = true ∧ e.redirect ≠ fall) := by
  rcases State.commitEntry_cases h with ⟨_, rfl⟩ | ⟨hflow, rfl⟩ | ⟨hflow, _, rfl⟩ | ⟨_, rfl⟩ | ⟨_, rfl⟩
  · exact .inl rfl
  · exact (s.commitRedirect_rollbacks e).imp_right fun ⟨hone, hne⟩ => ⟨hone, hflow, hne⟩
  · have hredirect := (s.retireRegister g e.rd (linkValue e.pc)).commitRedirect_rollbacks e
    rw [State.retireRegister_rollbacks] at hredirect
    exact hredirect.imp_right fun ⟨hone, hne⟩ => ⟨hone, hflow, hne⟩
  · exact .inl rfl
  · simp

/-- No kind of entry writes memory, counts a cycle or raises when it is committed (R123 to R129). -/
theorem State.commitEntry_frame (h : s.commitEntry g e = .next u) :
    u.mem = s.mem ∧ u.cycles = s.cycles ∧ u.fault = s.fault ∧ u.faultAddr = s.faultAddr :=
  State.commitEntry_keeps
    (P := fun v => v.mem = s.mem ∧ v.cycles = s.cycles ∧ v.fault = s.fault ∧ v.faultAddr = s.faultAddr)
    (halt := fun _ hv => hv) (mark := fun _ _ hv => hv) (retire := fun _ _ _ _ hv => hv)
    (rollback := fun _ _ hv => hv) ⟨rfl, rfl, rfl, rfl⟩ h

end

/-- Phase (i), where it answers a next state: nothing was popped and nothing changes, or the entry popped is committed
and `x[0]` forced to 0 (R123, R130). -/
theorem State.phaseI_next {s t : State} (h : s.phaseI = .next t) :
    t = s ∨ ∃ g e u, s.commitLatch = some (g, e) ∧ State.commitEntry { s with commitLatch := none } g e = .next u ∧
      t = u.forceZero := by
  rcases s.phaseI_cases with ⟨_, hI⟩ | ⟨g, e, hlatch, ⟨u, hu, hI⟩ | ⟨_, _, _, hI⟩⟩ <;> rw [hI] at h
  · exact .inl (Host.Outcome.next.inj h).symm
  · exact .inr ⟨g, e, u, hlatch, hu, (Host.Outcome.next.inj h).symm⟩
  · cases h

/-- Forcing register 0 to 0 changes no register where it reads 0 (R130). -/
theorem State.forceZero_readReg {s : State} {r : RegIdx} (h : r = 0 → s.readReg r = 0) :
    s.forceZero.readReg r = s.readReg r := by
  rw [State.forceZero, State.readReg_writeReg]
  split
  · rename_i hr
    exact (h hr).symm
  · rfl

/-- Phase (i) writes no register but the destination of the entry popped, and register 0, which it forces to 0. -/
theorem State.phaseI_readReg {s t : State} (h : s.phaseI = .next t) (h0 : s.readReg 0 = 0) {r : RegIdx}
    (hr : ∀ g e, s.commitLatch = some (g, e) → e.op.writesRegister = true → e.rd ≠ r) : t.readReg r = s.readReg r := by
  rcases State.phaseI_next h with rfl | ⟨g, e, u, hlatch, hu, rfl⟩
  · rfl
  · have hkept : u.readReg r = s.readReg r := State.commitEntry_readReg hu (hr g e hlatch)
    exact (State.forceZero_readReg fun hzero => hkept.trans (hzero ▸ h0)).trans hkept

theorem State.phaseI_halted {s t : State} (h : s.phaseI = .next t) :
    t.halted = s.halted ∨ (t.halted = true ∧ ∃ g e, s.commitLatch = some (g, e) ∧ e.op = .halt) := by
  rcases State.phaseI_next h with rfl | ⟨g, e, u, hlatch, hu, rfl⟩
  · exact .inl rfl
  · exact (State.commitEntry_halted hu).imp_right fun ⟨hone, hop⟩ => ⟨hone, g, e, hlatch, hop⟩

theorem State.phaseI_rollbacks {s t : State} (h : s.phaseI = .next t) :
    t.rollbacks = s.rollbacks ∨ (t.rollbacks = s.rollbacks + 1 ∧ ∃ g e, s.commitLatch = some (g, e) ∧
      e.op.isControlFlow = true ∧ e.redirect ≠ fall) := by
  rcases State.phaseI_next h with rfl | ⟨g, e, u, hlatch, hu, rfl⟩
  · exact .inl rfl
  · exact (State.commitEntry_rollbacks hu).imp_right fun ⟨hone, hentry⟩ => ⟨hone, g, e, hlatch, hentry⟩

theorem State.phaseI_frame {s t : State} (h : s.phaseI = .next t) :
    t.mem = s.mem ∧ t.cycles = s.cycles ∧ t.fault = s.fault ∧ t.faultAddr = s.faultAddr := by
  rcases State.phaseI_next h with rfl | ⟨g, e, u, _, hu, rfl⟩
  · exact ⟨rfl, rfl, rfl, rfl⟩
  · exact (State.commitEntry_frame hu :)

/-! ### The frames of a cycle -/

/-- A cycle writes memory before phase (i) only, so it writes no more than the store's bytes (R146). -/
theorem cycle_mem {i : Instr} {s t : State} (h : exec i s = .next t ∨ step s = .next t) :
    t.mem = s.mem ∨ ∃ ea n v, s.storesTo = some (ea, n) ∧ t.mem = s.mem.writeLE ea.toNat n v := by
  rcases cycle_cases h with ht | ⟨v, hv, _, hI⟩
  · exact ht.mem
  · rw [(State.phaseI_frame hI).1]
    exact hv.mem

/-- Settles O50: phase (i) alone writes registers, when it commits the entry phase (a) popped. -/
theorem registerFrame : Obligations.RegisterFrame := by
  unfold Obligations.RegisterFrame
  intro i s t h0 h r hr
  rcases cycle_cases h with ht | ⟨v, hv, hlatch, hI⟩
  · exact State.readReg_congr ht.x r
  · rw [← hlatch] at hr
    exact (State.phaseI_readReg hI ((State.readReg_congr hv.x 0).trans h0) hr).trans (State.readReg_congr hv.x r)

/-- Settles O51: outside the bytes of the one sized write of `cycle_mem` every byte reads as before. -/
theorem memoryFrame : Obligations.MemoryFrame := by
  unfold Obligations.MemoryFrame
  intro i s t hwf h
  rcases cycle_mem h with hmem | ⟨ea, n, v, hstore, hmem⟩
  · rw [hmem]
    exact ⟨fun _ _ _ _ _ => rfl, fun _ _ => rfl⟩
  · rw [hmem]
    refine ⟨fun ea' n' hstore' b hb => ?_, fun hnone => ?_⟩
    · obtain ⟨rfl, rfl⟩ := Prod.mk.inj (Option.some.inj (hstore.symm.trans hstore'))
      rw [Memory.read_writeLE hwf, if_neg (by omega)]
    · rw [hstore] at hnone
      cases hnone

/-- Settles O52: before phase (i) only the cycle count and the fault can change, and what phase (i) adds comes of the
entry phase (a) popped. -/
theorem statusFrame : Obligations.StatusFrame := by
  unfold Obligations.StatusFrame
  intro i s t h
  rcases cycle_cases h with ht | ⟨v, hv, hlatch, hI⟩
  · exact ⟨fun hne => absurd ht.halted hne, fun hne => absurd ht.rollbacks hne, ht.cycles, ht.fault, ht.faultAddr⟩
  · have hhalted := State.phaseI_halted hI
    have hrollbacks := State.phaseI_rollbacks hI
    obtain ⟨_, hcycles, hfault, haddr⟩ := State.phaseI_frame hI
    rw [hlatch, hv.halted] at hhalted
    rw [hlatch, hv.rollbacks] at hrollbacks
    rw [hcycles, hfault, haddr]
    exact ⟨hhalted.resolve_left, hrollbacks.resolve_left, hv.cycles, hv.fault, hv.faultAddr⟩

end Sys2Proof.Machine

/-! Fetch, dispatch and the register status table (spec/41_fetch_dispatch_rename.md): what phase (d) makes of one register,
what the operand resolver answers, when dispatch waits and what it builds, and the cycles whose fetch takes nothing in. -/

namespace Sys2Proof.Machine

/-! ### The register status table (R108, R109) -/

theorem State.lock_readRst (s : State) (r q : RegIdx) (t : Tag) :
    (s.lock r t).readRst q = if q = r then { busy := true, tag := t } else s.readRst q :=
  s.readRst_writeRst r q _

@[simp] theorem State.lock_rob (s : State) (r : RegIdx) (t : Tag) : (s.lock r t).rob = s.rob := rfl

/-- An unlock whose tag a register is busy with frees it, the tag kept (R109). -/
theorem State.unlock_readRst_of_match {s : State} {r : RegIdx} {t : Tag} (hbusy : (s.readRst r).busy = true)
    (htag : (s.readRst r).tag = t) : (s.unlock r t).readRst r = { busy := false, tag := t } := by
  rw [State.unlock, if_pos ⟨hbusy, htag⟩, State.readRst_writeRst, if_pos rfl, ← htag]

/-- An unlock of a register that is free, or busy with another tag, does nothing (R109). -/
theorem State.unlock_of_mismatch {s : State} {r : RegIdx} {t : Tag}
    (h : (s.readRst r).busy = false ∨ (s.readRst r).tag ≠ t) : s.unlock r t = s := by
  refine if_neg ?_
  rintro ⟨hbusy, htag⟩
  rcases h with hfree | hother
  · rw [hfree] at hbusy
    cases hbusy
  · exact hother htag

theorem State.unlock_readRst_of_ne (s : State) {r q : RegIdx} (t : Tag) (h : q ≠ r) :
    (s.unlock r t).readRst q = s.readRst q := by
  unfold State.unlock
  split
  · rw [State.readRst_writeRst, if_neg h]
  · rfl

@[simp] theorem State.applyUnlock_lockReq (s : State) : s.applyUnlock.lockReq = s.lockReq := by
  unfold State.applyUnlock State.unlock
  split
  · split <;> rfl
  · rfl

theorem State.applyUnlock_of_some {s : State} {r : RegIdx} {t : Tag} (h : s.unlockReq = some (r, t)) :
    s.applyUnlock = s.unlock r t := by
  rw [State.applyUnlock, h]

/-- Without a staged unlock that matches, a register's entry stays (R108, R109). -/
theorem State.applyUnlock_readRst_of_mismatch {s : State} {r : RegIdx}
    (h : ∀ t, s.unlockReq = some (r, t) → (s.readRst r).busy = false ∨ (s.readRst r).tag ≠ t) :
    s.applyUnlock.readRst r = s.readRst r := by
  unfold State.applyUnlock
  split
  · rename_i q t hreq
    by_cases hq : r = q
    · subst hq
      rw [State.unlock_of_mismatch (h t hreq)]
    · exact s.unlock_readRst_of_ne t hq
  · rfl

/-- The lock is applied last, so it wins (R108). -/
theorem State.phaseD_readRst_of_lock {s : State} {r : RegIdx} {t : Tag} (h : s.lockReq = some (r, t)) :
    s.phaseD.readRst r = { busy := true, tag := t } := by
  rw [State.phaseD, State.applyLock, State.applyUnlock_lockReq, h]
  exact (State.lock_readRst _ r r t).trans (if_pos rfl)

/-- A register that no staged lock names is as the unlock left it (R108). -/
theorem State.phaseD_readRst_of_no_lock {s : State} {r : RegIdx} (h : ∀ t, s.lockReq ≠ some (r, t)) :
    s.phaseD.readRst r = s.applyUnlock.readRst r := by
  unfold State.phaseD State.applyLock
  split
  · rename_i q t hreq
    rw [State.applyUnlock_lockReq] at hreq
    rw [State.lock_readRst, if_neg]
    rintro rfl
    exact h t hreq
  · rfl

/-- Settles O18: the lock comes after the unlock, and the unlock asks for its tag. -/
theorem unlockThenLock : Obligations.UnlockThenLock := by
  unfold Obligations.UnlockThenLock
  intro s r
  refine ⟨?_, fun t => State.phaseD_readRst_of_lock, fun hlock => ⟨fun t hreq hbusy htag => ?_, fun hunlock => ?_⟩⟩
  · obtain ⟨rst, hD⟩ := s.phaseD_writes
    rw [hD]
  · rw [State.phaseD_readRst_of_no_lock hlock, State.applyUnlock_of_some hreq,
      State.unlock_readRst_of_match hbusy htag]
  · rw [State.phaseD_readRst_of_no_lock hlock, State.applyUnlock_readRst_of_mismatch hunlock]

/-! ### The operand resolver (R106) -/

@[simp] theorem State.resolve_zero (s : State) : s.resolve 0 = .val 0 := if_pos rfl

theorem State.resolve_of_free {s : State} {r : RegIdx} (h0 : r ≠ 0) (h : (s.readRst r).busy = false) :
    s.resolve r = .val (s.readReg r) := by
  rw [State.resolve, if_neg h0, h]
  rfl

theorem State.resolve_of_busy {s : State} {r : RegIdx} {e : RobEntry} (h0 : r ≠ 0) (h : (s.readRst r).busy = true)
    (hslot : s.rob.slots[(s.readRst r).tag]? = some e) :
    s.resolve r = if e.ready then .val e.value else .tag (s.readRst r).tag := by
  simp only [State.resolve, h0, h, hslot, if_false, if_true]

/-- Settles O20: a lemma for each case of the resolver. -/
theorem operandResolution : Obligations.OperandResolution := by
  unfold Obligations.OperandResolution
  exact fun s _ => ⟨s.resolve_zero, State.resolve_of_free, fun _ => State.resolve_of_busy⟩

/-- A reader of a register locked by a producer that is not ready gets the producer's tag (R106, R111). -/
theorem State.resolve_of_pending {s : State} {r : RegIdx} {t : Tag} {e : RobEntry} (h0 : r ≠ 0)
    (h : s.readRst r = { busy := true, tag := t }) (hslot : s.rob.slots[t]? = some e) (hready : e.ready = false) :
    s.resolve r = .tag t := by
  rw [State.resolve_of_busy h0 (by rw [h]) (by rw [h]; exact hslot), h, hready]
  rfl

/-- Settles O19: the first producer's unlock no longer finds its tag, and a lock outlives the unlock applied with it. -/
theorem newestProducerWins : Obligations.NewestProducerWins := by
  unfold Obligations.NewestProducerWins
  intro s r t1 t2 e h0 hslot hready
  refine ⟨fun hne => ?_, fun hlock _ => ?_⟩
  · have hnewest : ((s.lock r t1).lock r t2).readRst r = { busy := true, tag := t2 } := by
      rw [State.lock_readRst, if_pos rfl]
    rw [State.unlock_of_mismatch (.inr (by rw [hnewest]; exact hne.symm))]
    exact State.resolve_of_pending h0 hnewest hslot hready
  · exact State.resolve_of_pending h0 (State.phaseD_readRst_of_lock hlock) (by rwa [State.phaseD_rob]) hready

/-! ### Dispatch (R103 to R107, R110) -/

/-- What a record needs to be dispatched: a reorder-buffer slot, and a slot where its kind goes (R103). -/
theorem State.canDispatch_iff {s : State} {r : Record} :
    s.canDispatch r = true ↔ s.rob.count < s.rob.capacity ∧
      ((∃ op, r.op = .rs op ∧ ∃ e ∈ s.rs, e.busy = false) ∨ (∃ op, r.op = .mem op ∧ s.lsq.count < s.lsq.capacity) ∨
        r.op = .halt) := by
  rw [State.canDispatch, Bool.and_eq_true]
  refine and_congr (by simp [Fifo.hasRoom]) ?_
  cases r.op <;> simp [State.hasSlotFor, Fifo.hasRoom]

/-- A record that can be dispatched is. -/
theorem State.phaseH_of_canDispatch {s : State} {r : Record} {rest : List Record} (hfq : s.fq = r :: rest)
    (h : s.canDispatch r = true) : s.phaseH = s.dispatch r rest := by
  simp only [State.phaseH, hfq, h, if_true]

/-- Dispatch takes the record off the fetch queue and writes the reorder buffer, the stations, the load-store queue and
the staged lock besides (R104). -/
theorem State.dispatch_frame (s : State) (r : Record) (rest : List Record) :
    s.dispatch r rest = { s with
      fq := rest, rob := (s.dispatch r rest).rob, rs := (s.dispatch r rest).rs, lsq := (s.dispatch r rest).lsq,
      lockReq := (s.dispatch r rest).lockReq } := by
  obtain ⟨_, _, h⟩ := s.dispatch_writes r rest
  rw [h]

/-- Settles O21: of the two cases of phase (h), a dispatch has the slots whose lack stalls it. -/
theorem dispatchStalls : Obligations.DispatchStalls := by
  unfold Obligations.DispatchStalls
  intro s
  refine ⟨fun hfq => ?_, fun r rest hfq hstall => ?_, fun r rest hfq hop hroom => ?_⟩
  · rw [State.phaseH, hfq]
  · rcases s.phaseH_cases with hkept | ⟨r', rest', hfq', hrob, hrs, hlsq, _⟩
    · exact hkept
    · obtain ⟨rfl, _⟩ := List.cons.inj (hfq.symm.trans hfq')
      rcases hstall with hfull | ⟨op, hop, hbusy⟩ | ⟨op, hop, hfull⟩
      · omega
      · obtain ⟨e, he, hfree⟩ := hrs op hop
        rw [hbusy e he] at hfree
        cases hfree
      · have := hlsq op hop
        omega
  · rw [State.phaseH_of_canDispatch hfq (State.canDispatch_iff.mpr ⟨hroom, .inr (.inr hop)⟩), State.dispatch_frame]

/-- The lock staged after a dispatch: the record's, if it has one (R110). -/
theorem State.dispatch_lockReq (s : State) (r : Record) (rest : List Record) :
    (s.dispatch r rest).lockReq =
      if r.op.writesRegister ∧ r.rd ≠ 0 then some (r.rd, s.rob.tail) else s.lockReq := by
  obtain ⟨_, _, h⟩ := s.dispatch_writes r rest
  rw [h, Record.lock]
  split <;> rfl

/-- A record for a station goes to a free one (R104). -/
theorem State.dispatch_rs {s : State} {r : Record} {op : RsOp} (rest : List Record) (hop : r.op = .rs op) :
    (s.dispatch r rest).lsq = s.lsq ∧ (s.dispatch r rest).rs = fillFirst
      { busy := true, op := op, o1 := s.sourceOperand r.op.usesRs1 r.rs1, o2 := s.sourceOperand r.op.usesRs2 r.rs2,
        imm := r.imm, dest := s.rob.tail, pc := r.pc } s.rs := by
  rw [State.dispatch, hop]
  exact ⟨rfl, rfl⟩

/-- A record for the load-store queue goes to its tail (R104). -/
theorem State.dispatch_mem {s : State} {r : Record} {op : MemOp} (rest : List Record) (hop : r.op = .mem op) :
    (s.dispatch r rest).rs = s.rs ∧ (s.dispatch r rest).lsq = s.lsq.push
      { op := op, o1 := s.sourceOperand r.op.usesRs1 r.rs1, o2 := s.sourceOperand r.op.usesRs2 r.rs2, imm := r.imm,
        dest := s.rob.tail, ready := false, reported := false } := by
  rw [State.dispatch, hop]
  exact ⟨rfl, rfl⟩

/-- `HALT` goes to the reorder buffer only (R104). -/
theorem State.dispatch_halt {s : State} {r : Record} (rest : List Record) (hop : r.op = .halt) :
    (s.dispatch r rest).rs = s.rs ∧ (s.dispatch r rest).lsq = s.lsq := by
  rw [State.dispatch, hop]
  exact ⟨rfl, rfl⟩

/-- Settles O22: with its slots free the record is dispatched, and each structure is what `dispatch` makes of it. -/
theorem dispatchBuildsEntries : Obligations.DispatchBuildsEntries := by
  unfold Obligations.DispatchBuildsEntries
  intro s r rest hfq hroom
  refine ⟨s.sourceOperand r.op.usesRs1 r.rs1, s.sourceOperand r.op.usesRs2 r.rs2, rfl, rfl, fun hslot => ?_⟩
  rw [State.phaseH_of_canDispatch hfq (State.canDispatch_iff.mpr ⟨hroom, hslot⟩)]
  obtain ⟨hrob, _⟩ := s.dispatch_cases r rest
  refine ⟨s.dispatch_frame r rest, by rw [hrob, Fifo.push_head], by rw [hrob, Fifo.push_count], fun j => ?_,
    s.dispatch_lockReq r rest, fun op hop => ?_, fun op hop => ?_, State.dispatch_halt rest⟩
  · rw [hrob]
    exact Fifo.push_slot _ j (Fifo.tail_lt (Nat.zero_lt_of_lt hroom))
  · have hfree : ∃ e ∈ s.rs, e.busy = false := by simpa [hop] using hslot
    obtain ⟨hlsq, hrs⟩ := State.dispatch_rs rest hop
    obtain ⟨i, e, hfirst, hbusy, hset, hbefore⟩ := fillFirst_eq_set _ hfree
    exact ⟨hlsq, i, e, hfirst, hbusy, hbefore, hrs.trans hset⟩
  · have hlsqRoom : s.lsq.count < s.lsq.capacity := by simpa [hop] using hslot
    obtain ⟨hrs, hlsq⟩ := State.dispatch_mem rest hop
    rw [hlsq]
    exact ⟨hrs, Fifo.push_head _, Fifo.push_count _,
      fun j => Fifo.push_slot _ j (Fifo.tail_lt (Nat.zero_lt_of_lt hlsqRoom))⟩

/-! ### Cycles that take nothing in (R100, R102) -/

theorem State.fetch_of_full {s : State} (h : s.fqCap ≤ s.fq.length) : s.fetch = .queueFull :=
  if_neg (by omega)

theorem State.fetch_of_undecodable {s : State} {w : Word} {e : DecodeError} (hroom : s.fq.length < s.fqCap)
    (hread : memRead s.mem s.memSize s.pc 4 = some w) (hdecode : decode w = .error e) :
    s.fetch = .undecodable e := by
  unfold State.fetch
  rw [if_pos hroom, hread]
  simp only [hdecode]

/-- With a full fetch queue the later phases follow (R100). -/
theorem step_of_full {s b : State} (hb : s.beforeFetch = .running b) (h : b.fqCap ≤ b.fq.length) :
    step s = b.afterFetch := by
  unfold step State.cycleStart
  rw [hb]
  simp only [State.fetch_of_full h]

/-- With an undecodable word the later phases follow, and `decode_error` pulses (R102, R222). -/
theorem step_of_undecodable {s b : State} {w : Word} {e : DecodeError} (hb : s.beforeFetch = .running b)
    (hroom : b.fq.length < b.fqCap) (hread : memRead b.mem b.memSize b.pc 4 = some w) (hdecode : decode w = .error e) :
    step s = b.afterFetch ∧ s.decodeError = true := by
  have hfetch := State.fetch_of_undecodable hroom hread hdecode
  unfold step State.cycleStart State.decodeError
  rw [hb]
  simp only [hfetch, and_self]

/-- Settles O24: a lemma for each answer of the fetch that is no instruction. -/
theorem fetchTakesNothingIn : Obligations.FetchTakesNothingIn := by
  unfold Obligations.FetchTakesNothingIn
  exact fun s b hb => ⟨step_of_full hb, step_of_fetch_outOfRange hb, fun _ _ => step_of_undecodable hb⟩

/-- The swap point has nothing to clear where the buses and the staged requests are empty (R83). -/
theorem State.phaseF_of_clear {s : State} (hcdb : s.cdb = []) (hsig : s.robSig = []) (hlock : s.lockReq = none)
    (hunlock : s.unlockReq = none) : s.phaseF = s := by
  cases s
  simp_all [State.phaseF]

/-- The arbiter drives no bus where neither producer has a result (R151). -/
theorem State.phaseG_of_idle {s : State} (hexec : s.execLatch = none) (hout : s.lsqOut = none) : s.phaseG = s := by
  cases s
  simp_all [State.phaseG]

/-- After its fetch a quiet core that has taken nothing in does nothing. -/
theorem Quiet.afterFetch {s : State} (h : Quiet s) : s.afterFetch = .next s := by
  have hdispatch : s.phaseH = s := by rw [State.phaseH, h.fqEmpty]
  rw [State.afterFetch, State.phaseF_of_clear h.cdb h.robSig h.lockReq h.unlockReq,
    State.phaseG_of_idle h.execLatch h.lsqOut, hdispatch]
  exact State.phaseI_of_none h.commitLatch

/-- Settles O47: a quiet core reaches its fetch with only the cycle counted, and the later phases find nothing to do. -/
theorem undecodableWordStalls : Obligations.UndecodableWordStalls := by
  unfold Obligations.UndecodableWordStalls
  intro s w e hq ht hread hdecode
  have hcounted : Quiet { s with cycles := s.cycles + 1 } := quiet_with hq (s.cycles + 1) s.pc
  obtain ⟨hstep, herror⟩ :=
    step_of_undecodable (quiet_beforeFetch hq ht) (by simp [hq.fqEmpty, hq.fqCap]) hread hdecode
  exact ⟨hstep.trans hcounted.afterFetch, herror⟩

end Sys2Proof.Machine

/-! The reorder buffer (spec/42_rob_commit_rollback.md): what phase (a) makes of each slot and of the head, what Commit
makes of each kind of entry, and what a Rollback leaves. -/

namespace Sys2Proof.Machine

/-! ### Phase (a): a bus delivers to the live slots (R120) -/

/-- What a result does to the entry it is for. -/
def RobEntry.takeResult (v : Word) (e : RobEntry) : RobEntry := { e with value := v, ready := true }

/-- What a ready signal does to the entry it is for. -/
def RobEntry.takeSignal (r : Word) (e : RobEntry) : RobEntry := { e with redirect := r, ready := true }

/-- A broadcast that changes the live slot it names by `g`: the form of `applyResult` and of `applySignal`. -/
def Fifo.deliver {α : Type} (g : Word → α → α) (f : Fifo α) (b : Tag × Word) : Fifo α :=
  if f.live b.1 then f.modify b.1 (g b.2) else f

theorem State.robCapture_rob (s : State) :
    s.robCapture.rob =
      s.robSig.foldl (Fifo.deliver RobEntry.takeSignal) (s.cdb.foldl (Fifo.deliver RobEntry.takeResult) s.rob) := rfl

section
variable {α : Type} {f : Fifo α} {g : Word → α → α} {t : Tag} {e : α}

theorem Fifo.deliver_live (b : Tag × Word) : (f.deliver g b).live t = f.live t := by
  unfold Fifo.deliver
  split
  · exact Fifo.live_congr (Fifo.modify_head _ _) (Fifo.modify_count _ _) (Fifo.modify_capacity _ _) t
  · rfl

theorem Fifo.deliver_slot_of_ne (b : Tag × Word) (h : f.live t = false ∨ t ≠ b.1) :
    (f.deliver g b).slots[t]? = f.slots[t]? := by
  unfold Fifo.deliver
  split
  · rename_i hlive
    rw [Fifo.modify_slot, if_neg]
    rintro rfl
    simp [hlive] at h
  · rfl

theorem Fifo.deliver_slot_of_live (v : Word) (hlive : f.live t = true) :
    (f.deliver g (t, v)).slots[t]? = (f.slots[t]?).map (g v) := by
  rw [Fifo.deliver, if_pos hlive, Fifo.modify_slot, if_pos rfl]

theorem Fifo.deliverAll_live (bus : List (Tag × Word)) : (bus.foldl (Fifo.deliver g) f).live t = f.live t := by
  induction bus generalizing f with
  | nil => rfl
  | cons b bus ih => rw [List.foldl_cons, ih, Fifo.deliver_live]

/-- A slot that is dead, or that the bus does not name, stays. -/
theorem Fifo.deliverAll_slot_of_unnamed (bus : List (Tag × Word)) (h : f.live t = false ∨ t ∉ bus.map Prod.fst) :
    (bus.foldl (Fifo.deliver g) f).slots[t]? = f.slots[t]? := by
  induction bus generalizing f with
  | nil => rfl
  | cons b bus ih =>
    rw [List.map_cons, List.mem_cons, not_or] at h
    rw [List.foldl_cons, ih (by rw [Fifo.deliver_live]; exact h.imp_right And.right),
      Fifo.deliver_slot_of_ne b (h.imp_right And.left)]

/-- A live slot that the bus names takes what the bus carries for it, given once (R153). -/
theorem Fifo.deliverAll_slot_of_named {bus : List (Tag × Word)} {v : Word} (hbus : (bus.map Prod.fst).Nodup)
    (hlive : f.live t = true) (hv : (t, v) ∈ bus) :
    (bus.foldl (Fifo.deliver g) f).slots[t]? = (f.slots[t]?).map (g v) := by
  induction bus generalizing f with
  | nil => cases hv
  | cons b bus ih =>
    obtain ⟨hfresh, hrest⟩ := List.nodup_cons.mp hbus
    rw [List.foldl_cons]
    rcases List.mem_cons.mp hv with rfl | hv
    · rw [Fifo.deliverAll_slot_of_unnamed bus (.inr hfresh), Fifo.deliver_slot_of_live v hlive]
    · have hne : t ≠ b.1 := by
        rintro rfl
        exact hfresh (List.mem_map.mpr ⟨_, hv, rfl⟩)
      rw [ih hrest (by rwa [Fifo.deliver_live]) hv, Fifo.deliver_slot_of_ne b (.inr hne)]

/-- What a bus makes of the entry `e` for tag `t`: where it does not name `t` the entry stays, where it does the entry
takes what it carries. -/
structure Delivered (g : Word → α → α) (bus : List (Tag × Word)) (t : Tag) (e e' : α) : Prop where
  absent : t ∉ bus.map Prod.fst → e' = e
  named : ∀ v, (t, v) ∈ bus → e' = g v e

theorem Fifo.deliverAll_slot {bus : List (Tag × Word)} (hbus : (bus.map Prod.fst).Nodup) (h : f.slots[t]? = some e) :
    ∃ e', (bus.foldl (Fifo.deliver g) f).slots[t]? = some e' ∧
      (f.live t = false → e' = e) ∧ (f.live t = true → Delivered g bus t e e') := by
  have hunnamed (hn : f.live t = false ∨ t ∉ bus.map Prod.fst) :
      (bus.foldl (Fifo.deliver g) f).slots[t]? = some e := (Fifo.deliverAll_slot_of_unnamed bus hn).trans h
  have hnamed (hlive : f.live t = true) (v : Word) (hv : (t, v) ∈ bus) :
      (bus.foldl (Fifo.deliver g) f).slots[t]? = some (g v e) := by
    rw [Fifo.deliverAll_slot_of_named hbus hlive hv, h]
    rfl
  obtain ⟨e', he'⟩ : ∃ e', (bus.foldl (Fifo.deliver g) f).slots[t]? = some e' := by
    by_cases hn : f.live t = false ∨ t ∉ bus.map Prod.fst
    · exact ⟨_, hunnamed hn⟩
    · rw [not_or, not_not, Bool.not_eq_false, List.mem_map] at hn
      obtain ⟨hlive, ⟨_, v⟩, hv, rfl⟩ := hn
      exact ⟨_, hnamed hlive v hv⟩
  exact ⟨e', he', fun hdead => Option.some.inj (he'.symm.trans (hunnamed (.inl hdead))), fun hlive =>
    ⟨fun ht => Option.some.inj (he'.symm.trans (hunnamed (.inr ht))),
      fun v hv => Option.some.inj (he'.symm.trans (hnamed hlive v hv))⟩⟩

/-- A field that the bus does not write stays. -/
theorem Delivered.field {β : Type} {e' : α} {bus : List (Tag × Word)} (h : Delivered g bus t e e') (field : α → β)
    (hg : ∀ v, field (g v e) = field e) : field e' = field e := by
  by_cases ht : t ∈ bus.map Prod.fst
  · obtain ⟨⟨_, v⟩, hv, rfl⟩ := List.mem_map.mp ht
    rw [h.named v hv, hg]
  · rw [h.absent ht]

end

/-- What a bus names is ready (R120). -/
theorem Delivered.ready {g : Word → RobEntry → RobEntry} {t : Tag} {e e' : RobEntry} {bus : List (Tag × Word)}
    (h : Delivered g bus t e e') (hg : ∀ v, (g v e).ready = true) :
    e'.ready = true ↔ e.ready = true ∨ t ∈ bus.map Prod.fst := by
  by_cases ht : t ∈ bus.map Prod.fst
  · obtain ⟨⟨_, v⟩, hv, rfl⟩ := List.mem_map.mp ht
    simp only [h.named v hv, hg, ht, or_true]
  · simp only [h.absent ht, ht, or_false]

/-- Part 1 of phase (a) writes the slots of the reorder buffer only, and keeps their number (R120). -/
theorem State.robCapture_writes (s : State) :
    s.robCapture = { s with rob := { s.rob with slots := s.robCapture.rob.slots } } ∧
      s.robCapture.rob.slots.length = s.rob.slots.length := by
  obtain ⟨hhead, hcount, hcapacity⟩ := s.robCapture_shape
  have hrob : s.robCapture.rob = ⟨s.robCapture.rob.slots, s.rob.head, s.rob.count⟩ := by rw [← hhead, ← hcount]
  exact ⟨congrArg (fun rob => { s with rob := rob }) hrob, hcapacity⟩

/-- Settles O10: `cdb` delivers to the slot first, then `rob_sig` to what `cdb` has left. -/
theorem robCapturesBroadcasts : Obligations.RobCapturesBroadcasts := by
  unfold Obligations.RobCapturesBroadcasts
  intro s t e hcdb hsig hslot
  obtain ⟨hwrites, hlength⟩ := s.robCapture_writes
  obtain ⟨e₁, hslot₁, hdead₁, hlive₁⟩ := Fifo.deliverAll_slot (g := RobEntry.takeResult) hcdb hslot
  obtain ⟨e₂, hslot₂, hdead₂, hlive₂⟩ := Fifo.deliverAll_slot (g := RobEntry.takeSignal) hsig hslot₁
  rw [Fifo.deliverAll_live] at hdead₂ hlive₂
  rw [← s.robCapture_rob] at hslot₂
  refine ⟨s.robCapture.rob.slots, e₂, hwrites, hlength, hslot₂, fun hdead => (hdead₂ hdead).trans (hdead₁ hdead),
    fun hlive => ?_⟩
  have hresult := hlive₁ hlive
  have hsignal := hlive₂ hlive
  have hkind : (e₂.op, e₂.rd, e₂.pc) = (e.op, e.rd, e.pc) :=
    (hsignal.field (fun x => (x.op, x.rd, x.pc)) fun _ => rfl).trans
      (hresult.field (fun x => (x.op, x.rd, x.pc)) fun _ => rfl)
  have hvalue : e₂.value = e₁.value := hsignal.field RobEntry.value fun _ => rfl
  have hredirect : e₁.redirect = e.redirect := hresult.field RobEntry.redirect fun _ => rfl
  simp only [Prod.mk.injEq] at hkind
  obtain ⟨hop, hrd, hpc⟩ := hkind
  refine ⟨hop, hrd, hpc, fun v hv => ?_, fun ht => ?_, fun r hr => ?_, fun ht => ?_, ?_⟩
  · rw [hvalue, hresult.named v hv, RobEntry.takeResult]
  · rw [hvalue, hresult.absent ht]
  · rw [hsignal.named r hr, RobEntry.takeSignal]
  · rw [hsignal.absent ht, hredirect]
  · rw [hsignal.ready fun _ => rfl, hresult.ready fun _ => rfl, or_assoc]

/-! ### Phase (a): the head (R121) -/

theorem State.robPop_of_ready {s : State} {e : RobEntry} (h : s.rob.front? = some e) (hr : e.ready = true) :
    s.robPop = { s with commitLatch := some (s.rob.head, e), rob := s.rob.pop } := by
  simp only [State.robPop, h, hr, if_true]

theorem State.robPop_of_waiting {s : State} (h : ∀ e, s.rob.front? = some e → e.ready = false) :
    s.robPop = { s with commitLatch := none } := by
  unfold State.robPop
  split
  · rename_i e he
    rw [h e he, if_neg Bool.false_ne_true]
  · rfl

/-- Settles O11: after the captures the head stands in the slot where it stood before them. -/
theorem robPopsReadyHead : Obligations.RobPopsReadyHead := by
  unfold Obligations.RobPopsReadyHead
  intro s
  obtain ⟨hhead, hcount, hcapacity⟩ := s.robCapture_shape
  refine ⟨fun e hne hslot hready => ?_, fun hstays => ?_⟩
  · have hfront : s.robCapture.rob.front? = some e :=
      Fifo.front?_eq_some.mpr ⟨by rwa [hcount], by rwa [hhead]⟩
    rw [State.phaseA, State.robPop_of_ready hfront hready, Fifo.pop, hhead, hcount, hcapacity]
  · refine State.robPop_of_waiting fun e hfront => ?_
    obtain ⟨hne, hslot⟩ := Fifo.front?_eq_some.mp hfront
    rw [hcount] at hne
    rw [hhead] at hslot
    rcases hstays with hempty | ⟨d, hd, hready⟩
    · exact absurd hempty hne
    · exact Option.some.inj (hslot.symm.trans hd) ▸ hready

/-! ### Phase (i): Commit, kind by kind (R123 to R129) -/

/-- The entries that await a mark are stores, not marked. -/
theorem LsqEntry.awaitsMark_iff {t : Tag} {q : LsqEntry} :
    q.awaitsMark t = true ↔ (∃ op, q.op = .store op) ∧ q.ready = false ∧ q.dest = t := by
  unfold LsqEntry.awaitsMark
  cases q.op <;> simp

section
variable {s : State} {t : Tag} {e : RobEntry}

theorem State.commitEntry_halt (h : e.op = .halt) : s.commitEntry t e = .next { s with halted := true } := by
  rw [State.commitEntry, h]

theorem State.commitEntry_branch {op : BranchOp} (h : e.op = .rs (.branch op)) :
    s.commitEntry t e = .next (s.commitRedirect e) := by
  rw [State.commitEntry, h]

theorem State.commitEntry_jump {op : JumpOp} (h : e.op = .rs (.jump op)) :
    s.commitEntry t e = .next ((s.retireRegister t e.rd (linkValue e.pc)).commitRedirect e) := by
  rw [State.commitEntry, h]

theorem State.commitEntry_compute {op : ComputeOp} (h : e.op = .rs (.compute op)) :
    s.commitEntry t e = .next (s.retireRegister t e.rd e.value) := by
  rw [State.commitEntry, h]

theorem State.commitEntry_load {op : LoadOp} (h : e.op = .mem (.load op)) :
    s.commitEntry t e = .next (s.retireRegister t e.rd e.value) := by
  rw [State.commitEntry, h]

theorem State.commitEntry_store {op : StoreOp} (h : e.op = .mem (.store op)) : s.commitEntry t e = s.markStore t := by
  rw [State.commitEntry, h]

theorem State.markStore_of_find {i : Nat} (h : s.lsq.findLive? (LsqEntry.awaitsMark t) = some i) :
    s.markStore t = .next { s with lsq := s.lsq.modify i fun q => { q with ready := true } } := by
  rw [State.markStore, h]

/-- Committing an entry leaves register 0 reading 0 (R11, R128). -/
theorem State.commitEntry_zero {u : State} (h0 : s.readReg 0 = 0) (h : s.commitEntry t e = .next u) :
    u.readReg 0 = 0 :=
  State.commitEntry_keeps (P := fun v => v.readReg 0 = 0)
    (halt := fun _ hv => hv) (mark := fun _ _ hv => hv)
    (retire := fun v rd w hrd hv => ((v.readReg_writeReg rd 0 w).trans (if_neg hrd.symm)).trans hv)
    (rollback := fun _ _ hv => hv) h0 h

/-- Phase (i) is the commit of what phase (a) popped: where register 0 reads 0, forcing it to 0 does nothing (R130). -/
theorem State.phaseI_eq_commitEntry {u : State} (hlatch : s.commitLatch = some (t, e)) (h0 : s.readReg 0 = 0)
    (h : State.commitEntry { s with commitLatch := none } t e = .next u) : s.phaseI = .next u := by
  have hzero : u.readReg 0 = 0 := State.commitEntry_zero (s := { s with commitLatch := none }) h0 h
  rw [State.phaseI_of_some hlatch h, State.forceZero_of_zero hzero]

theorem State.retireRegister_of_zero {rd : RegIdx} (h : rd = 0) (v : Word) : s.retireRegister t rd v = s := if_pos h

theorem State.retireRegister_of_ne {rd : RegIdx} (h : rd ≠ 0) (v : Word) :
    s.retireRegister t rd v = { s with x := s.x.set rd.toNat v rd.isLt, unlockReq := some (rd, t) } := if_neg h

theorem State.commitRedirect_of_fall (h : e.redirect = 4) : s.commitRedirect e = s := if_pos h

theorem State.commitRedirect_of_ne (h : e.redirect ≠ 4) : s.commitRedirect e = s.rollback (e.pc + e.redirect) := if_neg h

end

/-- Settles O28: `HALT`'s commit leaves the registers as they are. -/
theorem commitHalt : Obligations.CommitHalt := by
  unfold Obligations.CommitHalt
  exact fun s => ⟨State.phaseI_of_none, fun t e hlatch hop h0 =>
    State.phaseI_eq_commitEntry hlatch h0 (State.commitEntry_halt hop)⟩

/-- Settles O29: both kinds retire their register. -/
theorem commitRegister : Obligations.CommitRegister := by
  unfold Obligations.CommitRegister
  intro s t e hlatch h0 hkind
  have hcommit : State.commitEntry { s with commitLatch := none } t e =
      .next (State.retireRegister { s with commitLatch := none } t e.rd e.value) := by
    rcases hkind with ⟨op, hop⟩ | ⟨op, hop⟩
    · exact State.commitEntry_compute hop
    · exact State.commitEntry_load hop
  have hI := State.phaseI_eq_commitEntry hlatch h0 hcommit
  exact ⟨fun hrd => by rw [hI, State.retireRegister_of_ne hrd], fun hrd => by rw [hI, State.retireRegister_of_zero hrd]⟩

/-- Settles O30: a branch's commit is its redirect. -/
theorem commitBranch : Obligations.CommitBranch := by
  unfold Obligations.CommitBranch
  intro s t e op hlatch hop h0
  have hI := State.phaseI_eq_commitEntry hlatch h0 (State.commitEntry_branch hop)
  refine ⟨fun hfall => by rw [hI, State.commitRedirect_of_fall hfall], fun hne => ?_⟩
  rw [State.commitRedirect_of_ne hne] at hI
  exact ⟨_, hI, rfl, rfl, rfl, rfl, rfl, rfl⟩

/-- Settles O31: the link is written before the redirect is compared, and a Rollback keeps it. -/
theorem commitJump : Obligations.CommitJump := by
  unfold Obligations.CommitJump
  intro s t e op hlatch hop h0
  have hI := State.phaseI_eq_commitEntry hlatch h0 (State.commitEntry_jump hop)
  obtain ⟨hwrote, _⟩ := State.retireRegister_wrote (s := { s with commitLatch := none }) t e.rd (linkValue e.pc) h0
  have hrollbacks := State.retireRegister_rollbacks { s with commitLatch := none } t e.rd (linkValue e.pc)
  refine ⟨State.retireRegister { s with commitLatch := none } t e.rd (linkValue e.pc), rfl, fun hfall => ?_,
    fun hne => ?_⟩
  · rw [hI, State.commitRedirect_of_fall hfall]
  · rw [State.commitRedirect_of_ne hne] at hI
    exact ⟨_, hI, rfl, { hwrote with }, rfl, by rw [State.rollback_rollbacks, hrollbacks], rfl⟩

/-- The oldest-first scan finds the `k`-th live slot if its entry satisfies the predicate and no older one does. -/
theorem Fifo.findLive?_of_oldest {α : Type} {f : Fifo α} {p : α → Bool} {k : Nat} {e : α} (hk : k < f.count)
    (hslot : f.slots[(f.head + k) % f.capacity]? = some e) (hp : p e = true)
    (hbefore : ∀ j < k, ∀ d, f.slots[(f.head + j) % f.capacity]? = some d → p d = false) :
    f.findLive? p = some ((f.head + k) % f.capacity) := by
  unfold Fifo.findLive? Fifo.liveSlots
  rw [List.find?_map]
  have hfind : (List.range f.count).find? ((fun i => (f.slots[i]?).any p) ∘ fun j => (f.head + j) % f.capacity) =
      some k := by
    rw [List.find?_range_eq_some]
    refine ⟨by simp [hslot, hp], List.mem_range.mpr hk, fun j hj => ?_⟩
    cases hd : f.slots[(f.head + j) % f.capacity]? with
    | none => simp [hd]
    | some d => simp [hd, hbefore j hj d hd]
  rw [hfind]
  rfl

theorem Fifo.modify_of_slot {α : Type} {f : Fifo α} {i : Nat} {e : α} (g : α → α) (h : f.slots[i]? = some e) :
    f.modify i g = { f with slots := f.slots.set i (g e) } := by
  rw [Fifo.modify, List.modify_eq_set_getElem?, h]
  rfl

/-- Settles O32: the scan finds the `k`-th entry, and it alone is marked. -/
theorem commitStoreMarks : Obligations.CommitStoreMarks := by
  unfold Obligations.CommitStoreMarks
  intro s t e op k q so hlatch hop h0 hk hslot hstore hready hdest hbefore
  have hfind : s.lsq.findLive? (LsqEntry.awaitsMark t) = some ((s.lsq.head + k) % s.lsq.capacity) := by
    refine Fifo.findLive?_of_oldest hk hslot (LsqEntry.awaitsMark_iff.mpr ⟨⟨so, hstore⟩, hready, hdest⟩)
      fun j hj d hd => ?_
    rw [← Bool.not_eq_true, LsqEntry.awaitsMark_iff]
    rintro ⟨⟨op', hop'⟩, hready', hdest'⟩
    rcases hbefore j hj d hd with ⟨lo, hlo⟩ | hmarked | hother
    · rw [hlo] at hop'
      cases hop'
    · rw [hmarked] at hready'
      cases hready'
    · exact hother hdest'
  have hcommit := (State.commitEntry_store (s := { s with commitLatch := none }) (t := t) hop).trans
    (State.markStore_of_find hfind)
  rw [State.phaseI_eq_commitEntry hlatch h0 hcommit, Fifo.modify_of_slot _ hslot]

/-! ### Rollback (R131) -/

theorem Fifo.cleared_slots_of_forall {α : Type} (f : Fifo α) {g : α → α} {p : α → Prop} (h : ∀ e, p (g e)) :
    ∀ e ∈ (f.cleared g).slots, p e :=
  List.forall_mem_map.mpr fun e _ => h e

/-- Settles O33: each field is the one that R131 writes, or is not written. -/
theorem rollbackClears : Obligations.RollbackClears := by
  unfold Obligations.RollbackClears
  intro s target
  have hfree (r : RegIdx) : (s.rollback target).readRst r = { busy := false, tag := 0 } := by
    simp [State.readRst, State.rollback]
  have hready : ∀ e ∈ (s.rollback target).rob.slots, e.ready = false :=
    Fifo.cleared_slots_of_forall s.rob fun _ => rfl
  have hbusy : ∀ e ∈ (s.rollback target).rs, e.busy = false := List.forall_mem_map.mpr fun _ _ => rfl
  exact ⟨_, rfl, hfree, rfl, rfl, rfl, hready, hbusy, rfl, rfl, rfl, rfl, rfl, rfl, rfl, rfl, rfl, rfl, rfl, rfl, rfl,
    rfl, rfl, rfl, rfl⟩

end Sys2Proof.Machine

/-! Every waiting store keeps its load-store-queue entry through a clock cycle (spec/10_state.md R32 item 1,
spec/42_rob_commit_rollback.md R129): `StoresAwait` says it between two phases, with one lemma per phase, so that phase (i)
always finds the entry it marks, and a store it has marked is written by the next cycle (R132). -/

namespace Sys2Proof.Machine

/-! ### Waiting stores in a cycle in progress -/

/-- Reorder-buffer slot `t` is live and holds a store. -/
def State.HoldsStore (s : State) (t : Tag) : Prop := s.HasSlot t fun e => ∃ op, e.op = .mem (.store op)

/-- Phase (a) has popped a store from slot `t`, which phase (i) is to commit (R121, R129). -/
def State.LatchesStore (s : State) (t : Tag) : Prop := ∃ e op, s.commitLatch = some (t, e) ∧ e.op = .mem (.store op)

/-- Load-store-queue slot `i` is live and holds a store not yet marked with tag `t` (R129). -/
def State.Awaits (s : State) (t : Tag) (i : Nat) : Prop := ∃ q, s.HasQueued i q ∧ q.awaitsMark t = true

theorem storeLinked_iff {s : State} : StoreLinked s ↔ ∀ t, s.HoldsStore t → ∃ i, s.Awaits t i := by
  constructor
  · rintro h t ⟨hlive, e, hslot, op, hop⟩
    obtain ⟨i, q, hqlive, hq, hmark⟩ := h t e op hlive hslot hop
    exact ⟨i, q, ⟨hqlive, hq⟩, hmark⟩
  · intro h t e op hlive hslot hop
    obtain ⟨i, q, ⟨hqlive, hq⟩, hmark⟩ := h t ⟨hlive, e, hslot, op, hop⟩
    exact ⟨i, q, hqlive, hq, hmark⟩

/-- `StoreLinked` between two phases. The slot of a popped store may have been given to a younger store before phase (i)
commits the older one; then each of the two has its own entry. -/
structure StoresAwait (s : State) : Prop where
  slot : ∀ t, s.HoldsStore t → ∃ i, s.Awaits t i
  latch : ∀ t, s.LatchesStore t → ∃ i, s.Awaits t i
  apart : ∀ t, s.HoldsStore t → s.LatchesStore t → ∃ i j, i ≠ j ∧ s.Awaits t i ∧ s.Awaits t j

theorem State.awaits_congr {s u : State} (h : u.lsq = s.lsq) (t : Tag) (i : Nat) : u.Awaits t i ↔ s.Awaits t i := by
  unfold State.Awaits State.HasQueued
  rw [h]

theorem StoresAwait.mono {s u : State} (h : StoresAwait s) (hrob : u.rob = s.rob) (hlatch : u.commitLatch = s.commitLatch)
    (hawaits : ∀ t i, s.Awaits t i → u.Awaits t i) : StoresAwait u := by
  have hslot {t : Tag} (ht : u.HoldsStore t) : s.HoldsStore t := (State.hasSlot_congr hrob t _).mp ht
  have hlatched {t : Tag} (ht : u.LatchesStore t) : s.LatchesStore t := by rwa [State.LatchesStore, hlatch] at ht
  refine ⟨fun t ht => ?_, fun t ht => ?_, fun t ht ht' => ?_⟩
  · exact (h.slot t (hslot ht)).imp (hawaits t)
  · exact (h.latch t (hlatched ht)).imp (hawaits t)
  · obtain ⟨i, j, hne, hi, hj⟩ := h.apart t (hslot ht) (hlatched ht')
    exact ⟨i, j, hne, hawaits t i hi, hawaits t j hj⟩

/-- The links read the reorder buffer, the load-store queue and the commit latch only. -/
theorem StoresAwait.congr {s u : State} (h : StoresAwait s) (hrob : u.rob = s.rob) (hlatch : u.commitLatch = s.commitLatch)
    (hlsq : u.lsq = s.lsq) : StoresAwait u :=
  h.mono hrob hlatch fun t i => (State.awaits_congr hlsq t i).mpr

/-! ### The phases before the fetch -/

/-- Phase (a) makes no slot a store's (R120). -/
theorem State.HoldsStore.of_robCapture {s : State} {t : Tag} (h : s.robCapture.HoldsStore t) : s.HoldsStore t := by
  obtain ⟨e, _, _, hlive, hslot, ⟨hop, _⟩, op, hstore⟩ := State.robCapture_hasSlot.mp h
  exact ⟨hlive, e, hslot, op, hop ▸ hstore⟩

/-- A store popped by phase (a) was in its slot, which is dead now (R121). -/
theorem StoreLinked.phaseA {s : State} (h : StoreLinked s) (hrob : s.rob.InBounds) : StoresAwait s.phaseA := by
  have hawaits (t : Tag) (ht : s.HoldsStore t) : ∃ i, s.phaseA.Awaits t i :=
    (storeLinked_iff.mp h t ht).imp fun i => (State.awaits_congr s.phaseA_lsq t i).mpr
  refine ⟨fun t ht => ?_, fun t ht => ?_, fun t ht ht' => ?_⟩
  · exact hawaits t (State.HoldsStore.of_robCapture ((State.phaseA_hasSlot hrob).mp ht).1)
  · obtain ⟨e, op, hlatch, hop⟩ := ht
    obtain ⟨hpopped, _⟩ := State.phaseA_commitLatch hrob hlatch
    have hstore : s.robCapture.HoldsStore t := hpopped.mono fun x ⟨hx, _⟩ => ⟨op, hx ▸ hop⟩
    exact hawaits t hstore.of_robCapture
  · obtain ⟨e, _, hlatch, _⟩ := ht'
    exact absurd hlatch (((State.phaseA_hasSlot hrob).mp ht).2 e)

theorem StoresAwait.lsqCapture {s : State} (h : StoresAwait s) : StoresAwait s.lsqCapture :=
  h.mono rfl rfl fun _ _ ⟨q, hq, hmark⟩ => ⟨q.capture s.cdb, State.lsqCapture_hasQueued.mpr ⟨q, hq, rfl⟩, hmark⟩

theorem StoreLinked.atAttempt {s : State} (h : StoreLinked s) (hrob : s.rob.InBounds) : StoresAwait s.atAttempt :=
  (StoreLinked.phaseA (s := { s with cycles := s.cycles + 1 }) h hrob).lsqCapture.congr rfl rfl rfl

/-- Popping a head that awaits no mark takes no waiting store away. -/
theorem State.Awaits.pop {s u : State} {t : Tag} {i : Nat} {q : LsqEntry} (h : s.Awaits t i) (hb : s.lsq.InBounds)
    (hfront : s.lsq.front? = some q) (hmark : q.awaitsMark t ≠ true) (hu : u.lsq = s.lsq.pop) : u.Awaits t i := by
  obtain ⟨p, ⟨hlive, hslot⟩, hp⟩ := h
  have hne : i ≠ s.lsq.head := by
    rintro rfl
    obtain rfl := (State.hasQueued_front hb hfront).unique ⟨hlive, hslot⟩
    exact hmark hp
  refine ⟨p, ?_, hp⟩
  unfold State.HasQueued
  rw [hu]
  exact ⟨(Fifo.live_pop hb (Fifo.lt_of_slot hslot)).mpr ⟨hlive, hne⟩, hslot⟩

/-- The entries after a change of one slot. -/
theorem State.hasQueued_modify {s u : State} {i j : Nat} {q : LsqEntry} {g : LsqEntry → LsqEntry}
    (hu : u.lsq = s.lsq.modify j g) (h : s.HasQueued i q) : u.HasQueued i (if i = j then g q else q) := by
  obtain ⟨hlive, hslot⟩ := h
  unfold State.HasQueued
  rw [hu, Fifo.live_congr (Fifo.modify_head _ _) (Fifo.modify_count _ _) (Fifo.modify_capacity _ _), Fifo.modify_slot,
    hslot]
  refine ⟨hlive, ?_⟩
  split <;> rfl

/-- A report leaves an entry's kind, mark and tag (R147). -/
theorem State.Awaits.report {s : State} {t : Tag} {i : Nat} (h : s.Awaits t i) (dest : Tag) :
    (s.lsqReport dest).Awaits t i := by
  obtain ⟨q, hq, hmark⟩ := h
  refine ⟨_, State.hasQueued_modify rfl hq, ?_⟩
  split <;> exact hmark

/-- Phase (b)'s attempt pops a load or a marked store, or reports: every waiting store stays (R145 to R148). -/
theorem StoresAwait.lsqAttempt {s b : State} (h : StoresAwait s) (hlsq : s.lsq.InBounds)
    (hb : s.lsqAttempt = .running b) : StoresAwait b := by
  obtain ⟨hrob, _, _, _, hlatch, _⟩ := State.lsqAttempt_fields hb
  refine h.mono hrob hlatch fun t i hi => ?_
  rcases s.lsqAttempt_writes with g | ⟨q, op, base, data, _, _, _, _, _, g⟩ |
    ⟨q, op, base, data, raw, hq, hop, _, _, _, g⟩ | ⟨q, op, base, data, _, _, _, _, _, _, g⟩ |
    ⟨q, op, base, data, m, hq, _, _, _, hready, _, g⟩ | ⟨q, op, base, data, _, _, _, _, _, _, g⟩ <;> rw [g] at hb
  · exact Flow.running.inj hb ▸ hi
  · cases hb
  · obtain rfl := Flow.running.inj hb
    exact hi.pop hlsq hq (by simp [LsqEntry.awaitsMark_iff, hop]) rfl
  · cases hb
  · obtain rfl := Flow.running.inj hb
    exact hi.pop hlsq hq (by simp [LsqEntry.awaitsMark_iff, hready]) rfl
  · obtain rfl := Flow.running.inj hb
    exact hi.report q.dest

/-- A cycle that reaches its fetch does so with its waiting stores linked. -/
theorem StoreLinked.atFetch {s b : State} (h : StoreLinked s) (hmid : MidCycle s)
    (hb : s.atAttempt.lsqAttempt = .running b) : StoresAwait b.phaseC.phaseD :=
  ((h.atAttempt hmid.rob).lsqAttempt hmid.atAttempt.lsq hb).congr (by simp) (by simp) (by simp)

/-! ### The phases from the fetch to dispatch -/

theorem StoresAwait.enqueue {s : State} (h : StoresAwait s) (r : Record) : StoresAwait (s.enqueue r) :=
  h.congr (by simp) (by simp) (by simp)

theorem StoresAwait.arbiter {s : State} (h : StoresAwait s) : StoresAwait s.phaseF.phaseG :=
  h.congr rfl rfl rfl

/-- A dispatch takes no entry of the load-store queue away, and puts that of a store at the tail (R104). -/
theorem State.dispatch_awaits {s : State} {r : Record} (rest : List Record) (hlsq : s.lsq.InBounds)
    (hroom : ∀ op, r.op = .mem op → s.lsq.count < s.lsq.capacity) :
    (∀ t i, s.Awaits t i → (s.dispatch r rest).Awaits t i) ∧
    (∀ op, r.op = .mem (.store op) → (s.dispatch r rest).Awaits s.rob.tail s.lsq.tail) := by
  obtain ⟨_, _, ⟨_, _, _, hop, hkept, _⟩ | ⟨op, o1, o2, hop, _, hpush, _⟩ | ⟨hop, _, hkept⟩⟩ := s.dispatch_cases r rest
  · exact ⟨fun t i => (State.awaits_congr hkept t i).mpr, by simp [hop]⟩
  · have hentries {i : Nat} {q : LsqEntry} := State.hasQueued_push hlsq (hroom op hop) hpush (i := i) (q := q)
    refine ⟨fun t i ⟨q, hq, hmark⟩ => ⟨q, hentries.mpr (.inl hq), hmark⟩, fun op' hop' => ?_⟩
    have hstore : op = .store op' := by simpa [hop] using hop'
    exact ⟨_, hentries.mpr (.inr ⟨rfl, rfl⟩), LsqEntry.awaitsMark_iff.mpr ⟨⟨op', hstore⟩, rfl, rfl⟩⟩
  · exact ⟨fun t i => (State.awaits_congr hkept t i).mpr, by simp [hop]⟩

/-- A live slot is not the tail, to which the next push goes. -/
theorem State.Awaits.ne_tail {s : State} {t : Tag} {i : Nat} (h : s.Awaits t i) (hlsq : s.lsq.InBounds)
    (hroom : s.lsq.count < s.lsq.capacity) : i ≠ s.lsq.tail := by
  rintro rfl
  obtain ⟨_, ⟨hlive, _⟩, _⟩ := h
  rw [Fifo.tail_not_live hlsq hroom] at hlive
  cases hlive

/-- A store dispatched to the slot that a popped store has left gets an entry of its own (R104, R105). -/
theorem StoresAwait.phaseH {s : State} (h : StoresAwait s) (hmid : MidCycle s) : StoresAwait s.phaseH := by
  rcases s.phaseH_cases with hH | ⟨r, rest, _, hroom, _, hmem, hH⟩ <;> rw [hH]
  · exact h
  obtain ⟨hpush, hlatch, _⟩ := s.dispatch_cases r rest
  obtain ⟨hkept, hnew⟩ := State.dispatch_awaits rest hmid.lsq hmem
  have hslot {t : Tag} (ht : (s.dispatch r rest).HoldsStore t) :
      s.HoldsStore t ∨ (t = s.rob.tail ∧ ∃ op, r.op = .mem (.store op)) :=
    (State.hasSlot_push hmid.rob hroom hpush).mp ht
  have hlatched {t : Tag} (ht : (s.dispatch r rest).LatchesStore t) : s.LatchesStore t := by
    rwa [State.LatchesStore, hlatch] at ht
  refine ⟨fun t ht => ?_, fun t ht => (h.latch t (hlatched ht)).imp (hkept t), fun t ht ht' => ?_⟩
  · rcases hslot ht with hold | ⟨rfl, op, hop⟩
    · exact (h.slot t hold).imp (hkept t)
    · exact ⟨_, hnew op hop⟩
  · rcases hslot ht with hold | ⟨rfl, op, hop⟩
    · obtain ⟨i, j, hne, hi, hj⟩ := h.apart t hold (hlatched ht')
      exact ⟨i, j, hne, hkept t i hi, hkept t j hj⟩
    · obtain ⟨i, hi⟩ := h.latch _ (hlatched ht')
      exact ⟨i, _, hi.ne_tail hmid.lsq (hmem _ hop), hkept _ i hi, hnew op hop⟩

/-! ### Phase (i) finds the entry it marks -/

section
variable {s : State} {t : Tag} {e : RobEntry}

theorem State.retireRegister_queues (rd : RegIdx) (v : Word) :
    (s.retireRegister t rd v).rob = s.rob ∧ (s.retireRegister t rd v).lsq = s.lsq := by
  unfold State.retireRegister
  split <;> exact ⟨rfl, rfl⟩

/-- A redirect leaves both queues as they are, or the reorder buffer empty (R131). -/
theorem State.commitRedirect_queues (s : State) (e : RobEntry) :
    ((s.commitRedirect e).rob = s.rob ∧ (s.commitRedirect e).lsq = s.lsq) ∨ (s.commitRedirect e).rob.count = 0 := by
  unfold State.commitRedirect
  split
  · exact .inl ⟨rfl, rfl⟩
  · exact .inr rfl

/-- So does the commit of any entry but a store. -/
theorem State.commitEntry_of_not_store (h : ∀ op, e.op ≠ .mem (.store op)) :
    ∃ u, s.commitEntry t e = .next u ∧ ((u.rob = s.rob ∧ u.lsq = s.lsq) ∨ u.rob.count = 0) := by
  cases hop : e.op with
  | halt => exact ⟨_, State.commitEntry_halt hop, .inl ⟨rfl, rfl⟩⟩
  | rs op =>
    cases op with
    | compute op => exact ⟨_, State.commitEntry_compute hop, .inl (State.retireRegister_queues _ _)⟩
    | branch op => exact ⟨_, State.commitEntry_branch hop, s.commitRedirect_queues e⟩
    | jump op =>
      obtain ⟨hrob, hlsq⟩ := State.retireRegister_queues (s := s) (t := t) e.rd (linkValue e.pc)
      refine ⟨_, State.commitEntry_jump hop, ?_⟩
      rw [← hrob, ← hlsq]
      exact State.commitRedirect_queues _ e
  | mem op =>
    cases op with
    | load op => exact ⟨_, State.commitEntry_load hop, .inl (State.retireRegister_queues _ _)⟩
    | store op => exact absurd hop (h op)

end

/-- Marking one of the entries that await tag `t` leaves those of every other tag, and those of `t` in other slots. -/
theorem State.Awaits.mark {s u : State} {t g : Tag} {i j : Nat} (h : s.Awaits t i) (hj : s.Awaits g j)
    (hne : t = g → i ≠ j) (hu : u.lsq = s.lsq.modify j fun q => { q with ready := true }) : u.Awaits t i := by
  have hij : i ≠ j := by
    rintro rfl
    obtain ⟨q, hq, hmark⟩ := h
    obtain ⟨p, hp, hmark'⟩ := hj
    obtain rfl := hq.unique hp
    obtain ⟨_, _, rfl⟩ := LsqEntry.awaitsMark_iff.mp hmark
    obtain ⟨_, _, rfl⟩ := LsqEntry.awaitsMark_iff.mp hmark'
    exact hne rfl rfl
  obtain ⟨q, hq, hmark⟩ := h
  refine ⟨q, ?_, hmark⟩
  have hq' := State.hasQueued_modify hu hq
  rwa [if_neg hij] at hq'

/-- The scan of Commit finds an entry where one awaits the mark, and what it finds does (R129). -/
theorem State.findLive?_awaits {s : State} {t : Tag} {i : Nat} (h : s.Awaits t i) (hlsq : s.lsq.InBounds) :
    ∃ j, s.lsq.findLive? (LsqEntry.awaitsMark t) = some j ∧ s.Awaits t j := by
  cases hfind : s.lsq.findLive? (LsqEntry.awaitsMark t) with
  | none =>
    obtain ⟨q, ⟨hlive, hslot⟩, hmark⟩ := h
    rw [Fifo.findLive?_none hlsq hfind hlive hslot] at hmark
    cases hmark
  | some j =>
    obtain ⟨q, hslot, hmark, hlive⟩ := Fifo.findLive?_some hlsq hfind
    exact ⟨j, rfl, q, ⟨hlive, hslot⟩, hmark⟩

/-- Committing a store marks one entry; a younger store in its old slot keeps the other (R129). -/
theorem StoresAwait.markStore {s : State} {t : Tag} (h : StoresAwait s) (hlsq : s.lsq.InBounds) (ht : s.LatchesStore t) :
    ∃ u, State.markStore { s with commitLatch := none } t = .next u ∧ StoreLinked u := by
  obtain ⟨i, hi⟩ := h.latch t ht
  obtain ⟨j, hfind, hj⟩ := State.findLive?_awaits hi hlsq
  refine ⟨_, State.markStore_of_find hfind, storeLinked_iff.mpr fun t' ht' => ?_⟩
  have hslot : s.HoldsStore t' := (State.hasSlot_congr rfl t' _).mp ht'
  by_cases htag : t' = t
  · subst htag
    obtain ⟨k, l, hkl, hk, hl⟩ := h.apart t' hslot ht
    by_cases hkj : k = j
    · exact ⟨l, hl.mark hj (fun _ => hkj ▸ hkl.symm) rfl⟩
    · exact ⟨k, hk.mark hj (fun _ => hkj) rfl⟩
  · exact (h.slot t' hslot).imp fun _ hk => hk.mark hj (fun heq => absurd heq htag) rfl

theorem storeLinked_of_empty {s : State} (h : s.rob.count = 0) : StoreLinked s := by
  intro t e op hlive
  rw [Fifo.live_of_empty h] at hlive
  cases hlive

theorem StoreLinked.congr {s u : State} (h : StoreLinked s) (hrob : u.rob = s.rob) (hlsq : u.lsq = s.lsq) :
    StoreLinked u := by
  unfold StoreLinked at h ⊢
  rwa [hrob, hlsq]

/-- The commit of what phase (a) popped never faults, and leaves the waiting stores linked (R129). -/
theorem StoresAwait.commitEntry {s : State} {t : Tag} {e : RobEntry} (h : StoresAwait s) (hlsq : s.lsq.InBounds)
    (hlatch : s.commitLatch = some (t, e)) :
    ∃ u, State.commitEntry { s with commitLatch := none } t e = .next u ∧ StoreLinked u := by
  by_cases hstore : ∃ op, e.op = .mem (.store op)
  · obtain ⟨op, hop⟩ := hstore
    rw [State.commitEntry_store hop]
    exact h.markStore hlsq ⟨e, op, hlatch, hop⟩
  · obtain ⟨u, hu, hqueues⟩ :=
      State.commitEntry_of_not_store (s := { s with commitLatch := none }) (t := t) (not_exists.mp hstore)
    refine ⟨u, hu, ?_⟩
    rcases hqueues with ⟨hrob, hlsq'⟩ | hempty
    · exact (storeLinked_iff.mpr h.slot).congr hrob hlsq'
    · exact storeLinked_of_empty hempty

theorem StoresAwait.phaseI {s : State} (h : StoresAwait s) (hlsq : s.lsq.InBounds) :
    ∃ v, s.phaseI = .next v ∧ StoreLinked v := by
  cases hlatch : s.commitLatch with
  | none => exact ⟨s, State.phaseI_of_none hlatch, storeLinked_iff.mpr h.slot⟩
  | some popped =>
    obtain ⟨t, e⟩ := popped
    obtain ⟨u, hu, hlinked⟩ := h.commitEntry hlsq hlatch
    exact ⟨_, State.phaseI_of_some hlatch hu, hlinked.congr rfl rfl⟩

/-! ### The cycle -/

theorem StoresAwait.afterFetch {s : State} (h : StoresAwait s) (hmid : MidCycle s) :
    ∃ v, s.afterFetch = .next v ∧ StoreLinked v :=
  (h.arbiter.phaseH hmid.arbiter).phaseI hmid.arbiter.phaseH.lsq

/-- A cycle that ends before its fetch has raised, or leaves a stopped core as it was (R223 to R225). -/
theorem StoreLinked.endsEarly {s t : State} (h : s.fault = .none → StoreLinked s) (ht : s.EndsEarly t)
    (hf : t.fault = .none) : StoreLinked t := by
  rcases ht with ⟨_, rfl⟩ | ⟨_, _, rfl⟩ | ⟨_, _, _, _, rfl⟩
  · exact h hf
  · cases hf
  · cases hf

/-- A cycle that reaches its fetch does so with the invariant and its waiting stores linked. -/
theorem Inv.storesAwait {s b : State} (h : Inv s) (hl : s.fault = .none → StoreLinked s) (hrun : s.stopped = false)
    (hb : s.atAttempt.lsqAttempt = .running b) : MidCycle b.phaseC.phaseD ∧ StoresAwait b.phaseC.phaseD := by
  obtain ⟨_, hfault⟩ := State.stopped_eq_false.mp hrun
  exact ⟨(h.atFetch hrun hb).1, (hl hfault).atFetch (h.midCycle hfault) hb⟩

theorem exec_storeLinked (i : Instr) {s : State} (h : Inv s) (hl : s.fault = .none → StoreLinked s) :
    ∃ t, exec i s = .next t ∧ (t.fault = .none → StoreLinked t) := by
  rw [exec_eq_takeIn]
  rcases s.takeIn_cases (recordOf i) with ⟨u, hu, hs⟩ | ⟨hrun, _, b, hb, hs⟩ <;> rw [hs]
  · exact ⟨u, rfl, StoreLinked.endsEarly hl hu⟩
  · obtain ⟨hmid, hawait⟩ := h.storesAwait hl hrun hb
    obtain ⟨v, hv, hlinked⟩ := (hawait.enqueue (recordOf i)).afterFetch (hmid.enqueue _)
    exact ⟨v, hv, fun _ => hlinked⟩

theorem step_storeLinked {s : State} (h : Inv s) (hl : s.fault = .none → StoreLinked s) :
    ∃ t, step s = .next t ∧ (t.fault = .none → StoreLinked t) := by
  rcases step_cases s with ⟨u, hu, hs⟩ | ⟨hrun, _, b, hb, hs⟩
  · exact ⟨u, hs, StoreLinked.endsEarly hl hu⟩
  · obtain ⟨hmid, hawait⟩ := h.storesAwait hl hrun hb
    rcases hs with hs | hs | ⟨i, hs⟩ <;> rw [hs]
    · exact ⟨_, rfl, fun hf => by cases hf⟩
    · obtain ⟨v, hv, hlinked⟩ := hawait.afterFetch hmid
      exact ⟨v, hv, fun _ => hlinked⟩
    · obtain ⟨v, hv, hlinked⟩ := (hawait.enqueue (recordOf i)).afterFetch (hmid.enqueue _)
      exact ⟨v, hv, fun _ => hlinked⟩

/-- Settles O56: each phase keeps `StoresAwait`, which gives phase (i) the entry it marks. -/
theorem noStepFaults : Obligations.NoStepFaults := by
  unfold Obligations.NoStepFaults
  exact fun i _ h hl => ⟨step_storeLinked h hl, exec_storeLinked i h hl⟩

/-! ### A committed store is written (R132) -/

/-- After the fetch no phase writes memory. -/
theorem State.afterFetch_mem {s t : State} (h : s.afterFetch = .next t) : t.mem = s.mem := by
  obtain ⟨v, hv, hsame, _⟩ := s.afterFetch_eq_phaseI
  exact (State.phaseI_frame (hv ▸ h)).1.trans hsame.mem

/-- A step has the memory with which it reached its fetch. -/
theorem step_mem_of_running {s b t : State} (hb : s.beforeFetch = .running b) (h : step s = .next t) :
    t.mem = b.mem := by
  unfold step State.cycleStart at h
  rw [hb] at h
  cases hfetch : b.fetch with
  | queueFull =>
    simp only [hfetch] at h
    exact State.afterFetch_mem h
  | undecodable e =>
    simp only [hfetch] at h
    exact State.afterFetch_mem h
  | outOfRange =>
    simp only [hfetch] at h
    exact Host.Outcome.next.inj h ▸ rfl
  | instr i =>
    simp only [hfetch, exec_eq_takeIn, State.takeIn, hb] at h
    exact (State.afterFetch_mem h).trans (b.enqueue_mem _)

/-- A marked store at the head of its queue is performed before the fetch (R146). -/
theorem beforeFetch_of_markedStore {s : State} {q : LsqEntry} {op : StoreOp} {base data : Word} (hb : s.lsq.InBounds)
    (hrun : s.stopped = false) (ht : TimeFor 1 s) (hq : s.lsq.front? = some q) (hstore : q.IsStore op base data)
    (hready : q.ready = true) (hin : (effectiveAddress base q.imm).toNat + op.width ≤ s.memSize) :
    ∃ b, s.beforeFetch = .running b ∧ b.mem = s.mem.writeLE (effectiveAddress base q.imm).toNat op.width data := by
  have hwrite : memWrite s.atAttempt.mem s.atAttempt.memSize (effectiveAddress base q.imm) op.width data =
      some (s.mem.writeLE (effectiveAddress base q.imm).toNat op.width data) := by
    rw [s.same_atAttempt.mem, s.same_atAttempt.memSize]
    exact memWrite_eq_some.mpr ⟨hin, rfl⟩
  rw [State.beforeFetch_of_running hrun ht, State.lsqAttempt_of_store (State.atAttempt_front hb hq hstore) hstore,
    if_pos hready, State.lsqStore, hwrite]
  exact ⟨_, rfl, by simp⟩

/-- Settles O34: the step answers a next state by `step_storeLinked`, and the store is written before its fetch. -/
theorem committedStoreNotLost : Obligations.CommittedStoreNotLost := by
  unfold Obligations.CommittedStoreNotLost
  intro s q op base data h hl hrun ht hq hop hready h1 h2 hin
  have hmid := h.midCycle (State.stopped_eq_false.mp hrun).2
  obtain ⟨u, hstep, _⟩ := step_storeLinked h fun _ => hl
  obtain ⟨b, hb, hmem⟩ := beforeFetch_of_markedStore hmid.lsq hrun ht hq ⟨hop, h1, h2⟩ hready hin
  refine ⟨u, hstep, fun a => ?_⟩
  rw [step_mem_of_running hb hstep, hmem]
  exact Memory.read_writeLE hmid.memWf _ _ a _

end Sys2Proof.Machine

/-! The links between the structures (spec/10_state.md R32, spec/43_rs_lsq_cdb_execute.md R152, R153) through a clock
cycle: a cycle that does not fault either leaves a stopped core as it was or runs to its end, and then the links of the
cycle in progress, which phases (a) to (e) give, become those between two cycles. -/

namespace Sys2Proof.Machine

/-! ### A cycle that does not fault -/

/-- A cycle that began in `s` stands in `m` when its fetch is done, an instruction taken in or not (R80, R101). -/
def State.Fetches (s m : State) : Prop :=
  ∃ b, s.atAttempt.lsqAttempt = .running b ∧ (m = b.phaseC.phaseD ∨ ∃ r, m = b.phaseC.phaseD.enqueue r)

/-- Ending early without a fault is being stopped (R223 to R225). -/
theorem State.EndsEarly.eq_of_faultFree {s t : State} (h : s.EndsEarly t) (hf : t.fault = .none) : t = s := by
  rcases h with ⟨_, rfl⟩ | ⟨_, _, rfl⟩ | ⟨_, _, _, _, rfl⟩
  · rfl
  · cases hf
  · cases hf

/-- A cycle that leaves no fault leaves a stopped core as it was, or runs past its fetch to its end (R80, R225). -/
theorem faultFree_cycle_cases {i : Instr} {s t : State} (h : exec i s = .next t ∨ step s = .next t)
    (hf : t.fault = .none) : t = s ∨ (s.stopped = false ∧ ∃ m, s.Fetches m ∧ m.afterFetch = .next t) := by
  rcases h with h | h
  · rw [exec_eq_takeIn] at h
    rcases s.takeIn_cases (recordOf i) with ⟨u, hu, hs⟩ | ⟨hrun, _, b, hb, hs⟩ <;> rw [hs] at h
    · obtain rfl := Host.Outcome.next.inj h
      exact .inl (hu.eq_of_faultFree hf)
    · exact .inr ⟨hrun, _, ⟨b, hb, .inr ⟨_, rfl⟩⟩, h⟩
  · rcases step_cases s with ⟨u, hu, hs⟩ | ⟨hrun, _, b, hb, hs | hs | ⟨j, hs⟩⟩ <;> rw [hs] at h
    · obtain rfl := Host.Outcome.next.inj h
      exact .inl (hu.eq_of_faultFree hf)
    · obtain rfl := Host.Outcome.next.inj h
      cases hf
    · exact .inr ⟨hrun, _, ⟨b, hb, .inl rfl⟩, h⟩
    · exact .inr ⟨hrun, _, ⟨b, hb, .inr ⟨_, rfl⟩⟩, h⟩

/-! ### The links of the tags -/

/-- The links give every waiting store its queue entry: before its report by item 1 of R32, from then on by R129. -/
theorem TagsLinked.storeLinked {s : State} (h : TagsLinked s) : StoreLinked s := by
  intro t e op hlive hslot hop
  have hreported (hsig : e.ready = true ∨ s.OnBus t) :
      ∃ i q, s.lsq.live i = true ∧ s.lsq.slots[i]? = some q ∧ q.awaitsMark t = true := by
    obtain ⟨i, q, hq, hrep, hunmarked, hdest⟩ := h.signalled t op ⟨hlive, e, hslot, hop, hsig⟩
    obtain ⟨_, hstore, _⟩ := h.headOnly i q hq (.inl hrep)
    exact ⟨i, q, hq.1, hq.2, LsqEntry.awaitsMark_iff.mpr ⟨hstore, hunmarked, hdest⟩⟩
  cases hready : e.ready with
  | true => exact hreported (.inl hready)
  | false =>
    rcases h.produced t ⟨hlive, e, hslot, by simp [hop], hready⟩ with hbus | ⟨d, hd, hbusy, rfl⟩ |
      ⟨i, q, hq, hunmarked, _, rfl⟩
    · exact hreported (.inr hbus)
    · obtain ⟨⟨_, e', hslot', hop', _⟩, _⟩ := h.station d hd hbusy
      obtain rfl := Option.some.inj (hslot.symm.trans hslot')
      rw [hop] at hop'
      cases hop'
    · obtain ⟨_, e', hslot', hop'⟩ := h.queued i q hq hunmarked
      obtain rfl := Option.some.inj (hslot.symm.trans hslot')
      have hstore : q.op = .store op := OpKind.mem.inj (hop'.symm.trans hop)
      exact ⟨i, q, hq.1, hq.2, LsqEntry.awaitsMark_iff.mpr ⟨⟨op, hstore⟩, hunmarked, rfl⟩⟩

/-- Phases (a) to (e) turn the links between cycles into those of a cycle in progress. -/
theorem TagsLinked.inFlight {s m : State} (h : TagsLinked s) (hshape : Shape s) (hm : s.Fetches m) : InFlight m := by
  obtain ⟨b, hb, rfl | ⟨r, rfl⟩⟩ := hm
  · exact h.beforeFetch hshape hb
  · exact (h.beforeFetch hshape hb).enqueue r

/-- Phase (h) leaves the buses as phases (f) and (g) have filled them. -/
theorem State.phaseH_onBus (s : State) (t : Tag) : s.phaseH.OnBus t ↔ s.OnBus t := by
  simp only [State.OnBus, State.phaseH_cdb, State.phaseH_robSig]

/-- Phases (f) to (i) turn the links of a cycle in progress back into those between cycles. -/
theorem InFlight.afterFetch {m t : State} (h : InFlight m) (ht : m.afterFetch = .next t) : TagsLinked t := by
  obtain ⟨hlinks, hbus⟩ := h.links.arbiter h.out h.exec
  have hdispatched : Links m.phaseF.phaseG.phaseH.OnBus m.phaseF.phaseG.phaseH :=
    hlinks.phaseH.of_iff fun t => (State.phaseH_onBus _ t).symm
  exact hdispatched.phaseI (hbus.phaseH hlinks.robIn).1 ht

/-- Settles O54: phase by phase, from `TagsLinked` through `InFlight` and back. -/
theorem tagsStayLinked : Obligations.TagsStayLinked := by
  unfold Obligations.TagsStayLinked
  intro s ⟨_, hshape⟩ hfault h
  refine ⟨h.storeLinked, h.cdbDistinct, h.sigDistinct, fun i t ht hf => ?_⟩
  rcases faultFree_cycle_cases ht hf with rfl | ⟨_, m, hm, hafter⟩
  · exact h
  · exact (h.inFlight (hshape hfault) hm).afterFetch hafter

/-! ### The links of the operands -/

/-- Phases (a) to (e) turn the operand links between cycles into those of a cycle in progress. -/
theorem OperandsLinked.inFlight {s m : State} (h : OperandsLinked s) (hshape : Shape s) (htags : TagsLinked s)
    (hm : s.Fetches m) : OperandsInFlight m := by
  obtain ⟨b, hb, hm⟩ := hm
  have hwaits : Waits b.phaseC := h.waits hshape htags hb
  obtain ⟨hrenamed, hlatch⟩ := h.renamedBefore hshape hb
  have hfetch : OperandsInFlight b.phaseC.phaseD := by
    refine ⟨?_, hrenamed, hlatch⟩
    obtain ⟨rst, hD⟩ := b.phaseC.phaseD_writes
    rw [hD]
    exact ⟨hwaits.stations, hwaits.queued⟩
  rcases hm with rfl | ⟨r, rfl⟩
  · exact hfetch
  · exact hfetch.congr (State.enqueue_rob _ r) (State.enqueue_lsq _ r) (State.enqueue_rs _ r)
      (State.enqueue_commitLatch _ r) (State.enqueue_rst _ r)

/-- Phases (a) to (e) keep the invariant of a cycle in progress. -/
theorem Inv.fetches {s m : State} (h : Inv s) (hrun : s.stopped = false) (hm : s.Fetches m) : MidCycle m := by
  obtain ⟨b, hb, rfl | ⟨r, rfl⟩⟩ := hm
  · exact (h.atFetch hrun hb).1
  · exact (h.atFetch hrun hb).1.enqueue r

/-- Phases (f) to (i) turn the operand links of a cycle in progress back into those between cycles. -/
theorem OperandsInFlight.afterFetch {m t : State} (h : OperandsInFlight m) (htags : InFlight m) (hmid : MidCycle m)
    (ht : m.afterFetch = .next t) : OperandsLinked t := by
  obtain ⟨_, hbus⟩ := htags.links.arbiter htags.out htags.exec
  have harbiter : OperandsInFlight m.phaseF.phaseG := h.congr rfl rfl rfl rfl rfl
  obtain ⟨hwaits, hrenamed, hlocked⟩ := harbiter.phaseH hmid.rob hmid.lsq rfl hbus
  exact OperandsLinked.ofPhaseI hwaits hrenamed hlocked hmid.arbiter.phaseH.rstZero ht

/-- Settles O55: phase by phase, from `OperandsLinked` through `OperandsInFlight` and back. -/
theorem noBroadcastMissed : Obligations.NoBroadcastMissed := by
  unfold Obligations.NoBroadcastMissed
  intro i s t hinv hfault htags h ht hf
  rcases faultFree_cycle_cases ht hf with rfl | ⟨hrun, m, hm, hafter⟩
  · exact h
  · have ⟨_, hshape⟩ := hinv
    exact (h.inFlight (hshape hfault) htags hm).afterFetch (htags.inFlight (hshape hfault) hm) (hinv.fetches hrun hm)
      hafter

end Sys2Proof.Machine

/-! The load-store queue, the reservation stations and the bus arbiter (spec/43_rs_lsq_cdb_execute.md): what an operand
captures, what the head of the queue does, which station is launched, and what the two buses then carry. -/

namespace Sys2Proof.Machine

/-! ### Operands (R140, R143) -/

section
variable {t : Tag} {cdb : List (Tag × Word)}

theorem Operand.captureAll_cons (o : Operand) (b : Tag × Word) :
    o.captureAll (b :: cdb) = (o.capture b).captureAll cdb := rfl

theorem Operand.capture_tag_self (v : Word) : (Operand.tag t).capture (t, v) = .val v := if_pos rfl

theorem Operand.capture_tag_of_ne {b : Tag × Word} (h : t ≠ b.1) : (Operand.tag t).capture b = .tag t :=
  if_neg fun heq => h (Operand.tag.inj heq)

/-- A pending operand takes what the bus carries for its tag, given once (R153). -/
theorem Operand.captureAll_tag_of_mem {v : Word} (hcdb : (cdb.map Prod.fst).Nodup) (hv : (t, v) ∈ cdb) :
    (Operand.tag t).captureAll cdb = .val v := by
  induction cdb with
  | nil => cases hv
  | cons b cdb ih =>
    obtain ⟨hfresh, hrest⟩ := List.nodup_cons.mp hcdb
    rw [Operand.captureAll_cons]
    rcases List.mem_cons.mp hv with rfl | hv
    · rw [Operand.capture_tag_self, Operand.captureAll_val]
    · have hne : t ≠ b.1 := by
        rintro rfl
        exact hfresh (List.mem_map.mpr ⟨_, hv, rfl⟩)
      rw [Operand.capture_tag_of_ne hne, ih hrest hv]

/-- A tag that the bus does not carry stays pending. -/
theorem Operand.captureAll_tag_of_not_mem (h : t ∉ cdb.map Prod.fst) : (Operand.tag t).captureAll cdb = .tag t := by
  induction cdb with
  | nil => rfl
  | cons b cdb ih =>
    rw [List.map_cons, List.mem_cons, not_or] at h
    obtain ⟨hne, hrest⟩ := h
    rw [Operand.captureAll_cons, Operand.capture_tag_of_ne hne, ih hrest]

end

/-- Settles O12, along the list of broadcasts. -/
theorem broadcastResolvesOperands : Obligations.BroadcastResolvesOperands := by
  unfold Obligations.BroadcastResolvesOperands
  exact fun cdb t v hcdb =>
    ⟨Operand.captureAll_tag_of_mem hcdb, Operand.captureAll_tag_of_not_mem, Operand.captureAll_val cdb v⟩

/-! ### The reservation stations (R140, R141) -/

/-- A station is not ready exactly where it is free or one of its operands is pending (R141). -/
theorem RsEntry.launch?_eq_none_iff {e : RsEntry} :
    e.launch? = none ↔ e.busy = false ∨ (∃ t, e.o1 = .tag t) ∨ ∃ t, e.o2 = .tag t := by
  unfold RsEntry.launch?
  cases e.busy <;> cases e.o1 <;> cases e.o2 <;> simp

theorem RsEntry.launch?_of_ready {e : RsEntry} {a b : Word} (hbusy : e.busy = true) (h1 : e.o1 = .val a)
    (h2 : e.o2 = .val b) :
    e.launch? = some { op := e.op, a := a, b := b, imm := e.imm, dest := e.dest, pc := e.pc } := by
  simp only [RsEntry.launch?, hbusy, h1, h2]

/-- The ready station of lowest index is launched, and its slot freed. -/
theorem launchFirst_of_lowest {l : List RsEntry} {i : Nat} {e : RsEntry} {x : Launched} (hi : l[i]? = some e)
    (he : e.launch? = some x) (hlow : ∀ j < i, ∀ d, l[j]? = some d → d.launch? = none) :
    launchFirst l = (some x, l.set i { e with busy := false }) := by
  induction l generalizing i with
  | nil => cases hi
  | cons d l ih =>
    cases i with
    | zero =>
      obtain rfl := Option.some.inj hi
      rw [launchFirst, he]
      rfl
    | succ i =>
      have hrest := ih hi fun j hj c hc => hlow (j + 1) (by omega) c hc
      rw [launchFirst, hlow 0 (by omega) d rfl, hrest]
      rfl

/-- Phase (c) is the launch among the stations that have captured. -/
theorem State.phaseC_of_launchFirst {s : State} {out : Option Launched} {rs : List RsEntry}
    (h : launchFirst (s.rs.map (RsEntry.capture s.cdb)) = (out, rs)) :
    s.phaseC = { s with execLatch := out, rs := rs } := by
  simp only [State.phaseC, State.rsLaunch, State.rsCapture, h]

/-- Settles O14: with no station ready the scan finds none, and it finds the one of lowest index first. -/
theorem lowestReadyStationLaunches : Obligations.LowestReadyStationLaunches := by
  unfold Obligations.LowestReadyStationLaunches
  refine fun s => ⟨s.rs.map (RsEntry.capture s.cdb), rfl, fun hnone => ?_, fun i e a b hi hbusy h1 h2 hlow => ?_⟩
  · exact State.phaseC_of_launchFirst (launchFirst_of_none fun e he => RsEntry.launch?_eq_none_iff.mpr (hnone e he))
  · exact State.phaseC_of_launchFirst (launchFirst_of_lowest hi (RsEntry.launch?_of_ready hbusy h1 h2)
      fun j hj d hd => RsEntry.launch?_eq_none_iff.mpr (hlow j hj d hd))

/-! ### The load-store queue (R143 to R148) -/

/-- Settles O13: the captures change the slots of the queue only, and an empty queue has no live slot and no head. -/
theorem queueCapturesBroadcasts : Obligations.QueueCapturesBroadcasts := by
  unfold Obligations.QueueCapturesBroadcasts
  refine fun s => ⟨(s.lsq.mapLive (LsqEntry.capture s.cdb)).slots, Fifo.mapLive_capacity _, fun i q hq hlive => ?_,
    fun i q hq hdead => ?_, rfl, fun hempty => ?_⟩
  · rw [Fifo.mapLive_slot, hq, Option.map_some, if_pos hlive]
    rfl
  · rw [Fifo.mapLive_slot, hq, Option.map_some, hdead]
    rfl
  · rw [State.phaseB, State.lsqCapture, Fifo.mapLive_of_empty hempty, State.lsqAttempt, Fifo.front?_of_empty hempty]

section
variable {s : State} {q : LsqEntry}

/-- The head acts once both its operands are values (R144). -/
theorem State.lsqAttempt_of_resolved {base data : Word} (hq : s.lsq.front? = some q) (h1 : q.o1 = .val base)
    (h2 : q.o2 = .val data) : s.lsqAttempt = s.lsqAct q base data := by
  simp only [State.lsqAttempt, hq, h1, h2]

/-- A head with a pending operand waits (R144). -/
theorem State.lsqAttempt_of_pending {t : Tag} (hq : s.lsq.front? = some q) (ht : q.o1 = .tag t ∨ q.o2 = .tag t) :
    s.lsqAttempt = .running s := by
  unfold State.lsqAttempt
  rw [hq]
  rcases ht with h1 | h2
  · simp only [h1]
  · cases h1 : q.o1 <;> simp only [h1, h2]

/-- The attempt of a load at the head: the load of its address (R145). -/
theorem State.lsqAttempt_of_load {op : LoadOp} {base data : Word} (hq : s.lsq.front? = some q) (hop : q.op = .load op)
    (h1 : q.o1 = .val base) (h2 : q.o2 = .val data) :
    s.lsqAttempt = s.lsqLoad op q.dest (effectiveAddress base q.imm) := by
  rw [State.lsqAttempt_of_resolved hq h1 h2]
  simp only [State.lsqAct, hop]

/-- A store at the head that has reported waits to be marked, resolved or not (R148). -/
theorem State.lsqAttempt_of_reported {op : StoreOp} (hq : s.lsq.front? = some q) (hop : q.op = .store op)
    (hready : q.ready = false) (hreported : q.reported = true) : s.lsqAttempt = .running s := by
  cases h1 : q.o1 with
  | tag t => exact State.lsqAttempt_of_pending hq (.inl h1)
  | val base =>
    cases h2 : q.o2 with
    | tag t => exact State.lsqAttempt_of_pending hq (.inr h2)
    | val data => simp [State.lsqAttempt_of_store hq ⟨hop, h1, h2⟩, hready, hreported]

/-- A report marks the head, which stays (R147). -/
theorem State.lsqReport_lsq (hq : s.lsq.front? = some q) (dest : Tag) :
    (s.lsqReport dest).lsq = { s.lsq with slots := s.lsq.slots.set s.lsq.head { q with reported := true } } ∧
      (s.lsqReport dest).lsq.front? = some { q with reported := true } := by
  obtain ⟨hcount, hslot⟩ := Fifo.front?_eq_some.mp hq
  have hmark := Fifo.modify_of_slot (fun q : LsqEntry => { q with reported := true }) hslot
  refine ⟨hmark, Fifo.front?_eq_some.mpr ⟨hcount, ?_⟩⟩
  rw [State.lsqReport, Fifo.modify_head, Fifo.modify_slot, if_pos rfl, hslot]
  rfl

end

/-- Settles O15, by whether the read is in range. -/
theorem loadAtHeadIsPerformed : Obligations.LoadAtHeadIsPerformed := by
  unfold Obligations.LoadAtHeadIsPerformed
  intro s q op base data hq hop h1 h2
  rw [State.lsqAttempt_of_load hq hop h1 h2, State.lsqLoad, effectiveAddress]
  exact ⟨fun raw hraw => by rw [hraw], fun hout => by rw [hout]; rfl⟩

/-- Settles O16, by whether the write is in range. -/
theorem committedStoreAtHeadIsWritten : Obligations.CommittedStoreAtHeadIsWritten := by
  unfold Obligations.CommittedStoreAtHeadIsWritten
  intro s q op base data hq hop h1 h2 hready
  rw [State.lsqAttempt_of_store hq ⟨hop, h1, h2⟩, if_pos hready, State.lsqStore, effectiveAddress]
  exact ⟨fun m hm => by rw [hm], fun hout => by rw [hout]; rfl⟩

/-- Settles O17: the first attempt reports, and leaves a head that waits. -/
theorem storeReportsOnce : Obligations.StoreReportsOnce := by
  unfold Obligations.StoreReportsOnce
  refine fun s q hq => ⟨fun op base data hop h1 h2 hready hreported => ?_,
    fun op hop hready hreported => State.lsqAttempt_of_reported hq hop hready hreported,
    fun t ht => State.lsqAttempt_of_pending hq ht⟩
  obtain ⟨hlsq, hfront⟩ := State.lsqReport_lsq hq q.dest
  refine ⟨s.lsqReport q.dest, ?_, ?_, State.lsqAttempt_of_reported hfront hop hready rfl⟩
  · rw [← hlsq]
    rfl
  · simp [State.lsqAttempt_of_store hq ⟨hop, h1, h2⟩, hready, hreported]

/-! ### Execute and the bus arbiter (R150, R151) -/

/-- Settles O27: the buses start empty after phase (f), and carry what each latch produces, kind by
kind. -/
theorem arbiterDrivesBuses : Obligations.ArbiterDrivesBuses := by
  unfold Obligations.ArbiterDrivesBuses
  refine fun s => ⟨s.execLatch.toList.flatMap Launched.broadcasts, s.execLatch.toList.flatMap Launched.signals,
    s.lsqOut.toList.flatMap LsqOut.broadcasts, s.lsqOut.toList.flatMap LsqOut.signals, ?_, ?_, rfl⟩
  · cases s.execLatch with
    | none => rfl
    | some l =>
      obtain ⟨op, a, b, imm, dest, pc⟩ := l
      cases op with
      | compute op => rfl
      | branch op => rfl
      | jump op => cases op <;> rfl
  · cases s.lsqOut with
    | none => rfl
    | some o => cases o <;> rfl

end Sys2Proof.Machine

/-! The computational instructions from fetch to commit (spec/44_int_compute.md R160 to R184): what a shift amount and a
comparison are as numbers, the one path that all of them take through a core with nothing else in flight, and from these
the result of each. -/

namespace Sys2Proof.Machine

/-! ### Shift amounts and comparisons as numbers -/

/-- The low five bits of a word are its remainder modulo 32 (decision D25). -/
theorem shiftAmount_eq_mod (v : Word) : shiftAmount v = v.toNat % 32 := by
  simp [shiftAmount, BitVec.extractLsb'_toNat]

/-- An immediate shift shifts by its field (R183). -/
theorem shiftAmount_immShamt (shamt : BitVec 5) : shiftAmount (immShamt shamt) = shamt.toNat := by
  have hlt : shamt.toNat < 32 := shamt.isLt
  have hwidth : (immShamt shamt).toNat = shamt.toNat := BitVec.toNat_setWidth_of_le (by decide)
  rw [shiftAmount_eq_mod, hwidth, Nat.mod_eq_of_lt hlt]

/-- Sign extension keeps the number that a 12-bit immediate stands for (R65). -/
theorem toInt_immI (imm : BitVec 12) : (immI imm).toInt = imm.toInt := BitVec.toInt_signExtend_of_le (by decide)

theorem boolWord_lessSigned (a b : Word) : boolWord (lessSigned a b) = if a.toInt < b.toInt then 1 else 0 := by
  simp only [boolWord, lessSigned, decide_eq_true_eq]

theorem boolWord_lessUnsigned (a b : Word) : boolWord (lessUnsigned a b) = if a.toNat < b.toNat then 1 else 0 := by
  simp only [boolWord, lessUnsigned, decide_eq_true_eq]

/-- `SLTI` compares with the number that its 12-bit field stands for (R164). -/
theorem valueSlti_immI (a : Word) (imm : BitVec 12) :
    valueSlti a (immI imm) = if a.toInt < imm.toInt then 1 else 0 := by
  rw [valueSlti, boolWord_lessSigned, toInt_immI]

/-! ### From fetch to commit -/

/-- What an instruction in flight leaves alone does not matter to what its commit writes. -/
theorem Same.wrote {s v u : State} {rd : RegIdx} {w : Word} (h : Same s v) (hw : Wrote v u rd w) : Wrote s u rd w where
  regs r := by rw [hw.regs r, State.readReg_congr h.x r]
  mem := hw.mem.trans h.mem
  halted := hw.halted.trans h.halted
  fault := hw.fault.trans h.fault
  faultAddr := hw.faultAddr.trans h.faultAddr

@[simp] theorem State.retireRegister_cycles (s : State) (t : Tag) (rd : RegIdx) (v : Word) :
    (s.retireRegister t rd v).cycles = s.cycles := by
  unfold State.retireRegister
  split <;> rfl

/-- Phase (i) of a computation writes the entry's value to its register, and neither rolls back nor counts (R128). -/
theorem phaseI_of_compute {s : State} {t : Tag} {e : RobEntry} {op : ComputeOp} (hlatch : s.commitLatch = some (t, e))
    (hop : e.op = .rs (.compute op)) (h0 : s.readReg 0 = 0) :
    ∃ u, s.phaseI = .next u ∧ Wrote s u e.rd e.value ∧ u.rollbacks = s.rollbacks ∧ u.cycles = s.cycles := by
  obtain ⟨hwrote, _⟩ := State.retireRegister_wrote (s := { s with commitLatch := none }) t e.rd e.value h0
  exact ⟨_, State.phaseI_eq_commitEntry hlatch h0 (State.commitEntry_compute hop), { hwrote with },
    State.retireRegister_rollbacks _ t e.rd e.value, State.retireRegister_cycles _ t e.rd e.value⟩

/-- A computation in a quiet core: one cycle takes it in, the next launches it, the third commits the value that it has
when launched (R90, R160). -/
theorem exec_compute {s : State} {i : Instr} {op : ComputeOp} {w : Word} (h : RunsAhead 3 s) (hn : NoLoadNext s)
    (hop : (recordOf i).op = .rs (.compute op))
    (hw : (launchedOf s (recordOf i) (.compute op)).value = some w) :
    ∃ u, CompletesIn 2 i s u ∧ Wrote s u (recordOf i).rd w ∧ u.rollbacks = s.rollbacks ∧ u.cycles = s.cycles + 3 := by
  obtain ⟨hq, ht, hroom⟩ := h
  obtain ⟨u, v, e, hfirst, hsecond, hthird, hlatch, hsame, hcycles, heop, hrd, _, hvalue, _⟩ :=
    rs_life hq ht hroom hn (recordOf i) (.compute op) hop
  have h0 : v.readReg 0 = 0 := (State.readReg_congr hsame.x 0).trans hq.zero
  obtain ⟨z, hz, hwrote, hrollbacks, hcount⟩ := phaseI_of_compute hlatch heop h0
  rw [hrd, hvalue w hw] at hwrote
  have htaken : CompletesIn 0 i s (firstState s (recordOf i)) := .of_exec ((exec_eq_takeIn i s).trans hfirst)
  exact ⟨z, (htaken.snoc hsecond).snoc (hthird.trans hz), hsame.wrote hwrote, hrollbacks.trans hsame.rollbacks,
    hcount.trans hcycles⟩

/-! ### The instructions -/

/-- Settles O35: neither reads a register, and both values are the model's as they stand. -/
theorem upperImmediateResults : Obligations.UpperImmediateResults := by
  unfold Obligations.UpperImmediateResults
  exact fun rd imm s h hn => ⟨exec_compute (op := .lui) h hn rfl rfl, exec_compute (op := .auipc) h hn rfl rfl⟩

/-- Settles O36: `rs1` and the immediate give the value of each. -/
theorem immediateArithmeticResults : Obligations.ImmediateArithmeticResults := by
  unfold Obligations.ImmediateArithmeticResults
  intro rd rs1 imm shamt s h hn c hc
  have hshift := shiftAmount_immShamt shamt
  simp only [List.mem_cons, List.not_mem_nil, or_false] at hc
  rcases hc with rfl | rfl | rfl | rfl | rfl | rfl | rfl | rfl | rfl
  · exact exec_compute (op := .addi) h hn rfl rfl
  · exact exec_compute (op := .slti) h hn rfl (congrArg some (valueSlti_immI _ imm))
  · exact exec_compute (op := .sltiu) h hn rfl (congrArg some (boolWord_lessUnsigned _ (immI imm)))
  · exact exec_compute (op := .xori) h hn rfl rfl
  · exact exec_compute (op := .ori) h hn rfl rfl
  · exact exec_compute (op := .andi) h hn rfl rfl
  · exact exec_compute (op := .slli) h hn rfl (congrArg (some <| s.readReg rs1 <<< ·) hshift)
  · exact exec_compute (op := .srli) h hn rfl (congrArg (some <| s.readReg rs1 >>> ·) hshift)
  · exact exec_compute (op := .srai) h hn rfl (congrArg (some <| (s.readReg rs1).sshiftRight ·) hshift)

/-- Settles O37: `rs1` and `rs2` give the value of each. -/
theorem registerArithmeticResults : Obligations.RegisterArithmeticResults := by
  unfold Obligations.RegisterArithmeticResults
  intro rd rs1 rs2 s h hn c hc
  have hshift := shiftAmount_eq_mod (s.readReg rs2)
  simp only [List.mem_cons, List.not_mem_nil, or_false] at hc
  rcases hc with rfl | rfl | rfl | rfl | rfl | rfl | rfl | rfl | rfl | rfl
  · exact exec_compute (op := .add) h hn rfl rfl
  · exact exec_compute (op := .sub) h hn rfl rfl
  · exact exec_compute (op := .sll) h hn rfl (congrArg (some <| s.readReg rs1 <<< ·) hshift)
  · exact exec_compute (op := .slt) h hn rfl (congrArg some (boolWord_lessSigned _ _))
  · exact exec_compute (op := .sltu) h hn rfl (congrArg some (boolWord_lessUnsigned _ _))
  · exact exec_compute (op := .xor) h hn rfl rfl
  · exact exec_compute (op := .srl) h hn rfl (congrArg (some <| s.readReg rs1 >>> ·) hshift)
  · exact exec_compute (op := .sra) h hn rfl (congrArg (some <| (s.readReg rs1).sshiftRight ·) hshift)
  · exact exec_compute (op := .or) h hn rfl rfl
  · exact exec_compute (op := .and) h hn rfl rfl

end Sys2Proof.Machine

/-! The jumps and branches from fetch to commit (spec/45_control_transfer.md R189 to R198): what a Rollback leaves, what
the commit of a redirect does to the pc, the one path that all eight instructions take through a core with nothing else in
flight, and from these the result of each. -/

namespace Sys2Proof.Machine

/-! ### Commit of a redirect (R125 to R127) -/

/-- A Rollback of a running core leaves nothing in flight, and the capacities, which it keeps, leave room (R131). -/
theorem Quiet.rollback {s w : State} (hq : Quiet s) (hconfig : w.config = s.config) (hrun : w.stopped = false)
    (h0 : w.readReg 0 = 0) (target : Word) : Quiet (w.rollback target) := by
  obtain ⟨hfqCap, _, _, hrob, hrs, hlsq⟩ := State.config_eq_iff.mp ((w.rollback_config target).trans hconfig)
  have hstations : 0 < s.rs.length := List.length_pos_iff.mpr hq.rsSome
  exact {
    running := hrun
    zero := h0
    robEmpty := rfl
    robHead := hrob ▸ Nat.zero_lt_of_lt hq.robHead
    rsFree := List.forall_mem_map.mpr fun _ _ => rfl
    rsSome := List.ne_nil_of_length_pos (hrs ▸ hstations)
    lsqEmpty := rfl
    lsqHead := hlsq ▸ Nat.zero_lt_of_lt hq.lsqHead
    fqEmpty := rfl
    fqCap := hfqCap ▸ hq.fqCap
    cdb := rfl
    robSig := rfl
    lockReq := rfl
    unlockReq := rfl
    commitLatch := rfl
    lsqOut := rfl
    execLatch := rfl
    rstFree := fun r => by simp [State.readRst, State.rollback] }

@[simp] theorem State.commitRedirect_cycles (s : State) (e : RobEntry) : (s.commitRedirect e).cycles = s.cycles := by
  unfold State.commitRedirect
  split <;> rfl

/-- A redirect moves the pc and empties what is in flight, and writes no architectural state (R131). -/
theorem Wrote.commitRedirect {s w : State} {rd : RegIdx} {v : Word} (h : Wrote s w rd v) (e : RobEntry) :
    Wrote s (w.commitRedirect e) rd v := by
  unfold State.commitRedirect
  split
  · exact h
  · exact { h with }

/-- A write to register 0 is discarded, whatever its value (R11). -/
theorem Wrote.discarded {s u : State} {v : Word} (h : Wrote s u 0 v) (v' : Word) : Wrote s u 0 v' :=
  { h with regs := fun r => by simpa using h.regs r }

/-- What a write leaves of a quiet core runs, and its register 0 reads 0. -/
theorem Wrote.running_zero {s w : State} {rd : RegIdx} {v : Word} (h : Wrote s w rd v) (hq : Quiet s) :
    w.stopped = false ∧ w.readReg 0 = 0 := by
  constructor
  · rw [State.stopped, h.halted, h.fault]
    exact hq.running
  · have hnot : ¬ ((0 : RegIdx) = rd ∧ rd ≠ 0) := fun ⟨heq, hne⟩ => hne heq.symm
    rw [h.regs, if_neg hnot, hq.zero]

/-- The redirect of the instruction at `s.pc` takes control to `s.pc` plus the redirect: the fall-through delta by no
Rollback, any other by one (R125, R126). -/
theorem State.commitRedirect_wentTo {s w : State} {e : RobEntry} {rd : RegIdx} {v : Word} (hq : Quiet s)
    (hw : Wrote s w rd v) (hrollbacks : w.rollbacks = s.rollbacks) (hconfig : w.config = s.config) (hpc : e.pc = s.pc) :
    WentTo s (w.commitRedirect e) (s.pc + e.redirect) := by
  have hfall : s.pc + e.redirect = s.pc + fall ↔ e.redirect = fall := BitVec.add_right_inj s.pc
  unfold WentTo
  by_cases hr : e.redirect = fall
  · rw [if_pos (hfall.mpr hr), State.commitRedirect_of_fall hr, hrollbacks]
  · rw [if_neg (mt hfall.mp hr), State.commitRedirect_of_ne hr, hpc]
    obtain ⟨hrun, h0⟩ := hw.running_zero hq
    exact ⟨rfl, congrArg (· + 1) hrollbacks, hq.rollback hconfig hrun h0 _⟩

/-- Phase (i) of a jump or branch writes the link, if the kind writes a register, and then compares the redirect (R125,
R127). -/
theorem phaseI_of_controlFlow {s : State} {t : Tag} {e : RobEntry} (hlatch : s.commitLatch = some (t, e))
    (hop : e.op.isControlFlow = true) (h0 : s.readReg 0 = 0) :
    ∃ w, s.phaseI = .next (w.commitRedirect e) ∧
      Wrote s w (if e.op.writesRegister then e.rd else 0) (linkValue e.pc) ∧ w.rollbacks = s.rollbacks ∧
      w.cycles = s.cycles := by
  cases hkind : e.op with
  | rs op =>
    cases op with
    | compute op => simp [hkind, OpKind.isControlFlow] at hop
    | jump op =>
      obtain ⟨hwrote, _⟩ := State.retireRegister_wrote (s := { s with commitLatch := none }) t e.rd (linkValue e.pc) h0
      exact ⟨_, State.phaseI_eq_commitEntry hlatch h0 (State.commitEntry_jump hkind), { hwrote with },
        State.retireRegister_rollbacks _ t e.rd _, State.retireRegister_cycles _ t e.rd _⟩
    | branch op =>
      have hnothing : Wrote s { s with commitLatch := none } 0 (linkValue e.pc) :=
        ⟨fun r => by simp [State.readReg], rfl, rfl, rfl, rfl⟩
      exact ⟨_, State.phaseI_eq_commitEntry hlatch h0 (State.commitEntry_branch hkind), hnothing, rfl, rfl⟩
  | mem op => simp [hkind, OpKind.isControlFlow] at hop
  | halt => simp [hkind, OpKind.isControlFlow] at hop

/-! ### From fetch to commit -/

/-- Execute gives a redirect to the jumps and branches only (R190). -/
theorem Launched.isControlFlow_of_redirect {l : Launched} {r : Word} (h : l.redirect = some r) :
    (OpKind.rs l.op).isControlFlow = true := by
  unfold Launched.redirect at h
  split at h <;> rename_i hop
  · cases h
  · rw [hop, OpKind.isControlFlow]
  · rw [hop, OpKind.isControlFlow]

/-- A jump or branch in a quiet core: one cycle takes it in, the next launches it, the third commits the link and the
redirect that it has when launched (R90, R190). -/
theorem exec_controlFlow {s : State} {i : Instr} {op : RsOp} {r : Word} (h : RunsAhead 3 s) (hn : NoLoadNext s)
    (hop : (recordOf i).op = .rs op) (hr : (launchedOf s (recordOf i) op).redirect = some r) :
    ∃ u, CompletesIn 2 i s u ∧
      Wrote s u (if (recordOf i).op.writesRegister then (recordOf i).rd else 0) (s.pc + 4) ∧
      WentTo s u (s.pc + r) ∧ u.cycles = s.cycles + 3 := by
  obtain ⟨hq, ht, hroom⟩ := h
  obtain ⟨u, v, e, hfirst, hsecond, hthird, hlatch, hsame, hcycles, heop, hrd, hpc, _, hredirect⟩ :=
    rs_life hq ht hroom hn (recordOf i) op hop
  have h0 : v.readReg 0 = 0 := (State.readReg_congr hsame.x 0).trans hq.zero
  have hflow : e.op.isControlFlow = true := heop ▸ Launched.isControlFlow_of_redirect hr
  obtain ⟨w, hcommit, hwrote, hrollbacks, hcount⟩ := phaseI_of_controlFlow hlatch hflow h0
  rw [heop, ← hop, hrd, hpc] at hwrote
  have hwrote := hsame.wrote hwrote
  have hlast : step u = .next (w.commitRedirect e) := hthird.trans hcommit
  have hconfig : w.config = s.config :=
    calc w.config = (w.commitRedirect e).config := (w.commitRedirect_config e).symm
      _ = u.config := step_config hlast
      _ = (firstState s (recordOf i)).config := step_config hsecond
      _ = s.config := State.takeIn_config hfirst
  have htaken : CompletesIn 0 i s (firstState s (recordOf i)) := .of_exec ((exec_eq_takeIn i s).trans hfirst)
  have hwent := State.commitRedirect_wentTo hq hwrote (hrollbacks.trans hsame.rollbacks) hconfig hpc
  rw [hredirect r hr] at hwent
  exact ⟨_, (htaken.snoc hsecond).snoc hlast, hwrote.commitRedirect e, hwent,
    (w.commitRedirect_cycles e).trans (hcount.trans hcycles)⟩

/-! ### The jumps (R191, R192) -/

/-- Settles O38: both write the link; `JAL`'s redirect is its offset, `JALR`'s the distance from its pc to its target. -/
theorem jumpResults : Obligations.JumpResults := by
  unfold Obligations.JumpResults
  intro rd rs1 offset imm s h hn
  refine ⟨exec_controlFlow (op := .jump .jal) h hn rfl rfl, ?_⟩
  obtain ⟨u, hcompletes, hwrote, hwent, hcycles⟩ :=
    exec_controlFlow (i := .jalr rd rs1 imm) (op := .jump .jalr) (r := redirectJalr (s.readReg rs1) (immI imm) s.pc)
      h hn rfl rfl
  rw [redirectJalr, add_sub_cancel] at hwent
  exact ⟨u, hcompletes, hwrote, hwent, hcycles⟩

/-! ### The branches (R193 to R198) -/

/-- A branch in a quiet core goes to its pc plus its offset where its condition holds, and falls through where it does not
(R189). -/
theorem exec_branch {s : State} {i : Instr} {op : BranchOp} {taken : Bool} (h : RunsAhead 3 s) (hn : NoLoadNext s)
    (hop : (recordOf i).op = .rs (.branch op))
    (hcond : op.cond (s.readReg (recordOf i).rs1) (s.readReg (recordOf i).rs2) = taken) :
    ∃ u, CompletesIn 2 i s u ∧ Wrote s u 0 0 ∧
      WentTo s u (if taken then s.pc + (recordOf i).imm else s.pc + 4) ∧ u.cycles = s.cycles + 3 := by
  have hredirect : (launchedOf s (recordOf i) (.branch op)).redirect =
      some (if taken then (recordOf i).imm else fall) := by
    simp only [Launched.redirect, launchedOf, hop, OpKind.usesRs1, OpKind.usesRs2, if_true, BranchOp.redirect, hcond]
  obtain ⟨u, hcompletes, hwrote, hwent, hcycles⟩ := exec_controlFlow h hn hop hredirect
  rw [hop] at hwrote
  rw [apply_ite (s.pc + ·)] at hwent
  exact ⟨u, hcompletes, hwrote.discarded 0, hwent, hcycles⟩

/-- Not less is at least, signed (R196). -/
theorem condBge_eq_decide (a b : Word) : condBge a b = decide (a.toInt ≥ b.toInt) := by
  simp only [condBge, lessSigned, ← decide_not, not_lt, ge_iff_le]

/-- Not less is at least, unsigned (R198). -/
theorem condBgeu_eq_decide (a b : Word) : condBgeu a b = decide (a.toNat ≥ b.toNat) := by
  simp only [condBgeu, lessUnsigned, ← decide_not, not_lt, ge_iff_le]

theorem condBne_eq_decide (a b : Word) : condBne a b = decide (a ≠ b) := by
  simp only [condBne, bne, beq_eq_decide, ne_eq, decide_not]

/-- Settles O39: each condition, as the statement spells it, decides its branch. -/
theorem branchResults : Obligations.BranchResults := by
  unfold Obligations.BranchResults
  intro rs1 rs2 offset s h hn c hc
  simp only [List.mem_cons, List.not_mem_nil, or_false] at hc
  rcases hc with rfl | rfl | rfl | rfl | rfl | rfl
  · exact exec_branch (op := .beq) h hn rfl rfl
  · exact exec_branch (op := .bne) h hn rfl (condBne_eq_decide _ _)
  · exact exec_branch (op := .blt) h hn rfl rfl
  · exact exec_branch (op := .bge) h hn rfl (condBge_eq_decide _ _)
  · exact exec_branch (op := .bltu) h hn rfl rfl
  · exact exec_branch (op := .bgeu) h hn rfl (condBgeu_eq_decide _ _)

end Sys2Proof.Machine

/-! The loads and stores from fetch to commit, and a store's write after it (spec/46_load_store.md R200 to R208): the bytes
of an access as the value of each load, how far a cycle moves the fetch pc, and from these the result of each. -/

namespace Sys2Proof.Machine

/-! ### Loads -/

/-- Phase (i) of a load writes the entry's value to its register, and neither rolls back nor counts (R128). -/
theorem phaseI_of_load {s : State} {t : Tag} {e : RobEntry} {op : LoadOp} (hlatch : s.commitLatch = some (t, e))
    (hop : e.op = .mem (.load op)) (h0 : s.readReg 0 = 0) :
    ∃ u, s.phaseI = .next u ∧ Wrote s u e.rd e.value ∧ u.rollbacks = s.rollbacks ∧ u.cycles = s.cycles := by
  obtain ⟨hwrote, _⟩ := State.retireRegister_wrote (s := { s with commitLatch := none }) t e.rd e.value h0
  exact ⟨_, State.phaseI_eq_commitEntry hlatch h0 (State.commitEntry_load hop), { hwrote with },
    State.retireRegister_rollbacks _ t e.rd e.value, State.retireRegister_cycles _ t e.rd e.value⟩

/-- A load in range in a quiet core: one cycle takes it in, the next reads memory, the third commits the bytes read,
extended (R90, R145, R200). -/
theorem exec_load {s : State} {i : Instr} {op : LoadOp} {a : Nat} {w : Word} (h : RunsAhead 3 s) (hn : NoLoadNext s)
    (hop : (recordOf i).op = .mem (.load op)) (ha : a = (s.readReg (recordOf i).rs1 + (recordOf i).imm).toNat)
    (hin : a + op.width ≤ s.memSize) (hw : op.extend (BitVec.ofNat 32 (s.mem.readLE a op.width)) = w) :
    ∃ u, CompletesIn 2 i s u ∧ Wrote s u (recordOf i).rd w ∧ u.rollbacks = s.rollbacks ∧ u.cycles = s.cycles + 3 := by
  subst ha
  obtain ⟨hq, ht, hroom⟩ := h
  obtain ⟨u, v, e, hfirst, hsecond, hthird, hlatch, hsame, hcycles, heop, hrd, _, hvalue⟩ :=
    load_life hq ht hroom hn (recordOf i) op hop _ (memRead_eq_some.mpr ⟨hin, rfl⟩)
  have h0 : v.readReg 0 = 0 := (State.readReg_congr hsame.x 0).trans hq.zero
  obtain ⟨z, hz, hwrote, hrollbacks, hcount⟩ := phaseI_of_load hlatch heop h0
  rw [hrd, hvalue.trans hw] at hwrote
  have htaken : CompletesIn 0 i s (firstState s (recordOf i)) := .of_exec ((exec_eq_takeIn i s).trans hfirst)
  exact ⟨z, (htaken.snoc hsecond).snoc (hthird.trans hz), hsame.wrote hwrote, hrollbacks.trans hsame.rollbacks,
    hcount.trans hcycles⟩

/-- Settles O40: each of the five loads extends the bytes at `x[rs1] + imm`. -/
theorem loadResults : Obligations.LoadResults := by
  unfold Obligations.LoadResults
  intro rd rs1 imm s a h hn ha c hc hin
  have hbyte := s.mem.readLE_one a
  have hhalf := s.mem.readLE_two a
  simp only [List.mem_cons, List.not_mem_nil, or_false] at hc
  rcases hc with rfl | rfl | rfl | rfl | rfl
  · exact exec_load (op := .lb) h hn rfl ha hin (congrArg (BitVec.signExtend 32) hbyte)
  · exact exec_load (op := .lh) h hn rfl ha hin (congrArg (BitVec.signExtend 32) hhalf)
  · exact exec_load (op := .lw) h hn rfl ha hin (s.mem.readLE_four a)
  · exact exec_load (op := .lbu) h hn rfl ha hin (congrArg (BitVec.setWidth 32) hbyte)
  · exact exec_load (op := .lhu) h hn rfl ha hin (congrArg (BitVec.setWidth 32) hhalf)

/-! ### How far fetch goes (R101, R131) -/

/-- Fetch has gone on by at most `k` words since `s`, unless a Rollback has moved it. -/
def FetchedAtMost (k : Nat) (s u : State) : Prop :=
  s.rollbacks < u.rollbacks ∨ (u.rollbacks = s.rollbacks ∧ u.pc.toNat ≤ s.pc.toNat + 4 * k)

section
variable {s t u : State}

theorem FetchedAtMost.of_pc {k : Nat} (hrollbacks : u.rollbacks = s.rollbacks) (hpc : u.pc = s.pc) :
    FetchedAtMost k s u :=
  .inr ⟨hrollbacks, hpc ▸ Nat.le_add_right _ _⟩

theorem FetchedAtMost.trans {j k : Nat} (h : FetchedAtMost j s t) (h' : FetchedAtMost k t u) :
    FetchedAtMost (j + k) s u := by
  unfold FetchedAtMost at *
  omega

theorem FetchedAtMost.pc_le {k : Nat} (h : FetchedAtMost k s u) (hrollbacks : u.rollbacks = s.rollbacks) :
    u.pc.toNat ≤ s.pc.toNat + 4 * k :=
  (h.resolve_left hrollbacks.not_gt).2

/-- Taking a record in moves the pc on by one word (R101). -/
theorem FetchedAtMost.enqueue (s : State) (r : Record) : FetchedAtMost 1 s (s.enqueue r) := by
  have hnext : (s.pc + fall).toNat ≤ s.pc.toNat + 4 := by
    rw [BitVec.toNat_add]
    exact Nat.mod_le _ _
  refine .inr ⟨s.enqueue_rollbacks r, ?_⟩
  unfold State.enqueue
  split
  · exact hnext
  · exact Nat.le_add_right _ _

/-- Of what Commit does, only a Rollback moves the pc (R131). -/
theorem FetchedAtMost.phaseI (h : s.phaseI = .next t) : FetchedAtMost 0 s t := by
  rcases State.phaseI_next h with rfl | ⟨g, e, v, _, hv, rfl⟩
  · exact .of_pc rfl rfl
  · have hcommit : FetchedAtMost 0 { s with commitLatch := none } v :=
      State.commitEntry_keeps (P := FetchedAtMost 0 { s with commitLatch := none })
        (halt := fun _ hw => hw) (mark := fun _ _ hw => hw) (retire := fun _ _ _ _ hw => hw)
        (rollback := fun w _ hw => .inl (Nat.lt_succ_of_le (hw.elim Nat.le_of_lt fun ⟨heq, _⟩ => heq.ge)))
        (.of_pc rfl rfl) hv
    exact hcommit

theorem FetchedAtMost.afterFetch (h : s.afterFetch = .next t) : FetchedAtMost 0 s t :=
  have hphases : FetchedAtMost 0 s s.phaseF.phaseG.phaseH := .of_pc (by simp) (by simp)
  hphases.trans (.phaseI h)

theorem State.EndsEarly.fetchedAtMost {k : Nat} (h : s.EndsEarly t) : FetchedAtMost k s t := by
  rcases h with ⟨_, rfl⟩ | ⟨_, _, rfl⟩ | ⟨_, _, _, _, rfl⟩
  · exact .of_pc rfl rfl
  · exact .of_pc rfl rfl
  · exact .of_pc s.same_atAttempt.rollbacks s.atAttempt_pc

/-- No phase before the fetch moves the pc or rolls back. -/
theorem FetchedAtMost.atFetch {b : State} (h : s.atAttempt.lsqAttempt = .running b) :
    FetchedAtMost 0 s b.phaseC.phaseD := by
  obtain ⟨_, _, _, rfl, _⟩ := State.lsqAttempt_running h
  exact .of_pc (by simp [s.same_atAttempt.rollbacks]) (by simp)

/-- A cycle takes in at most one word (R101). -/
theorem cycle_fetchedAtMost {i : Instr} (h : exec i s = .next t ∨ step s = .next t) : FetchedAtMost 1 s t := by
  rcases h with h | h
  · rw [exec_eq_takeIn] at h
    rcases s.takeIn_cases (recordOf i) with ⟨u, hu, hs⟩ | ⟨_, _, b, hb, hs⟩ <;> rw [hs] at h
    · exact Host.Outcome.next.inj h ▸ hu.fetchedAtMost
    · exact ((FetchedAtMost.atFetch hb).trans (.enqueue _ _)).trans (.afterFetch h)
  · rcases step_cases s with ⟨u, hu, hs⟩ | ⟨_, _, b, hb, hs | hs | ⟨j, hs⟩⟩ <;> rw [hs] at h
    · exact Host.Outcome.next.inj h ▸ hu.fetchedAtMost
    · obtain rfl := Host.Outcome.next.inj h
      exact (FetchedAtMost.atFetch hb).trans (.of_pc (k := 1) rfl rfl)
    · exact ((FetchedAtMost.atFetch hb).trans (.of_pc (k := 1) rfl rfl)).trans (.afterFetch h)
    · exact ((FetchedAtMost.atFetch hb).trans (.enqueue _ _)).trans (.afterFetch h)

end

/-! ### The last cycle of a run -/

/-- A run of `k + 1` steps is a run of `k` steps and a step. -/
theorem core_run_unsnoc {M : Host.Core} {k : Nat} {t u : M.State} (h : M.run (k + 1) t = .next u) :
    ∃ v, M.run k t = .next v ∧ M.step v = .next u := by
  induction k generalizing t with
  | zero =>
    refine ⟨t, rfl, ?_⟩
    cases ht : M.step t <;> simp_all [Host.Core.run]
  | succ k ih =>
    cases ht : M.step t with
    | next w =>
      rw [Host.Core.run, ht] at h
      rw [Host.Core.run, ht]
      exact ih h
    | fault e => simp [Host.Core.run, ht] at h
    | refused e => simp [Host.Core.run, ht] at h

theorem CompletesIn.unsnoc {k : Nat} {i : Instr} {s u : State} (h : CompletesIn (k + 1) i s u) :
    ∃ v, CompletesIn k i s v ∧ step v = .next u := by
  obtain ⟨t, hexec, hrun⟩ := h
  obtain ⟨v, hv, hstep⟩ := core_run_unsnoc (M := core) hrun
  exact ⟨v, ⟨t, hexec, hv⟩, hstep⟩

theorem CompletesIn.zero {i : Instr} {s u : State} (h : CompletesIn 0 i s u) : exec i s = .next u := by
  obtain ⟨t, hexec, hrun⟩ := h
  exact hexec.trans hrun

theorem CompletesIn.fetchedAtMost {k : Nat} {i : Instr} {s u : State} (h : CompletesIn k i s u) :
    FetchedAtMost (k + 1) s u := by
  induction k generalizing u with
  | zero => exact cycle_fetchedAtMost (.inl h.zero)
  | succ k ih =>
    obtain ⟨v, hv, hstep⟩ := h.unsnoc
    exact (ih hv).trans (cycle_fetchedAtMost (i := i) (.inr hstep))

/-- The invariant and the links of the waiting stores last through a run (R32). -/
theorem CompletesIn.storeLinked {k : Nat} {i : Instr} {s u : State} (h : CompletesIn k i s u) (hs : Inv s)
    (hl : StoreLinked s) : Inv u ∧ (u.fault = .none → StoreLinked u) := by
  induction k generalizing u with
  | zero =>
    obtain ⟨t, ht, hlinked⟩ := exec_storeLinked i hs fun _ => hl
    obtain rfl := Host.Outcome.next.inj (ht.symm.trans h.zero)
    exact ⟨hs.exec ht, hlinked⟩
  | succ k ih =>
    obtain ⟨v, hv, hstep⟩ := h.unsnoc
    obtain ⟨hinv, hvl⟩ := ih hv
    obtain ⟨t, ht, hlinked⟩ := step_storeLinked hinv hvl
    obtain rfl := Host.Outcome.next.inj (ht.symm.trans hstep)
    exact ⟨hinv.step ht, hlinked⟩

/-! ### Stores -/

theorem State.beforeFetch_fault_memSize {s b : State} (h : s.beforeFetch = .running b) :
    b.fault = s.fault ∧ b.memSize = s.memSize := by
  rcases s.beforeFetch_split with ⟨_, _, hended⟩ | ⟨_, _, c, hc, hrunning⟩
  · rw [hended] at h
    cases h
  · obtain rfl := Flow.running.inj (hrunning.symm.trans h)
    obtain ⟨_, _, _, rfl, _⟩ := State.lsqAttempt_running hc
    simp [s.same_atAttempt.fault, s.same_atAttempt.memSize]

/-- A step that reaches its fetch, with the fetch in range, does not fault (R47, R223). -/
theorem step_fault_of_running {s b t : State} (hb : s.beforeFetch = .running b) (hpc : s.pc.toNat + 4 ≤ s.memSize)
    (h : step s = .next t) : t.fault = s.fault := by
  obtain ⟨hfault, hmemSize⟩ := State.beforeFetch_fault_memSize hb
  obtain ⟨c, hstep, hc⟩ := step_of_running hb (by rwa [State.beforeFetch_pc hb, hmemSize])
  have hcfault : c.fault = b.fault := by
    rcases hc with rfl | ⟨_, i, _, _, rfl⟩
    · rfl
    · exact b.enqueue_fault _
  obtain ⟨v, hv, hsame, _⟩ := c.afterFetch_eq_phaseI
  obtain ⟨_, _, htfault, _⟩ := State.phaseI_frame ((hstep.trans hv).symm.trans h)
  rw [htfault, hsame.fault, hcfault, hfault]

/-- The queue entry of a store's record, reported and marked, is that store of `x[rs2]` at base `x[rs1]`. -/
theorem lsqEntryOf_isStore {s : State} {r : Record} {op : StoreOp} (hop : r.op = .mem (.store op)) :
    ({ lsqEntryOf s r (.store op) with reported := true, ready := true } : LsqEntry).IsStore op (s.readReg r.rs1)
      (s.readReg r.rs2) := by
  constructor <;> simp [lsqEntryOf, hop, OpKind.usesRs1, OpKind.usesRs2]

/-- A state is itself with nothing written. -/
theorem Wrote.nothing (s : State) : Wrote s s 0 0 := ⟨fun _ => (if_neg fun ⟨_, hne⟩ => hne rfl).symm, rfl, rfl, rfl, rfl⟩

/-- A store in range in a quiet core: two cycles after the one that takes it in it is committed, with registers and memory
as they were, and the cycle after that writes its bytes (R129, R146, R200). -/
theorem exec_store {s : State} {i : Instr} {op : StoreOp} {a : Nat} (h : RunsAhead 4 s) (hs : Always s)
    (hop : (recordOf i).op = .mem (.store op)) (ha : a = (s.readReg (recordOf i).rs1 + (recordOf i).imm).toNat)
    (hin : a + op.width ≤ s.memSize) :
    ∃ v u, CompletesIn 2 i s v ∧ Wrote s v 0 0 ∧ v.rollbacks = s.rollbacks ∧ v.cycles = s.cycles + 3 ∧
      step v = .next u ∧ u.fault = .none ∧
      ∀ b, u.mem.read b = if a ≤ b ∧ b < a + op.width then (s.readReg (recordOf i).rs2).extractLsb' (8 * (b - a)) 8
        else s.mem.read b := by
  subst ha
  obtain ⟨hq, ht, hroom⟩ := h
  unfold FetchRoom at hroom
  obtain ⟨_, hfault⟩ := State.stopped_eq_false.mp hq.running
  have hthree : RunsAhead 3 s := ⟨hq, ht.mono (by decide), by unfold FetchRoom; omega⟩
  obtain ⟨v, hcommitted, hinv, hsame, hcycles, hfront⟩ := store_life hthree hs hop
  have hvfault : v.fault = .none := hsame.fault.trans hfault
  obtain ⟨_, hlinked⟩ := hcommitted.storeLinked ⟨hs, fun _ => hq.shape⟩ hq.storeLinked
  have hpc : v.pc.toNat + 4 ≤ v.memSize := by
    have hfetched := hcommitted.fetchedAtMost.pc_le hsame.rollbacks
    rw [hsame.memSize]
    omega
  obtain ⟨u, hstep, _⟩ := step_storeLinked hinv hlinked
  obtain ⟨b, hb, hmem⟩ := beforeFetch_of_markedStore (hinv.midCycle hvfault).lsq (hsame.running hq.running)
    (hsame.timeFor hcycles ht) hfront (lsqEntryOf_isStore hop) rfl (hsame.memSize ▸ hin)
  refine ⟨v, u, hcommitted, hsame.wrote (.nothing v), hsame.rollbacks, hcycles, hstep,
    (step_fault_of_running hb hpc hstep).trans hvfault, fun c => ?_⟩
  rw [step_mem_of_running hb hstep, hmem, hsame.mem]
  exact Memory.read_writeLE hs.memWf _ _ c _

/-- Settles O41: each of the three stores is a store of its width at `x[rs1] + imm`. -/
theorem storeResults : Obligations.StoreResults := by
  unfold Obligations.StoreResults
  intro rs2 rs1 imm s a h hs ha c hc hin
  simp only [List.mem_cons, List.not_mem_nil, or_false] at hc
  rcases hc with rfl | rfl | rfl
  · exact exec_store (op := .sb) h hs rfl ha hin
  · exact exec_store (op := .sh) h hs rfl ha hin
  · exact exec_store (op := .sw) h hs rfl ha hin

end Sys2Proof.Machine

/-! `HALT` from fetch to the halted core (spec/47_halt.md R210, R212), the stopped core (spec/60_exceptions.md R225) and the
cycle bound (R224). -/

namespace Sys2Proof.Machine

/-! ### A stopped core (R225) -/

theorem State.stopped_eq_true {s : State} : s.stopped = true ↔ s.halted = true ∨ s.fault ≠ .none := by
  simp [State.stopped]

/-- A stopped core's step changes nothing. -/
theorem step_of_stopped {s : State} (h : s.stopped = true) : step s = .next s :=
  step_of_ended (State.beforeFetch_of_stopped h)

/-- Reset leaves a core that runs, whatever was loaded (R241). -/
theorem State.resetWith_stopped (c : Config) (image : Memory) : (State.resetWith c image).stopped = false := rfl

/-- Settles O45: a stopped core's cycle ends at its start, and `rst` clears `halted` and `fault`. -/
theorem stoppedCoreStays : Obligations.StoppedCoreStays := by
  unfold Obligations.StoppedCoreStays
  intro s h
  have hstopped := State.stopped_eq_true.mpr h
  exact ⟨step_of_stopped hstopped, exec_of_ended (State.beforeFetch_of_stopped hstopped),
    State.resetWith_stopped _⟩

/-! ### `HALT` (R210, R124) -/

/-- Settles O42: `halt_life` reaches the phase (i) that commits the `HALT`, and the commit sets `halted` alone. -/
theorem haltResults : Obligations.HaltResults := by
  unfold Obligations.HaltResults
  rintro s ⟨hq, ht, hroom⟩
  obtain ⟨v, e, htake, hstep, hlatch, hsame, hcycles, hop⟩ := halt_life hq ht hroom (recordOf .halt) rfl
  obtain ⟨_, hfault⟩ := State.stopped_eq_false.mp hq.running
  have hregs (r : RegIdx) : v.readReg r = s.readReg r := State.readReg_congr hsame.x r
  have hcommit : v.phaseI = .next { v with commitLatch := none, halted := true } :=
    State.phaseI_eq_commitEntry hlatch ((hregs 0).trans hq.zero) (State.commitEntry_halt hop)
  have htaken : CompletesIn 0 .halt s (firstState s (recordOf .halt)) :=
    .of_exec ((exec_eq_takeIn .halt s).trans htake)
  exact ⟨_, htaken.snoc (hstep.trans hcommit), rfl, hsame.fault.trans hfault, hregs, hsame.mem, hsame.rollbacks, hcycles,
    congrArg (BitVec.extractLsb' 0 8) (hregs 10), step_of_stopped (State.stopped_eq_true.mpr (.inl rfl))⟩

/-! ### The cycle bound (R224) -/

theorem State.timeLimitReached_of_bound {s : State} {n : Nat} (h : s.maxCycles = some n) :
    s.timeLimitReached = decide (n ≤ s.cycles) := by
  rw [State.timeLimitReached, h]

/-- A running core at its bound raises before any phase. -/
theorem State.beforeFetch_of_timeLimit {s : State} (hrun : s.stopped = false) (hbound : s.timeLimitReached = true) :
    s.beforeFetch = .ended (s.raise .simulationTimeout) := by
  simp [State.beforeFetch, State.startCycle, hrun, hbound]

/-- `u` is in or after a cycle that began in `s`: the cycle is counted, and what it may have raised is no timeout. -/
structure Counted (s u : State) : Prop where
  cycles : u.cycles = s.cycles + 1
  noTimeout : u.fault ≠ .simulationTimeout

section
variable {s u t : State}

/-- An access out of range is recorded in place of whatever stood there, and counts no cycle (R223). -/
theorem Counted.raise (h : Counted s u) (ea : Word) : Counted s (u.raise (.memoryAccessError ea)) where
  cycles := h.cycles
  noTimeout := nofun

theorem Counted.enqueue (h : Counted s u) (r : Record) : Counted s (u.enqueue r) where
  cycles := (u.enqueue_cycles r).trans h.cycles
  noTimeout := by rw [u.enqueue_fault]; exact h.noTimeout

theorem Counted.afterFetch (h : Counted s u) (ht : u.afterFetch = .next t) : Counted s t := by
  obtain ⟨v, hv, hsame, hcount, _⟩ := u.afterFetch_eq_phaseI
  obtain ⟨_, hcycles, hfault, _⟩ := State.phaseI_frame (hv.symm.trans ht)
  exact ⟨(hcycles.trans hcount).trans h.cycles, by rw [hfault, hsame.fault]; exact h.noTimeout⟩

theorem Counted.atAttempt (hfault : s.fault = .none) : Counted s s.atAttempt where
  cycles := s.atAttempt_cycles
  noTimeout := by rw [s.same_atAttempt.fault, hfault]; nofun

/-- Phases (b), (c) and (d) neither count a cycle nor raise where they reach the fetch. -/
theorem Counted.atFetch {b : State} (hfault : s.fault = .none) (hb : s.atAttempt.lsqAttempt = .running b) :
    Counted s b.phaseC.phaseD := by
  have hnone := (Counted.atAttempt hfault).noTimeout
  obtain ⟨_, _, _, rfl, _⟩ := State.lsqAttempt_running hb
  exact ⟨by simp, by simpa using hnone⟩

/-- Below its bound a running core's step is counted, and where it raises, raises an access out of range (R223, R224). -/
theorem step_counted (hrun : s.stopped = false) (hbound : s.timeLimitReached = false) (h : step s = .next t) :
    Counted s t := by
  obtain ⟨_, hfault⟩ := State.stopped_eq_false.mp hrun
  rcases step_cases s with ⟨u, hu, hs⟩ | ⟨_, _, b, hb, hs⟩
  · obtain rfl := Host.Outcome.next.inj (hs.symm.trans h)
    rcases hu with ⟨hstopped, _⟩ | ⟨_, hreached, _⟩ | ⟨_, _, ea, _, rfl⟩
    · exact absurd (hrun.symm.trans hstopped) nofun
    · exact absurd (hbound.symm.trans hreached) nofun
    · exact (Counted.atAttempt hfault).raise ea
  · have hfetch := Counted.atFetch hfault hb
    rcases hs with hs | hs | ⟨i, hs⟩ <;> rw [hs] at h
    · exact Host.Outcome.next.inj h ▸ hfetch.raise _
    · exact hfetch.afterFetch h
    · exact (hfetch.enqueue _).afterFetch h

end

/-- Settles O46: the bound is compared before the cycle is counted (decision D7), and no later phase raises a timeout. -/
theorem timeoutAtBound : Obligations.TimeoutAtBound := by
  unfold Obligations.TimeoutAtBound
  intro s t n hhalted hfault hmax
  have hrun := State.stopped_eq_false.mpr ⟨hhalted, hfault⟩
  have hlimit := State.timeLimitReached_of_bound hmax
  constructor
  · intro hreached
    exact step_of_ended (State.beforeFetch_of_timeLimit hrun (hlimit.trans (decide_eq_true hreached)))
  · intro hbelow hstep
    obtain ⟨hcycles, hnone⟩ := step_counted hrun (hlimit.trans (decide_eq_false (by omega))) hstep
    exact ⟨hcycles, hnone⟩

end Sys2Proof.Machine

/-! The loader (spec/70_reset_and_hazards.md R243): whatever tokens it takes, the memory it hands to reset is canonical and
within the memory's size. -/

namespace Sys2Proof.Machine

/-- A write inside the memory lists no address outside it. -/
theorem Memory.write_range {m : Memory} {memSize a : Nat} (h : ∀ c ∈ m, c.1 < memSize) (ha : a < memSize) (b : Byte) :
    ∀ c ∈ m.write a b, c.1 < memSize := by
  intro c hc
  rcases Memory.mem_write hc with hold | rfl
  · exact h c hold
  · exact ha

/-- Loading keeps the canonical form and the range, token by token: a byte outside the memory ends it with none. -/
theorem loadTokens_keeps {memSize cursor : Nat} {ts : List ImageToken} {m image : Memory} (hwf : m.wf)
    (hrange : ∀ c ∈ m, c.1 < memSize) (h : loadTokens memSize ts cursor m = some image) :
    image.wf ∧ ∀ c ∈ image, c.1 < memSize := by
  induction ts generalizing cursor m with
  | nil => exact Option.some.inj h ▸ ⟨hwf, hrange⟩
  | cons token ts ih =>
    cases token with
    | address a => exact ih hwf hrange h
    | byte b =>
      rw [loadTokens] at h
      split at h
      · rename_i hcursor
        exact ih (Memory.write_wf hwf) (Memory.write_range hrange hcursor b) h
      · cases h

/-- An image that loads is canonical and lies within the memory. -/
theorem loadImage_keeps {memSize : Nat} {text : String} {image : Memory} (h : loadImage memSize text = some image) :
    image.wf ∧ ∀ c ∈ image, c.1 < memSize := by
  obtain ⟨ts, _, hload⟩ := Option.bind_eq_some_iff.mp h
  exact loadTokens_keeps Memory.wf_nil (by simp) hload

/-- Settles O59: the example by evaluation; a loaded image is one that `State.resetWith_invariants` takes. -/
theorem loadedImageStartsInvariant : Obligations.LoadedImageStartsInvariant := by
  unfold Obligations.LoadedImageStartsInvariant
  refine ⟨by decide, fun c text s hc hboot => ?_⟩
  obtain ⟨image, hload, rfl⟩ := Option.map_eq_some_iff.mp hboot
  obtain ⟨hwf, hrange⟩ := loadImage_keeps hload
  obtain ⟨hinv, hstores, htags, hoperands, hquiet⟩ := State.resetWith_invariants hc hwf hrange
  exact ⟨hinv, hstores, htags, hoperands, hquiet, rfl⟩

end Sys2Proof.Machine
